-- ==== Sys2Proof/Word.lean ====
section
/-! DEFINITION. The word types of the block (00_scope.md section 5): every quantity is unsigned, a byte is 8 bits. -/

namespace Sys2Proof

/-- `u8`, one byte. -/
abbrev Byte := BitVec 8

/-- `u16`, a 16-bit native integer. -/
abbrev Word16 := BitVec 16

/-- `u32`, a 32-bit native integer, an SRC address or a result. -/
abbrev Word32 := BitVec 32

/-- One command word `cmd[63:0]` (R50). -/
abbrev Command := BitVec 64

end Sys2Proof
end

