-- ==== Sys2Proof/Config.lean ====
section
/-! DEFINITION. What an implementation fixes (R5: the three OPEN parameters, whose values are free here) and the one
free value of the spec (R10, R180: the network-integer bytes after reset). -/

namespace Sys2Proof

/-- The three OPEN parameters of R5, fixed for one block. `NREG` = 8, `NCUR` = 4 and the single accumulator are in the
types of `State`. -/
structure Config where
  /-- `CAP_WORDS` (W): the buffer capacity in 16-bit words. -/
  capWords : Nat
  /-- `NBUF`: the number of buffer objects, which are also the chain nodes. -/
  nbuf : Nat
  /-- `NCHAIN`: the number of chain descriptors. -/
  nchain : Nat
deriving DecidableEq, Repr

/-- The legal ranges of the parameters (R5). -/
abbrev Config.Ok (cfg : Config) : Prop :=
  1 ≤ cfg.capWords ∧ cfg.capWords ≤ 32767 ∧ 1 ≤ cfg.nbuf ∧ cfg.nbuf ≤ 255 ∧ 1 ≤ cfg.nchain ∧ cfg.nchain ≤ 255

/-- The byte capacity `C = 2 * CAP_WORDS` of every buffer (R5, R11). -/
def Config.capacity (cfg : Config) : Nat := 2 * cfg.capWords

/-- FREE VALUE (assumption 2): `CAP_WORDS - 1` of the block at hand. R5 leaves the three parameters OPEN within their
ranges and forbids the model to assume the reference values. No body, so no proof can see a value. -/
opaque Config.openCapWords : Fin 32767

/-- FREE VALUE (assumption 2): `NBUF - 1` of the block at hand. -/
opaque Config.openNbuf : Fin 255

/-- FREE VALUE (assumption 2): `NCHAIN - 1` of the block at hand. -/
opaque Config.openNchain : Fin 255

/-- The configuration of the block at hand: any legal one, no proof can tell which (R5, assumption 2). -/
def Config.implementation : Config :=
  { capWords := Config.openCapWords.val + 1, nbuf := Config.openNbuf.val + 1, nchain := Config.openNchain.val + 1 }

/-- FREE VALUE (assumption 1). What byte `k` of NI register `i` holds after the reset numbered `epoch`: R10, R20 and
R180 leave it UNSPECIFIED, the same for all reads until the byte is written, drawn afresh at every reset, and not to be
assumed zero. It has no body, so no proof can see a value of it. -/
opaque Config.niResetByte : (epoch i k : Nat) → Byte

end Sys2Proof
end

