-- ==== Sys2Proof/Syntax.lean ====
section
/-! DEFINITION. The 43 commands of R54, one constructor per row of spec/opcode_table.json, with their operands as the
operand kinds of R52 name them. The pseudo-instructions of R60 are other spellings of these and have no constructor. -/

namespace Sys2Proof

/-- A half of an NI register (R10): `hi` is bytes 0 and 1, `lo` is bytes 2 and 3. -/
inductive Half where
  | hi
  | lo
deriving DecidableEq, Repr

/-- Operand kind `r32`: an NI register `n0` to `n7`. -/
abbrev Reg := Fin 8

/-- Operand kind `r16`: a half of an NI register. -/
structure HalfReg where
  reg : Reg
  half : Half
deriving DecidableEq, Repr

/-- Operand kind `cur`: a cursor `c0` to `c3`. -/
abbrev Cur := Fin 4

/-- A node reference (R15): a node number, or `none` for `NULL` (encoded `0xFF`). -/
abbrev NodeRef := Option Nat

/-- Operand kind `csr` (R18). -/
inductive Csr where
  | capw
  | config
  | fault
  | sum
deriving DecidableEq, Repr

/-- The commands. A `buf` or `chain` operand is its number and a `node` operand a node reference, so whether it
exists depends on the configuration (`Instr.wellFormed`); every other operand kind is legal by its type. -/
inductive Instr where
  -- system (45_system.md)
  | nop
  | rdcsr (csr : Csr)
  -- 16-bit network integers (40_netint.md section 1)
  | ni16Set (r : HalfReg) (v : Word16)
  | ni16Get (r : HalfReg)
  | ni16Ld (r : HalfReg) (c : Cur)
  | ni16Eq (r q : HalfReg)
  | ni16Ne (r q : HalfReg)
  | ni16Eqi (r : HalfReg) (v : Word16)
  | ni16Nei (r : HalfReg) (v : Word16)
  -- 32-bit network integers (40_netint.md section 2)
  | ni32Set (r : Reg) (v : Word32)
  | ni32Get (r : Reg)
  | ni32Ld (r : Reg) (c : Cur)
  | ni32Eq (r q : Reg)
  | ni32Ne (r q : Reg)
  | ni32Eqi (r : Reg) (v : Word32)
  | ni32Nei (r : Reg) (v : Word32)
  | ni32Inc (r : Reg)
  | ni32Add (r q : Reg)
  | ni32Lt (r q : Reg)
  -- cursors (41_cursor.md)
  | curOpen (c : Cur) (b : Nat)
  | curRem (c : Cur)
  | curPeek (c : Cur)
  | curInc (c : Cur)
  | curAdv (c : Cur) (n : Word16)
  -- buffers (42_buffer.md)
  | bufAppend (b : Nat) (length : Word16) (src : Word32)
  | bufClear (b : Nat)
  | bufLen (b : Nat)
  | bufRdb (b : Nat) (idx : Word16)
  -- checksum accumulator (43_checksum.md)
  | csClear
  | csAcc (r : HalfReg)
  | csAcci (w : Word16)
  | csSum
  | csRange (b : Nat) (off : Word16) (n : Word32)
  | csRangec (c : Cur) (off : Word16) (n : Word32)
  -- intrusive chains (44_chain.md)
  | chPrepend (q : Nat) (k : NodeRef)
  | chAppend (q : Nat) (k : NodeRef)
  | chPush (q : Nat) (k : NodeRef) (useFifo : Bool)
  | chFirst (q : Nat) (remove : Bool)
  | chPop (q : Nat)
  | chRemove (q : Nat) (k : NodeRef)
  | chHas (q : Nat) (k : NodeRef)
  | chNext (k : NodeRef)
  | chLast (q : Nat)
deriving DecidableEq, Repr

end Sys2Proof
end

