-- ==== Sys2Proof/WellFormed.lean ====
section
/-! DEFINITION. The configuration-dependent part of R52 and R55 (c): a buffer number is below `NBUF`, a chain number
below `NCHAIN`, a node number below `NBUF` (`NULL` is always legal). -/

namespace Sys2Proof

/-- A node operand is `NULL` or an existing node (R52 kind `node`). -/
def NodeRef.legal (cfg : Config) : NodeRef → Bool
  | none => true
  | some k => decide (k < cfg.nbuf)

/-- Every operand of the command names an object of the block (R55 (c)). -/
def Instr.wellFormed (cfg : Config) : Instr → Bool
  | .nop => true
  | .rdcsr _ => true
  | .ni16Set _ _ => true
  | .ni16Get _ => true
  | .ni16Ld _ _ => true
  | .ni16Eq _ _ => true
  | .ni16Ne _ _ => true
  | .ni16Eqi _ _ => true
  | .ni16Nei _ _ => true
  | .ni32Set _ _ => true
  | .ni32Get _ => true
  | .ni32Ld _ _ => true
  | .ni32Eq _ _ => true
  | .ni32Ne _ _ => true
  | .ni32Eqi _ _ => true
  | .ni32Nei _ _ => true
  | .ni32Inc _ => true
  | .ni32Add _ _ => true
  | .ni32Lt _ _ => true
  | .curOpen _ b => decide (b < cfg.nbuf)
  | .curRem _ => true
  | .curPeek _ => true
  | .curInc _ => true
  | .curAdv _ _ => true
  | .bufAppend b _ _ => decide (b < cfg.nbuf)
  | .bufClear b => decide (b < cfg.nbuf)
  | .bufLen b => decide (b < cfg.nbuf)
  | .bufRdb b _ => decide (b < cfg.nbuf)
  | .csClear => true
  | .csAcc _ => true
  | .csAcci _ => true
  | .csSum => true
  | .csRange b _ _ => decide (b < cfg.nbuf)
  | .csRangec _ _ _ => true
  | .chPrepend q k => decide (q < cfg.nchain) && NodeRef.legal cfg k
  | .chAppend q k => decide (q < cfg.nchain) && NodeRef.legal cfg k
  | .chPush q k _ => decide (q < cfg.nchain) && NodeRef.legal cfg k
  | .chFirst q _ => decide (q < cfg.nchain)
  | .chPop q => decide (q < cfg.nchain)
  | .chRemove q k => decide (q < cfg.nchain) && NodeRef.legal cfg k
  | .chHas q k => decide (q < cfg.nchain) && NodeRef.legal cfg k
  | .chNext k => NodeRef.legal cfg k
  | .chLast q => decide (q < cfg.nchain)

end Sys2Proof
end

