-- ==== Sys2Proof/Decode.lean ====
section
/-! DEFINITION. The command word (30_encoding.md): its fields (R50), formats (R51), operand kinds (R52), the decoder
with its named rejections (R54, R55), then the encoder, written from the same tables. -/

namespace Sys2Proof

/-- The fields of a command word (R50); `IMM16 = {B, Cf}` overlaps `B` and `Cf`. -/
structure Fields where
  opc : Byte
  a : Byte
  b : Byte
  c : Byte
  dw : Word32
deriving DecidableEq, Repr

/-- Why a word is illegal whatever the configuration (R55). -/
inductive Reject where
  /-- R55 (a): `OPC` is not one of the 43 values. -/
  | unknownOpcode
  /-- R55 (b): a field that the format marks "must be zero" is not zero. -/
  | unusedFieldNonzero
  /-- R55 (c): an operand field outside the legal values of its kind. -/
  | badOperand
deriving DecidableEq, Repr

/-- R50: the bit positions of the fields. -/
def fieldsOf (w : Command) : Fields :=
  { opc := w.extractLsb' 56 8, a := w.extractLsb' 48 8, b := w.extractLsb' 40 8, c := w.extractLsb' 32 8
    dw := w.extractLsb' 0 32 }

/-- R50: `{OPC, A, B, Cf, DW}`. -/
def wordOf (f : Fields) : Command := f.opc ++ f.a ++ f.b ++ f.c ++ f.dw

/-- R50: `IMM16 = {B, Cf}`. -/
def Fields.imm16 (f : Fields) : Word16 := f.b ++ f.c

/-! ### Operand fields, read (R52) -/

/-- Kind `r32`: legal 0x00 to 0x07. -/
def readReg (x : Byte) : Option Reg :=
  if h : x.toNat < 8 then some ⟨x.toNat, h⟩ else none

/-- Kind `r16`: bits [2:0] the register, bit [3] the half (0 `hi`, 1 `lo`), legal 0x00 to 0x0F. -/
def readHalfReg (x : Byte) : Option HalfReg :=
  if x.toNat < 16 then
    some { reg := ⟨x.toNat % 8, Nat.mod_lt _ (by decide)⟩, half := if x.toNat < 8 then .hi else .lo }
  else none

/-- Kind `cur`: legal 0x00 to 0x03. -/
def readCur (x : Byte) : Option Cur :=
  if h : x.toNat < 4 then some ⟨x.toNat, h⟩ else none

/-- Kinds `buf` and `chain`: the number itself; its range is the configuration's (`Instr.wellFormed`). -/
def readNumber (x : Byte) : Option Nat := some x.toNat

/-- Kind `node`: the node number, or 0xFF for `NULL`. -/
def readNode (x : Byte) : Option NodeRef :=
  some (if x = 0xFF then none else some x.toNat)

/-- Kind `csr`: legal 0 to 3. -/
def readCsr (x : Byte) : Option Csr :=
  if x = 0 then some .capw else if x = 1 then some .config
  else if x = 2 then some .fault else if x = 3 then some .sum else none

/-- Kind `flag`: legal 0x00 and 0x01. -/
def readFlag (x : Byte) : Option Bool :=
  if x = 0 then some false else if x = 1 then some true else none

/-! ### Formats, read (R51): the "must be zero" fields first, then the operand fields -/

/-- A command of one operand field, or its rejection. -/
def operand1 {α : Type} (x : Option α) (mk : α → Instr) : Except Reject Instr :=
  match x with
  | some v => .ok (mk v)
  | none => .error .badOperand

/-- A command of two operand fields, or its rejection. -/
def operand2 {α β : Type} (x : Option α) (y : Option β) (mk : α → β → Instr) : Except Reject Instr :=
  match x, y with
  | some v, some u => .ok (mk v u)
  | _, _ => .error .badOperand

/-- A command of three operand fields, or its rejection. -/
def operand3 {α β γ : Type} (x : Option α) (y : Option β) (z : Option γ) (mk : α → β → γ → Instr) :
    Except Reject Instr :=
  match x, y, z with
  | some v, some u, some t => .ok (mk v u t)
  | _, _, _ => .error .badOperand

/-- The format's unused fields are zero, or the word is rejected. -/
def unusedZero (zero : Bool) (r : Except Reject Instr) : Except Reject Instr :=
  if zero then r else .error .unusedFieldNonzero

/-- Format `Z`. -/
def asZ (f : Fields) (i : Instr) : Except Reject Instr :=
  unusedZero (f.a == 0 && f.b == 0 && f.c == 0 && f.dw == 0) (.ok i)

/-- Format `A1`. -/
def asA1 {α : Type} (f : Fields) (x : Byte → Option α) (mk : α → Instr) : Except Reject Instr :=
  unusedZero (f.b == 0 && f.c == 0 && f.dw == 0) (operand1 (x f.a) mk)

/-- Format `A2`. -/
def asA2 {α β : Type} (f : Fields) (x : Byte → Option α) (y : Byte → Option β) (mk : α → β → Instr) :
    Except Reject Instr :=
  unusedZero (f.c == 0 && f.dw == 0) (operand2 (x f.a) (y f.b) mk)

/-- Format `A3`. -/
def asA3 {α β γ : Type} (f : Fields) (x : Byte → Option α) (y : Byte → Option β) (z : Byte → Option γ)
    (mk : α → β → γ → Instr) : Except Reject Instr :=
  unusedZero (f.dw == 0) (operand3 (x f.a) (y f.b) (z f.c) mk)

/-- Format `AI`. -/
def asAI {α : Type} (f : Fields) (x : Byte → Option α) (mk : α → Word16 → Instr) : Except Reject Instr :=
  unusedZero (f.dw == 0) (operand1 (x f.a) fun v => mk v f.imm16)

/-- Format `I`. -/
def asI (f : Fields) (mk : Word16 → Instr) : Except Reject Instr :=
  unusedZero (f.a == 0 && f.dw == 0) (.ok (mk f.imm16))

/-- Format `AD`. -/
def asAD {α : Type} (f : Fields) (x : Byte → Option α) (mk : α → Word32 → Instr) : Except Reject Instr :=
  unusedZero (f.b == 0 && f.c == 0) (operand1 (x f.a) fun v => mk v f.dw)

/-- Format `AID`. -/
def asAID {α : Type} (f : Fields) (x : Byte → Option α) (mk : α → Word16 → Word32 → Instr) :
    Except Reject Instr :=
  operand1 (x f.a) fun v => mk v f.imm16 f.dw

/-! ### The decoder -/

/-- R54: `OPC` alone selects the command. -/
def decodeFields (f : Fields) : Except Reject Instr :=
  match f.opc with
  | 0x00 => asZ f .nop
  | 0x01 => asA1 f readCsr .rdcsr
  | 0x10 => asAI f readHalfReg .ni16Set
  | 0x11 => asA1 f readHalfReg .ni16Get
  | 0x12 => asA2 f readHalfReg readCur .ni16Ld
  | 0x13 => asA2 f readHalfReg readHalfReg .ni16Eq
  | 0x14 => asA2 f readHalfReg readHalfReg .ni16Ne
  | 0x15 => asAI f readHalfReg .ni16Eqi
  | 0x16 => asAI f readHalfReg .ni16Nei
  | 0x20 => asAD f readReg .ni32Set
  | 0x21 => asA1 f readReg .ni32Get
  | 0x22 => asA2 f readReg readCur .ni32Ld
  | 0x23 => asA2 f readReg readReg .ni32Eq
  | 0x24 => asA2 f readReg readReg .ni32Ne
  | 0x25 => asAD f readReg .ni32Eqi
  | 0x26 => asAD f readReg .ni32Nei
  | 0x27 => asA1 f readReg .ni32Inc
  | 0x28 => asA2 f readReg readReg .ni32Add
  | 0x29 => asA2 f readReg readReg .ni32Lt
  | 0x30 => asA2 f readCur readNumber .curOpen
  | 0x31 => asA1 f readCur .curRem
  | 0x32 => asA1 f readCur .curPeek
  | 0x33 => asA1 f readCur .curInc
  | 0x34 => asAI f readCur .curAdv
  | 0x40 => asAID f readNumber .bufAppend
  | 0x41 => asA1 f readNumber .bufClear
  | 0x42 => asA1 f readNumber .bufLen
  | 0x43 => asAI f readNumber .bufRdb
  | 0x50 => asZ f .csClear
  | 0x51 => asA1 f readHalfReg .csAcc
  | 0x52 => asI f .csAcci
  | 0x53 => asZ f .csSum
  | 0x54 => asAID f readNumber .csRange
  | 0x55 => asAID f readCur .csRangec
  | 0x60 => asA2 f readNumber readNode .chPrepend
  | 0x61 => asA2 f readNumber readNode .chAppend
  | 0x62 => asA3 f readNumber readNode readFlag .chPush
  | 0x63 => asA2 f readNumber readFlag .chFirst
  | 0x64 => asA1 f readNumber .chPop
  | 0x65 => asA2 f readNumber readNode .chRemove
  | 0x66 => asA2 f readNumber readNode .chHas
  | 0x67 => asA1 f readNode .chNext
  | 0x68 => asA1 f readNumber .chLast
  | _ => .error .unknownOpcode

/-- The decoder: total on every command word, rejecting by name. Whether a buffer, chain or node number exists is the
configuration's question (`legal`). -/
def decode (w : Command) : Except Reject Instr := decodeFields (fieldsOf w)

/-- R55: the word is a legal command of a block with this configuration. -/
def legal (cfg : Config) (w : Command) : Bool :=
  match decode w with
  | .ok i => i.wellFormed cfg
  | .error _ => false

/-- The host's view of the decoder: the command in the `nbits` low bits of `w`, every bit above them 0. A command is
one 64-bit word (R58), numbered as spec/opcode_table.json numbers it. -/
def decodeTableWord (nbits w : Nat) : Option Instr :=
  match decode (BitVec.ofNat 64 (w % 2 ^ nbits)) with
  | .ok i => some i
  | .error _ => none

/-! ### Operand fields, written (R52) -/

/-- Kind `r32`. -/
def putReg (r : Reg) : Byte := BitVec.ofNat 8 r.val

/-- Kind `r16`: bit [3] is the half select. -/
def putHalfReg (r : HalfReg) : Byte :=
  match r.half with
  | .hi => BitVec.ofNat 8 r.reg.val
  | .lo => BitVec.ofNat 8 (8 + r.reg.val)

/-- Kind `cur`. -/
def putCur (c : Cur) : Byte := BitVec.ofNat 8 c.val

/-- Kinds `buf` and `chain`. -/
def putNumber (n : Nat) : Byte := BitVec.ofNat 8 n

/-- Kind `node`. -/
def putNode : NodeRef → Byte
  | none => 0xFF
  | some k => BitVec.ofNat 8 k

/-- Kind `csr`. -/
def putCsr : Csr → Byte
  | .capw => 0
  | .config => 1
  | .fault => 2
  | .sum => 3

/-- Kind `flag`. -/
def putFlag : Bool → Byte
  | false => 0
  | true => 1

/-! ### Formats, written (R51) -/

/-- Format `Z`. -/
def wordZ (opc : Byte) : Command := wordOf { opc := opc, a := 0, b := 0, c := 0, dw := 0 }

/-- Format `A1`. -/
def wordA1 (opc a : Byte) : Command := wordOf { opc := opc, a := a, b := 0, c := 0, dw := 0 }

/-- Format `A2`. -/
def wordA2 (opc a b : Byte) : Command := wordOf { opc := opc, a := a, b := b, c := 0, dw := 0 }

/-- Format `A3`. -/
def wordA3 (opc a b c : Byte) : Command := wordOf { opc := opc, a := a, b := b, c := c, dw := 0 }

/-- Format `AI`. -/
def wordAI (opc a : Byte) (imm : Word16) : Command :=
  wordOf { opc := opc, a := a, b := imm.extractLsb' 8 8, c := imm.extractLsb' 0 8, dw := 0 }

/-- Format `I`. -/
def wordI (opc : Byte) (imm : Word16) : Command :=
  wordOf { opc := opc, a := 0, b := imm.extractLsb' 8 8, c := imm.extractLsb' 0 8, dw := 0 }

/-- Format `AD`. -/
def wordAD (opc a : Byte) (dw : Word32) : Command := wordOf { opc := opc, a := a, b := 0, c := 0, dw := dw }

/-- Format `AID`. -/
def wordAID (opc a : Byte) (imm : Word16) (dw : Word32) : Command :=
  wordOf { opc := opc, a := a, b := imm.extractLsb' 8 8, c := imm.extractLsb' 0 8, dw := dw }

/-- The encoder: the word of a well-formed command (R54). -/
def encode : Instr → Command
  | .nop => wordZ 0x00
  | .rdcsr csr => wordA1 0x01 (putCsr csr)
  | .ni16Set r v => wordAI 0x10 (putHalfReg r) v
  | .ni16Get r => wordA1 0x11 (putHalfReg r)
  | .ni16Ld r c => wordA2 0x12 (putHalfReg r) (putCur c)
  | .ni16Eq r q => wordA2 0x13 (putHalfReg r) (putHalfReg q)
  | .ni16Ne r q => wordA2 0x14 (putHalfReg r) (putHalfReg q)
  | .ni16Eqi r v => wordAI 0x15 (putHalfReg r) v
  | .ni16Nei r v => wordAI 0x16 (putHalfReg r) v
  | .ni32Set r v => wordAD 0x20 (putReg r) v
  | .ni32Get r => wordA1 0x21 (putReg r)
  | .ni32Ld r c => wordA2 0x22 (putReg r) (putCur c)
  | .ni32Eq r q => wordA2 0x23 (putReg r) (putReg q)
  | .ni32Ne r q => wordA2 0x24 (putReg r) (putReg q)
  | .ni32Eqi r v => wordAD 0x25 (putReg r) v
  | .ni32Nei r v => wordAD 0x26 (putReg r) v
  | .ni32Inc r => wordA1 0x27 (putReg r)
  | .ni32Add r q => wordA2 0x28 (putReg r) (putReg q)
  | .ni32Lt r q => wordA2 0x29 (putReg r) (putReg q)
  | .curOpen c b => wordA2 0x30 (putCur c) (putNumber b)
  | .curRem c => wordA1 0x31 (putCur c)
  | .curPeek c => wordA1 0x32 (putCur c)
  | .curInc c => wordA1 0x33 (putCur c)
  | .curAdv c n => wordAI 0x34 (putCur c) n
  | .bufAppend b length src => wordAID 0x40 (putNumber b) length src
  | .bufClear b => wordA1 0x41 (putNumber b)
  | .bufLen b => wordA1 0x42 (putNumber b)
  | .bufRdb b idx => wordAI 0x43 (putNumber b) idx
  | .csClear => wordZ 0x50
  | .csAcc r => wordA1 0x51 (putHalfReg r)
  | .csAcci w => wordI 0x52 w
  | .csSum => wordZ 0x53
  | .csRange b off n => wordAID 0x54 (putNumber b) off n
  | .csRangec c off n => wordAID 0x55 (putCur c) off n
  | .chPrepend q k => wordA2 0x60 (putNumber q) (putNode k)
  | .chAppend q k => wordA2 0x61 (putNumber q) (putNode k)
  | .chPush q k useFifo => wordA3 0x62 (putNumber q) (putNode k) (putFlag useFifo)
  | .chFirst q remove => wordA2 0x63 (putNumber q) (putFlag remove)
  | .chPop q => wordA1 0x64 (putNumber q)
  | .chRemove q k => wordA2 0x65 (putNumber q) (putNode k)
  | .chHas q k => wordA2 0x66 (putNumber q) (putNode k)
  | .chNext k => wordA1 0x67 (putNode k)
  | .chLast q => wordA1 0x68 (putNumber q)

end Sys2Proof
end

