-- ==== Sys2Proof/Machine/State.lean ====
section
/-! DEFINITION. The state of the block as plain data (10_state.md), with the two things of the host that a step reads
(R6: the source memory SRC and the host's next actions) and the response port (R57), and the state after reset (R20).
A length, a byte index or a node number is a `Nat` bounded by the invariant of Safety.lean, because R89 computes with
them as mathematical integers (assumption 10); what software reads as a word is a bit vector. -/

namespace Sys2Proof.Machine

/-- One NI register (R10): four raw bytes in big-endian order, `b0` most significant. -/
structure NetInt where
  b0 : Byte
  b1 : Byte
  b2 : Byte
  b3 : Byte
deriving DecidableEq, Repr

/-- One buffer object (R11, R12, R15), which is also a chain node. `data` is the valid prefix
`store[b][0 .. len[b]-1]`, and `len[b]` is its length: R12 lets a model keep the valid prefix alone, since no command
returns or uses a byte at an index `>= len[b]` (assumption 5). `next` is the embedded link `next[k]`. -/
structure Buffer where
  data : List Byte
  next : NodeRef
deriving DecidableEq, Repr

/-- One cursor (R13): the buffer number and the byte indices `start`, `pos` and `end` (here `stop`, `end` being a word
of Lean). -/
structure Cursor where
  buf : Nat
  start : Nat
  pos : Nat
  stop : Nat
deriving DecidableEq, Repr

/-- One chain descriptor (R16). -/
structure Chain where
  first : NodeRef
  last : NodeRef
deriving DecidableEq, Repr

/-- The answer to a command (R57): an 8-bit status and a 32-bit result. -/
structure Response where
  st : Byte
  res : Word32
deriving DecidableEq, Repr

/-- The statuses of R160. Their codes are `Status.code`. -/
inductive Status where
  | ok
  | noopNull
  | noopZero
  | noopOverflow
  | noopRange
  | noopOdd
  | noopPresent
  | noopAbsent
  | empty
  | illegal
  | fault
  | faulted
deriving DecidableEq, Repr

/-- The causes of the block's own sticky fault (R164). Their codes are `Cause.code`. A cause is a value of the `FAULT`
register of a NEXT state, never an outcome of the step. -/
inductive Cause where
  | curOverrun
  | curEmptyDeref
  | curShortRead
  | curStale
  | chainConvention
deriving DecidableEq, Repr

/-- What the host may do next (R6): issue one command, change one byte of SRC, or assert reset. The last two happen
between commands only. -/
inductive HostAction where
  | command (w : Command)
  | setSrc (a : Word32) (v : Byte)
  | reset
deriving DecidableEq, Repr

/-- SRC (R30) as address and byte pairs in canonical form: addresses strictly rising, no pair whose byte is what an
unlisted address reads as (`Memory.wf`). -/
abbrev Memory := List Host.Cell

/-- A step of this machine never ends in a fault, so there is none: R7 makes the step total and R163 makes every
undefined case of the source a next state with the `FAULT` register set (93_implementation_defined.md: `stuck` is used
nowhere). -/
inductive Fault
deriving DecidableEq, Repr

/-- Why a step has no meaning. -/
inductive Refusal where
  /-- Raised by `exec` alone, for an instruction with no meaning yet; no instruction is left in that case. Safe. -/
  | notModelled (mnemonic : String)
deriving DecidableEq, Repr

/-- The state. The first seven fields are the block's (R10 to R18), the last four the model's view of its port. -/
structure State where
  /-- The hardwired parameters behind the CSRs `CAPW` and `CONFIG` (R18), fixed for the machine (assumption 13). -/
  cfg : Config
  /-- `n[0]` to `n[7]` (R10). -/
  regs : Vector NetInt 8
  /-- The buffer objects `0 .. NBUF-1` with their links (R11, R12, R15). -/
  bufs : List Buffer
  /-- `cur[0]` to `cur[3]` (R13). -/
  curs : Vector Cursor 4
  /-- The checksum accumulator `SUM` (R14). -/
  sum : Word32
  /-- The chain descriptors `0 .. NCHAIN-1` (R16). -/
  chains : List Chain
  /-- The `FAULT` register (R18): 0, or the cause of the first fault since reset. -/
  fault : Byte
  /-- THE MODEL'S OWN (assumption 1): how many resets there have been, which numbers the draw of the free bytes. -/
  epoch : Nat
  /-- SRC, the host's source memory (R30, assumption 13). -/
  src : Memory
  /-- THE MODEL'S OWN (assumption 3): the host's actions still to come, the next one first. -/
  actions : List HostAction
  /-- The response port (R57): the answer to the last command since reset, if there was one (assumption 4). -/
  resp : Option Response
deriving DecidableEq, Repr

/-- The NI register `i` after the reset numbered `epoch`: four free bytes (R20, assumption 1). -/
def niAfterReset (epoch i : Nat) : NetInt :=
  { b0 := Config.niResetByte epoch i 0, b1 := Config.niResetByte epoch i 1
    b2 := Config.niResetByte epoch i 2, b3 := Config.niResetByte epoch i 3 }

/-- The empty cursor over buffer 0 (R13, R20). -/
def emptyCursor : Cursor := { buf := 0, start := 0, pos := 0, stop := 0 }

/-- R20: the state after the reset numbered `epoch` of a block with this configuration, the host holding `src` and
going on with `actions`. -/
def State.resetOf (cfg : Config) (epoch : Nat) (src : Memory) (actions : List HostAction) : State :=
  { cfg := cfg
    regs := #v[niAfterReset epoch 0, niAfterReset epoch 1, niAfterReset epoch 2, niAfterReset epoch 3,
      niAfterReset epoch 4, niAfterReset epoch 5, niAfterReset epoch 6, niAfterReset epoch 7]
    bufs := List.replicate cfg.nbuf { data := [], next := none }
    curs := #v[emptyCursor, emptyCursor, emptyCursor, emptyCursor]
    sum := 0
    chains := List.replicate cfg.nchain { first := none, last := none }
    fault := 0
    epoch := epoch
    src := src
    actions := actions
    resp := none }

/-- The machine right after its first reset: a configuration of which nothing but its legality is known (R5,
assumption 2), no byte of SRC listed, no action of the host pending. -/
def State.reset : State := State.resetOf Config.implementation 0 [] []

end Sys2Proof.Machine
end

