-- ==== Sys2Proof/Machine/Flags.lean ====
section
/-! DEFINITION. The block has no flags or condition codes (R19): what a command reports is its status and result. The
codes of the statuses (R160) and fault causes (R164), and the results that report a truth value or a node (R57). -/

namespace Sys2Proof.Machine

/-- R160. -/
def Status.code : Status → Byte
  | .ok => 0x00
  | .noopNull => 0x01
  | .noopZero => 0x02
  | .noopOverflow => 0x03
  | .noopRange => 0x04
  | .noopOdd => 0x05
  | .noopPresent => 0x06
  | .noopAbsent => 0x07
  | .empty => 0x08
  | .illegal => 0x80
  | .fault => 0xF0
  | .faulted => 0xF1

/-- R164. -/
def Cause.code : Cause → Byte
  | .curOverrun => 0x01
  | .curEmptyDeref => 0x02
  | .curShortRead => 0x03
  | .curStale => 0x04
  | .chainConvention => 0x05

/-- R57: a comparison returns 1 for true and 0 for false. -/
def truth (t : Bool) : Word32 := if t then 1 else 0

/-- R57: a node reference is returned as its 8-bit encoding zero-extended. -/
def nodeResult : NodeRef → Word32
  | none => 0x000000FF
  | some k => BitVec.ofNat 32 k

end Sys2Proof.Machine
end

