-- ==== Sys2Proof/Machine/Ops.lean ====
section
/-! DEFINITION. The named operations over the state: SRC, the registers and objects of the block, the response, taking
a fault (R163) and leaving it by reset (R180), and the order in which every command is processed (R161). -/

namespace Sys2Proof.Machine

/-! ### SRC (R30) -/

/-- What an unlisted address of SRC reads as. DESIGN CHOICE (assumption 6): R30 leaves SRC's content to the host. -/
def Memory.blank : Byte := 0

/-- The byte at an address: every address is readable (R30). -/
def Memory.read : Memory → Nat → Byte
  | [], _ => Memory.blank
  | (k, v) :: m, a => if k = a then v else Memory.read m a

/-- A write by the host, keeping the canonical form: writing `Memory.blank` removes the pair. -/
def Memory.write : Memory → Nat → Byte → Memory
  | [], a, v => if v = Memory.blank then [] else [(a, v)]
  | (k, x) :: m, a, v =>
    if a < k then (if v = Memory.blank then (k, x) :: m else (a, v) :: (k, x) :: m)
    else if a = k then (if v = Memory.blank then m else (a, v) :: m)
    else (k, x) :: Memory.write m a v

/-- The canonical form: addresses strictly rising and inside the `2^32` bytes of SRC, no pair that reads as an
unlisted address does. -/
abbrev Memory.wf (m : Memory) : Prop :=
  m.Pairwise (fun c d => c.1 < d.1) ∧ ∀ c ∈ m, c.2 ≠ Memory.blank ∧ c.1 < 2 ^ 32

/-- `MemRead(SRC, a, k)` (R30): `k` bytes from `a` upward, addresses modulo `2^32`. -/
def State.readSrc (s : State) (a : Word32) (k : Nat) : List Byte :=
  (List.range k).map fun i => s.src.read ((a.toNat + i) % 2 ^ 32)

/-! ### The block's objects -/

/-- Buffer object `b`. A number outside the block reads as the object of reset; a legal command never names one
(assumption 8). -/
def State.buffer (s : State) (b : Nat) : Buffer := s.bufs.getD b { data := [], next := none }

/-- `len[b]` (R11). -/
def State.len (s : State) (b : Nat) : Nat := (s.buffer b).data.length

/-- `next[k]` (R15). -/
def State.next (s : State) (k : Nat) : NodeRef := (s.buffer k).next

/-- Chain descriptor `q` (R16). -/
def State.chain (s : State) (q : Nat) : Chain := s.chains.getD q { first := none, last := none }

/-- `n[i] <- v`. -/
def State.setReg (s : State) (i : Reg) (v : NetInt) : State := { s with regs := s.regs.set i.val v i.isLt }

/-- Replace cursor `c`. -/
def State.setCur (s : State) (c : Cur) (v : Cursor) : State := { s with curs := s.curs.set c.val v c.isLt }

/-- Replace buffer object `b`. -/
def State.setBuf (s : State) (b : Nat) (v : Buffer) : State := { s with bufs := s.bufs.set b v }

/-- The valid prefix of `b` becomes `d`, and so `len[b]` its length; the link stays. -/
def State.setData (s : State) (b : Nat) (d : List Byte) : State := s.setBuf b { s.buffer b with data := d }

/-- `next[k] <- r`; the bytes stay. -/
def State.setNext (s : State) (k : Nat) (r : NodeRef) : State := s.setBuf k { s.buffer k with next := r }

/-- Replace chain descriptor `q`. -/
def State.setChain (s : State) (q : Nat) (v : Chain) : State := { s with chains := s.chains.set q v }

/-- `first[q] <- r`. -/
def State.setFirst (s : State) (q : Nat) (r : NodeRef) : State := s.setChain q { s.chain q with first := r }

/-- `last[q] <- r`. -/
def State.setLast (s : State) (q : Nat) (r : NodeRef) : State := s.setChain q { s.chain q with last := r }

/-- `SUM <- v`. -/
def State.setSum (s : State) (v : Word32) : State := { s with sum := v }

/-- `FAULT <- v`. -/
def State.setFault (s : State) (v : Byte) : State := { s with fault := v }

/-- The host's actions still to come. -/
def State.setActions (s : State) (l : List HostAction) : State := { s with actions := l }

/-! ### Ending a command -/

/-- `respond(ST, RES)` (R57). -/
def State.respond (s : State) (st : Status) (res : Word32) : State :=
  { s with resp := some { st := st.code, res := res } }

/-- Taking a fault, `raise Fault(cause)` (R163): `FAULT <- cause`, no other state changes, `respond(FAULT, cause)`. It
saves nothing else, changes no mode and transfers control nowhere (R166). -/
def State.raise (s : State) (c : Cause) : State :=
  (s.setFault c.code).respond .fault (c.code.setWidth 32)

/-- How a command other than `RDCSR` is processed (R161): in the fault state it is refused with `FAULTED`; an operand
that names no object of the block makes it `ILLEGAL` (R172); otherwise its own rule runs. Each is a next state (R7). -/
def obey (i : Instr) (rule : State → State) (s : State) : Host.Outcome State Fault Refusal :=
  .next <|
    if s.fault ≠ 0 then s.respond .faulted 0
    else if i.wellFormed s.cfg then rule s
    else s.respond .illegal 0

/-- A command word that decodes to no command (R161 steps 1 and 2, R172). -/
def State.refuseWord (s : State) : State :=
  if s.fault ≠ 0 then s.respond .faulted 0 else s.respond .illegal 0

/-! ### The host between two commands (R6) -/

/-- Leaving the fault state, and every other state, by `RST` (R180): the block goes to the values of R20 with fresh
NI bytes; the configuration, SRC and the host's further actions are not the block's to change. -/
def State.assertReset (s : State) : State := State.resetOf s.cfg (s.epoch + 1) s.src s.actions

/-- The host changes one byte of SRC (R6, R30). -/
def State.hostWrites (s : State) (a : Word32) (v : Byte) : State := { s with src := s.src.write a.toNat v }

end Sys2Proof.Machine
end

