-- ==== Sys2Proof/Machine/Operands.lean ====
section
/-! DEFINITION. The operand forms: conversion between bytes and native integers (R33, R34), NI registers and halves
(R10, R70), reading through a cursor (R95, R96), and the CSRs (R18). -/

namespace Sys2Proof.Machine

/-! ### Byte order (R33, R34, R35) -/

/-- `pack16` (R33). -/
def pack16 (v : Word16) : Byte × Byte := (v.extractLsb' 8 8, v.extractLsb' 0 8)

/-- `unpack16` (R33): `{x0, x1}`. -/
def unpack16 (x : Byte × Byte) : Word16 := x.1 ++ x.2

/-- `pack32` (R34). -/
def pack32 (v : Word32) : NetInt :=
  { b0 := v.extractLsb' 24 8, b1 := v.extractLsb' 16 8, b2 := v.extractLsb' 8 8, b3 := v.extractLsb' 0 8 }

/-- `unpack32` (R34): `{x0, x1, x2, x3}`. -/
def unpack32 (n : NetInt) : Word32 := n.b0 ++ n.b1 ++ n.b2 ++ n.b3

/-! ### NI registers and their halves (R10, R70) -/

/-- `n[i]`. -/
def State.reg (s : State) (i : Reg) : NetInt := s.regs[i.val]

/-- The two bytes of a half of a register: bytes 0 and 1 for `hi`, 2 and 3 for `lo`. -/
def NetInt.half (n : NetInt) : Half → Byte × Byte
  | .hi => (n.b0, n.b1)
  | .lo => (n.b2, n.b3)

/-- The register with one half replaced; the other half is unchanged (R10). -/
def NetInt.withHalf (n : NetInt) (x : Byte × Byte) : Half → NetInt
  | .hi => { n with b0 := x.1, b1 := x.2 }
  | .lo => { n with b2 := x.1, b3 := x.2 }

/-- `H(i, hs)` of R70. -/
def State.half (s : State) (r : HalfReg) : Byte × Byte := (s.reg r.reg).half r.half

/-- Write the two bytes of a half. -/
def State.setHalf (s : State) (r : HalfReg) (x : Byte × Byte) : State :=
  s.setReg r.reg ((s.reg r.reg).withHalf x r.half)

/-! ### Cursors (R95, R96) -/

/-- `cur[c]`. -/
def State.cur (s : State) (c : Cur) : Cursor := s.curs[c.val]

/-- `remaining(c)` (R95). -/
def State.remaining (s : State) (c : Cur) : Nat := (s.cur c).stop - (s.cur c).pos

/-- `MemRead(BUF(b), i, k)` (R31), for bytes inside the valid prefix. -/
def State.readBuf (s : State) (b i k : Nat) : List Byte := ((s.buffer b).data.drop i).take k

/-- `CurRead(c, off, k, cause)` (R96): the bytes, or the cause of the fault; the overrun is tested first. -/
def State.curRead (s : State) (c : Cur) (off k : Nat) (cause : Cause) : Except Cause (List Byte) :=
  let p := (s.cur c).pos + off
  if p + k > (s.cur c).stop then .error cause
  else if p + k > s.len (s.cur c).buf then .error .curStale
  else .ok (s.readBuf (s.cur c).buf p k)

/-! ### CSRs (R18, R151) -/

/-- The value `RDCSR` returns; the bits not listed in R18 read as 0. -/
def State.csr (s : State) : Csr → Word32
  | .capw => BitVec.ofNat 32 s.cfg.capWords
  | .config => BitVec.ofNat 32 (8 * 2 ^ 24 + 4 * 2 ^ 16 + s.cfg.nchain * 2 ^ 8 + s.cfg.nbuf)
  | .fault => s.fault.setWidth 32
  | .sum => s.sum

end Sys2Proof.Machine
end

