-- ==== Sys2Proof/Machine/Buffer.lean ====
section
/-! DEFINITION. The buffer commands (42_buffer.md). -/

namespace Sys2Proof.Machine

/-- The rule of `BUF.APPEND` (R105): the three tests in the source's order, then the copy from SRC. -/
def appendBytes (b : Nat) (length : Word16) (src : Word32) (s : State) : State :=
  if src = 0 then s.respond .noopNull 0
  else if length = 0 then s.respond .noopZero 0
  else if s.len b + length.toNat > s.cfg.capacity then s.respond .noopOverflow 0
  else (s.setData b ((s.buffer b).data ++ s.readSrc src length.toNat)).respond .ok 0

/-- `BUF.APPEND buf, imm16, imm32` (R105). -/
def execBufAppend (b : Nat) (length : Word16) (src : Word32) (s : State) : Host.Outcome State Fault Refusal :=
  obey (.bufAppend b length src) (appendBytes b length src) s

/-- `BUF.CLEAR buf` (R106). -/
def execBufClear (b : Nat) (s : State) : Host.Outcome State Fault Refusal :=
  obey (.bufClear b) (fun s => (s.setData b []).respond .ok 0) s

/-- `BUF.LEN buf` (R107). -/
def execBufLen (b : Nat) (s : State) : Host.Outcome State Fault Refusal :=
  obey (.bufLen b) (fun s => s.respond .ok (BitVec.ofNat 32 (s.len b))) s

/-- The rule of `BUF.RDB` (R108): one byte of the valid prefix. -/
def readByteAt (b : Nat) (idx : Word16) (s : State) : State :=
  if idx.toNat ≥ s.len b then s.respond .noopRange 0
  else s.respond .ok (((s.readBuf b idx.toNat 1).getD 0 0).setWidth 32)

/-- `BUF.RDB buf, imm16` (R108). -/
def execBufRdb (b : Nat) (idx : Word16) (s : State) : Host.Outcome State Fault Refusal :=
  obey (.bufRdb b idx) (readByteAt b idx) s

end Sys2Proof.Machine
end

