-- ==== Sys2Proof/Machine/Chain.lean ====
section
/-! DEFINITION. The chain commands (44_chain.md). -/

namespace Sys2Proof.Machine

/-- The loop of R130 from node reference `p`, whose predecessor is `prev`, at most `fuel` iterations (R190 bounds a
chain walk by `NBUF`; assumption 7). -/
def State.walkFrom (s : State) (k : Nat) : Nat → NodeRef → NodeRef → Bool × NodeRef
  | 0, _, _ => (false, none)
  | _ + 1, _, none => (false, none)
  | fuel + 1, prev, some p => if p = k then (true, prev) else s.walkFrom k fuel (some p) (s.next p)

/-- `walk(q, k)` (R130): whether node `k` is in chain `q`, and the node before it. -/
def State.walk (s : State) (q k : Nat) : Bool × NodeRef := s.walkFrom k s.cfg.nbuf none (s.chain q).first

/-- `reach(q, k)` (R130). -/
def State.reach (s : State) (q k : Nat) : Bool := (s.walk q k).1

/-- The third test of R131: node `k` is a member of another chain. -/
def State.inOtherChain (s : State) (q k : Nat) : Bool :=
  (List.range s.cfg.nchain).any fun q2 => q2 != q && s.reach q2 k

/-- Admission of an insertion (R131), then the link updates. -/
def insertNode (update : Nat → Nat → State → State) (q : Nat) (node : NodeRef) (s : State) : State :=
  match node with
  | none => s.respond .noopNull 0
  | some k =>
    if s.reach q k then s.respond .noopPresent 0
    else if s.inOtherChain q k then s.raise .chainConvention
    else (update q k s).respond .ok 0

/-- The link updates of R132. Emptiness is tested on `first` before any write. -/
def linkHead (q k : Nat) (s : State) : State :=
  let s1 := (s.setNext k (s.chain q).first).setFirst q (some k)
  if (s.chain q).first = none then s1.setLast q (some k) else s1

/-- The link updates of R133. With `first[q]` not `NULL`, `last[q]` is not `NULL` either (I1 of R17,
assumption 9). -/
def linkTail (q k : Nat) (s : State) : State :=
  let s1 := s.setNext k none
  let s2 :=
    match (s.chain q).first, (s.chain q).last with
    | none, _ => s1.setFirst q (some k)
    | some _, some l => s1.setNext l (some k)
    | some _, none => s1
  s2.setLast q (some k)

/-- `CH.PREPEND chain, node` (R132). -/
def execChPrepend (q : Nat) (k : NodeRef) (s : State) : Host.Outcome State Fault Refusal :=
  obey (.chPrepend q k) (insertNode linkHead q k) s

/-- `CH.APPEND chain, node` (R133). -/
def execChAppend (q : Nat) (k : NodeRef) (s : State) : Host.Outcome State Fault Refusal :=
  obey (.chAppend q k) (insertNode linkTail q k) s

/-- `CH.PUSH chain, node, flag` (R134): the tail for `useFIFO` = 1, the head for 0. -/
def execChPush (q : Nat) (k : NodeRef) (useFifo : Bool) (s : State) : Host.Outcome State Fault Refusal :=
  obey (.chPush q k useFifo) (insertNode (if useFifo then linkTail else linkHead) q k) s

/-- `detach(q, prev, k)` (R135), everything read before any write (R8). -/
def detach (q : Nat) (prev : NodeRef) (k : Nat) (s : State) : State :=
  let succ := s.next k
  let s1 :=
    match prev with
    | none => s.setFirst q succ
    | some p => s.setNext p succ
  let s2 := if (s.chain q).last = some k then s1.setLast q prev else s1
  s2.setNext k none

/-- The rule of `CH.FIRST` (R136). -/
def takeFirst (q : Nat) (remove : Bool) (s : State) : State :=
  match (s.chain q).first with
  | none => s.respond .empty 0x000000FF
  | some k => (if remove then detach q none k s else s).respond .ok (nodeResult (some k))

/-- `CH.FIRST chain, flag` (R136). -/
def execChFirst (q : Nat) (remove : Bool) (s : State) : Host.Outcome State Fault Refusal :=
  obey (.chFirst q remove) (takeFirst q remove) s

/-- `CH.POP chain` (R137): exactly `CH.FIRST q, 1`. -/
def execChPop (q : Nat) (s : State) : Host.Outcome State Fault Refusal :=
  obey (.chPop q) (takeFirst q true) s

/-- The rule of `CH.REMOVE` (R138). -/
def removeNode (q : Nat) (node : NodeRef) (s : State) : State :=
  match node with
  | none => s.respond .noopNull 0
  | some k =>
    if (s.walk q k).1 then (detach q (s.walk q k).2 k s).respond .ok 0
    else s.respond .noopAbsent 0

/-- `CH.REMOVE chain, node` (R138). -/
def execChRemove (q : Nat) (k : NodeRef) (s : State) : Host.Outcome State Fault Refusal :=
  obey (.chRemove q k) (removeNode q k) s

/-- The rule of `CH.HAS` (R139). -/
def hasNode (q : Nat) (node : NodeRef) (s : State) : State :=
  match node with
  | none => s.respond .noopNull 0
  | some k => s.respond .ok (truth (s.reach q k))

/-- `CH.HAS chain, node` (R139). -/
def execChHas (q : Nat) (k : NodeRef) (s : State) : Host.Outcome State Fault Refusal :=
  obey (.chHas q k) (hasNode q k) s

/-- The rule of `CH.NEXT` (R140). -/
def nextNode (node : NodeRef) (s : State) : State :=
  match node with
  | none => s.respond .noopNull 0x000000FF
  | some k => s.respond .ok (nodeResult (s.next k))

/-- `CH.NEXT node` (R140). -/
def execChNext (k : NodeRef) (s : State) : Host.Outcome State Fault Refusal :=
  obey (.chNext k) (nextNode k) s

/-- The rule of `CH.LAST` (R141). -/
def lastNode (q : Nat) (s : State) : State :=
  match (s.chain q).last with
  | none => s.respond .empty 0x000000FF
  | some k => s.respond .ok (nodeResult (some k))

/-- `CH.LAST chain` (R141). -/
def execChLast (q : Nat) (s : State) : Host.Outcome State Fault Refusal :=
  obey (.chLast q) (lastNode q) s

end Sys2Proof.Machine
end

