-- ==== Sys2Proof/Machine/Checksum.lean ====
section
/-! DEFINITION. The checksum commands (43_checksum.md). -/

namespace Sys2Proof.Machine

/-- Accumulate one 16-bit word: `(SUM + w) mod 2^32`, no fold (R116). -/
def accumulate (sum : Word32) (w : Word16) : Word32 := sum + w.setWidth 32

/-- `CS.CLEAR` (R115). -/
def execCsClear (s : State) : Host.Outcome State Fault Refusal :=
  obey .csClear (fun s => (s.setSum 0).respond .ok 0) s

/-- `CS.ACC r16` (R117). -/
def execCsAcc (r : HalfReg) (s : State) : Host.Outcome State Fault Refusal :=
  obey (.csAcc r) (fun s => (s.setSum (accumulate s.sum (unpack16 (s.half r)))).respond .ok 0) s

/-- `CS.ACCI imm16` (R116). -/
def execCsAcci (w : Word16) (s : State) : Host.Outcome State Fault Refusal :=
  obey (.csAcci w) (fun s => (s.setSum (accumulate s.sum w)).respond .ok 0) s

/-- One pass of the fold loop: `s[15:0] + s[31:16]` (R118). -/
def foldPass (s : Word32) : Word32 := (s.extractLsb' 0 16).setWidth 32 + (s.extractLsb' 16 16).setWidth 32

/-- The loop of R118, at most `passes` times. -/
def foldLoop : Nat → Word32 → Word32
  | 0, s => s
  | passes + 1, s => if s.extractLsb' 16 16 = 0 then s else foldLoop passes (foldPass s)

/-- `fold` (R118): the loop runs at most twice. -/
def fold (s : Word32) : Word32 := foldLoop 2 s

/-- `CS.SUM` (R119): the folded value is written back and its 16-bit complement returned. -/
def execCsSum (s : State) : Host.Outcome State Fault Refusal :=
  obey .csSum
    (fun s => (s.setSum (fold s.sum)).respond .ok ((~~~((fold s.sum).extractLsb' 0 16)).setWidth 32)) s

/-- The precondition tests of `RangeSum` in the source's order (R120): the status of the first that fails. -/
def rangeTest (L off n : Nat) : Option Status :=
  if off + n > L then some .noopRange
  else if off % 2 = 1 then some .noopOdd
  else if n % 2 = 1 then some .noopOdd
  else none

/-- `stop` of R120: `n = 0` means "to the end". -/
def rangeStop (L off n : Nat) : Nat := if n = 0 then L else off + n

/-- The summing loop of R120 over the bytes of the range: big-endian words, a last single byte padded with a zero low
byte. -/
def sumBytes (sum : Word32) : List Byte → Word32
  | [] => sum
  | [x] => accumulate sum (unpack16 (x, 0))
  | x :: y :: rest => sumBytes (accumulate sum (unpack16 (x, y))) rest

/-- The rule of `CS.RANGE` (R120). -/
def sumRange (b : Nat) (off n : Nat) (s : State) : State :=
  match rangeTest (s.len b) off n with
  | some st => s.respond st 0
  | none => (s.setSum (sumBytes s.sum (s.readBuf b off (rangeStop (s.len b) off n - off)))).respond .ok 0

/-- `CS.RANGE buf, imm16, imm32` (R120). -/
def execCsRange (b : Nat) (off : Word16) (n : Word32) (s : State) : Host.Outcome State Fault Refusal :=
  obey (.csRange b off n) (sumRange b off.toNat n.toNat) s

/-- The rule of `CS.RANGEC` (R121): the bound is what the cursor has left, offsets count from its position, and only a
range of at least one byte is tested for staleness. -/
def sumCursorRange (c : Cur) (off n : Nat) (s : State) : State :=
  match rangeTest (s.remaining c) off n with
  | some st => s.respond st 0
  | none =>
    let stop := rangeStop (s.remaining c) off n
    if stop > off ∧ (s.cur c).pos + stop > s.len (s.cur c).buf then s.raise .curStale
    else (s.setSum (sumBytes s.sum (s.readBuf (s.cur c).buf ((s.cur c).pos + off) (stop - off)))).respond .ok 0

/-- `CS.RANGEC cur, imm16, imm32` (R121). -/
def execCsRangec (c : Cur) (off : Word16) (n : Word32) (s : State) : Host.Outcome State Fault Refusal :=
  obey (.csRangec c off n) (sumCursorRange c off.toNat n.toNat) s

end Sys2Proof.Machine
end

