-- ==== Sys2Proof/Machine/Cursor.lean ====
section
/-! DEFINITION. The cursor commands (41_cursor.md). -/

namespace Sys2Proof.Machine

/-- `CUR.OPEN cur, buf` (R97): the span is fixed at this moment. -/
def execCurOpen (c : Cur) (b : Nat) (s : State) : Host.Outcome State Fault Refusal :=
  obey (.curOpen c b)
    (fun s => (s.setCur c { buf := b, start := 0, pos := 0, stop := s.len b }).respond .ok 0) s

/-- `CUR.REM cur` (R98). -/
def execCurRem (c : Cur) (s : State) : Host.Outcome State Fault Refusal :=
  obey (.curRem c) (fun s => s.respond .ok (BitVec.ofNat 32 (s.remaining c))) s

/-- The rule of `CUR.PEEK cur` (R99): the byte at the cursor, which is not moved. -/
def peek (c : Cur) (s : State) : State :=
  match s.curRead c 0 1 .curEmptyDeref with
  | .error e => s.raise e
  | .ok x => s.respond .ok ((x.getD 0 0).setWidth 32)

/-- `CUR.PEEK cur` (R99). -/
def execCurPeek (c : Cur) (s : State) : Host.Outcome State Fault Refusal :=
  obey (.curPeek c) (peek c) s

/-- The rule of `CUR.INC` and `CUR.ADV` (R100, R101): the sum does not wrap and staleness is not tested. -/
def advance (c : Cur) (n : Nat) (s : State) : State :=
  if (s.cur c).pos + n > (s.cur c).stop then s.raise .curOverrun
  else (s.setCur c { s.cur c with pos := (s.cur c).pos + n }).respond .ok 0

/-- `CUR.INC cur` (R100). -/
def execCurInc (c : Cur) (s : State) : Host.Outcome State Fault Refusal :=
  obey (.curInc c) (advance c 1) s

/-- `CUR.ADV cur, imm16` (R101). -/
def execCurAdv (c : Cur) (n : Word16) (s : State) : Host.Outcome State Fault Refusal :=
  obey (.curAdv c n) (advance c n.toNat) s

end Sys2Proof.Machine
end

