-- ==== Sys2Proof/Machine/NetInt16.lean ====
section
/-! DEFINITION. The 16-bit network-integer commands (40_netint.md section 1). -/

namespace Sys2Proof.Machine

/-- `NI16.SET r16, imm16` (R71). -/
def execNi16Set (r : HalfReg) (v : Word16) (s : State) : Host.Outcome State Fault Refusal :=
  obey (.ni16Set r v) (fun s => (s.setHalf r (pack16 v)).respond .ok 0) s

/-- `NI16.GET r16` (R72). -/
def execNi16Get (r : HalfReg) (s : State) : Host.Outcome State Fault Refusal :=
  obey (.ni16Get r) (fun s => s.respond .ok ((unpack16 (s.half r)).setWidth 32)) s

/-- The rule of `NI16.LD r16, cur` (R73): two bytes copied verbatim, the cursor not moved. -/
def loadHalf (r : HalfReg) (c : Cur) (s : State) : State :=
  match s.curRead c 0 2 .curShortRead with
  | .error e => s.raise e
  | .ok x => (s.setHalf r (x.getD 0 0, x.getD 1 0)).respond .ok 0

/-- `NI16.LD r16, cur` (R73). -/
def execNi16Ld (r : HalfReg) (c : Cur) (s : State) : Host.Outcome State Fault Refusal :=
  obey (.ni16Ld r c) (loadHalf r c) s

/-- Byte-wise equality of two halves, the `t` of R74. -/
def State.halvesEqual (s : State) (r q : HalfReg) : Bool :=
  (s.half r).1 == (s.half q).1 && (s.half r).2 == (s.half q).2

/-- Equality of a half with a native integer through `pack16`, the `t` of R76. -/
def State.halfEquals (s : State) (r : HalfReg) (v : Word16) : Bool :=
  (s.half r).1 == (pack16 v).1 && (s.half r).2 == (pack16 v).2

/-- `NI16.EQ r16, r16` (R74). -/
def execNi16Eq (r q : HalfReg) (s : State) : Host.Outcome State Fault Refusal :=
  obey (.ni16Eq r q) (fun s => s.respond .ok (truth (s.halvesEqual r q))) s

/-- `NI16.NE r16, r16` (R75). -/
def execNi16Ne (r q : HalfReg) (s : State) : Host.Outcome State Fault Refusal :=
  obey (.ni16Ne r q) (fun s => s.respond .ok (truth (!s.halvesEqual r q))) s

/-- `NI16.EQI r16, imm16` (R76). -/
def execNi16Eqi (r : HalfReg) (v : Word16) (s : State) : Host.Outcome State Fault Refusal :=
  obey (.ni16Eqi r v) (fun s => s.respond .ok (truth (s.halfEquals r v))) s

/-- `NI16.NEI r16, imm16` (R77). -/
def execNi16Nei (r : HalfReg) (v : Word16) (s : State) : Host.Outcome State Fault Refusal :=
  obey (.ni16Nei r v) (fun s => s.respond .ok (truth (!s.halfEquals r v))) s

end Sys2Proof.Machine
end

