-- ==== Sys2Proof/Machine/NetInt32.lean ====
section
/-! DEFINITION. The 32-bit network-integer commands (40_netint.md section 2). -/

namespace Sys2Proof.Machine

/-- `NI32.SET r32, imm32` (R78). -/
def execNi32Set (r : Reg) (v : Word32) (s : State) : Host.Outcome State Fault Refusal :=
  obey (.ni32Set r v) (fun s => (s.setReg r (pack32 v)).respond .ok 0) s

/-- `NI32.GET r32` (R79). -/
def execNi32Get (r : Reg) (s : State) : Host.Outcome State Fault Refusal :=
  obey (.ni32Get r) (fun s => s.respond .ok (unpack32 (s.reg r))) s

/-- The rule of `NI32.LD r32, cur` (R80): four bytes copied verbatim, the cursor not moved. -/
def loadReg (r : Reg) (c : Cur) (s : State) : State :=
  match s.curRead c 0 4 .curShortRead with
  | .error e => s.raise e
  | .ok x =>
    (s.setReg r { b0 := x.getD 0 0, b1 := x.getD 1 0, b2 := x.getD 2 0, b3 := x.getD 3 0 }).respond .ok 0

/-- `NI32.LD r32, cur` (R80). -/
def execNi32Ld (r : Reg) (c : Cur) (s : State) : Host.Outcome State Fault Refusal :=
  obey (.ni32Ld r c) (loadReg r c) s

/-- Byte-wise equality of two network integers, the `t` of R81. -/
def NetInt.equals (p q : NetInt) : Bool := p.b0 == q.b0 && p.b1 == q.b1 && p.b2 == q.b2 && p.b3 == q.b3

/-- `NI32.EQ r32, r32` (R81). -/
def execNi32Eq (r q : Reg) (s : State) : Host.Outcome State Fault Refusal :=
  obey (.ni32Eq r q) (fun s => s.respond .ok (truth ((s.reg r).equals (s.reg q)))) s

/-- `NI32.NE r32, r32` (R82). -/
def execNi32Ne (r q : Reg) (s : State) : Host.Outcome State Fault Refusal :=
  obey (.ni32Ne r q) (fun s => s.respond .ok (truth (!(s.reg r).equals (s.reg q)))) s

/-- `NI32.EQI r32, imm32` (R83). -/
def execNi32Eqi (r : Reg) (v : Word32) (s : State) : Host.Outcome State Fault Refusal :=
  obey (.ni32Eqi r v) (fun s => s.respond .ok (truth ((s.reg r).equals (pack32 v)))) s

/-- `NI32.NEI r32, imm32` (R84). -/
def execNi32Nei (r : Reg) (v : Word32) (s : State) : Host.Outcome State Fault Refusal :=
  obey (.ni32Nei r v) (fun s => s.respond .ok (truth (!(s.reg r).equals (pack32 v)))) s

/-- The byte loop of R85 and R86: from byte 3 to byte 0, each sum exact, the carry out of byte 0 dropped. -/
def NetInt.addCarry (p q : NetInt) (carry : Nat) : NetInt :=
  let t3 := p.b3.toNat + q.b3.toNat + carry
  let t2 := p.b2.toNat + q.b2.toNat + t3 / 256
  let t1 := p.b1.toNat + q.b1.toNat + t2 / 256
  let t0 := p.b0.toNat + q.b0.toNat + t1 / 256
  { b0 := BitVec.ofNat 8 t0, b1 := BitVec.ofNat 8 t1, b2 := BitVec.ofNat 8 t2, b3 := BitVec.ofNat 8 t3 }

/-- `NI32.INC r32` (R85): the loop started with carry 1 over zero bytes. -/
def execNi32Inc (r : Reg) (s : State) : Host.Outcome State Fault Refusal :=
  obey (.ni32Inc r) (fun s => (s.setReg r ((s.reg r).addCarry { b0 := 0, b1 := 0, b2 := 0, b3 := 0 } 1)).respond .ok 0) s

/-- `NI32.ADD r32, r32` (R86): both operands read before the write (R8). -/
def execNi32Add (r q : Reg) (s : State) : Host.Outcome State Fault Refusal :=
  obey (.ni32Add r q) (fun s => (s.setReg r ((s.reg r).addCarry (s.reg q) 0)).respond .ok 0) s

/-- The byte-wise order of R87: unsigned, the most significant byte first. -/
def NetInt.lessThan (p q : NetInt) : Bool :=
  if p.b0.toNat < q.b0.toNat then true else if p.b0.toNat > q.b0.toNat then false
  else if p.b1.toNat < q.b1.toNat then true else if p.b1.toNat > q.b1.toNat then false
  else if p.b2.toNat < q.b2.toNat then true else if p.b2.toNat > q.b2.toNat then false
  else if p.b3.toNat < q.b3.toNat then true else false

/-- `NI32.LT r32, r32` (R87). -/
def execNi32Lt (r q : Reg) (s : State) : Host.Outcome State Fault Refusal :=
  obey (.ni32Lt r q) (fun s => s.respond .ok (truth ((s.reg r).lessThan (s.reg q)))) s

end Sys2Proof.Machine
end

