-- ==== Sys2Proof/Machine/System.lean ====
section
/-! DEFINITION. The system commands (45_system.md). -/

namespace Sys2Proof.Machine

/-- `NOP` (R150). -/
def execNop (s : State) : Host.Outcome State Fault Refusal :=
  obey .nop (fun s => s.respond .ok 0) s

/-- `RDCSR csr` (R151): executes in every state, the fault state included (R161), and changes nothing. -/
def execRdcsr (csr : Csr) (s : State) : Host.Outcome State Fault Refusal :=
  .next (s.respond .ok (s.csr csr))

end Sys2Proof.Machine
end

