-- ==== Sys2Proof/Machine/Dispatch.lean ====
section
/-! DEFINITION. The meaning of every command: one arm per constructor of `Instr`, each one call of its meaning. -/

namespace Sys2Proof.Machine

def exec (i : Instr) (s : State) : Host.Outcome State Fault Refusal :=
  match i with
  | .nop => Sys2Proof.Machine.execNop s
  | .rdcsr csr => Sys2Proof.Machine.execRdcsr csr s
  | .ni16Set r v => Sys2Proof.Machine.execNi16Set r v s
  | .ni16Get r => Sys2Proof.Machine.execNi16Get r s
  | .ni16Ld r c => Sys2Proof.Machine.execNi16Ld r c s
  | .ni16Eq r q => Sys2Proof.Machine.execNi16Eq r q s
  | .ni16Ne r q => Sys2Proof.Machine.execNi16Ne r q s
  | .ni16Eqi r v => Sys2Proof.Machine.execNi16Eqi r v s
  | .ni16Nei r v => Sys2Proof.Machine.execNi16Nei r v s
  | .ni32Set r v => Sys2Proof.Machine.execNi32Set r v s
  | .ni32Get r => Sys2Proof.Machine.execNi32Get r s
  | .ni32Ld r c => Sys2Proof.Machine.execNi32Ld r c s
  | .ni32Eq r q => Sys2Proof.Machine.execNi32Eq r q s
  | .ni32Ne r q => Sys2Proof.Machine.execNi32Ne r q s
  | .ni32Eqi r v => Sys2Proof.Machine.execNi32Eqi r v s
  | .ni32Nei r v => Sys2Proof.Machine.execNi32Nei r v s
  | .ni32Inc r => Sys2Proof.Machine.execNi32Inc r s
  | .ni32Add r q => Sys2Proof.Machine.execNi32Add r q s
  | .ni32Lt r q => Sys2Proof.Machine.execNi32Lt r q s
  | .curOpen c b => Sys2Proof.Machine.execCurOpen c b s
  | .curRem c => Sys2Proof.Machine.execCurRem c s
  | .curPeek c => Sys2Proof.Machine.execCurPeek c s
  | .curInc c => Sys2Proof.Machine.execCurInc c s
  | .curAdv c n => Sys2Proof.Machine.execCurAdv c n s
  | .bufAppend b length src => Sys2Proof.Machine.execBufAppend b length src s
  | .bufClear b => Sys2Proof.Machine.execBufClear b s
  | .bufLen b => Sys2Proof.Machine.execBufLen b s
  | .bufRdb b idx => Sys2Proof.Machine.execBufRdb b idx s
  | .csClear => Sys2Proof.Machine.execCsClear s
  | .csAcc r => Sys2Proof.Machine.execCsAcc r s
  | .csAcci w => Sys2Proof.Machine.execCsAcci w s
  | .csSum => Sys2Proof.Machine.execCsSum s
  | .csRange b off n => Sys2Proof.Machine.execCsRange b off n s
  | .csRangec c off n => Sys2Proof.Machine.execCsRangec c off n s
  | .chPrepend q k => Sys2Proof.Machine.execChPrepend q k s
  | .chAppend q k => Sys2Proof.Machine.execChAppend q k s
  | .chPush q k useFifo => Sys2Proof.Machine.execChPush q k useFifo s
  | .chFirst q remove => Sys2Proof.Machine.execChFirst q remove s
  | .chPop q => Sys2Proof.Machine.execChPop q s
  | .chRemove q k => Sys2Proof.Machine.execChRemove q k s
  | .chHas q k => Sys2Proof.Machine.execChHas q k s
  | .chNext k => Sys2Proof.Machine.execChNext k s
  | .chLast q => Sys2Proof.Machine.execChLast q s

end Sys2Proof.Machine
end

