-- ==== Sys2Proof/Machine/Step.lean ====
section
/-! DEFINITION. One step: the host's next action (R6). A command is executed whole, from decode to response; between
commands the host may change SRC or assert reset; with no action left the block waits. -/

namespace Sys2Proof.Machine

/-- A command word reaches the block (R161): a word that decodes to a command runs its meaning, any other word is
refused. -/
def runWord (w : Command) (s : State) : Host.Outcome State Fault Refusal :=
  match decode w with
  | .ok i => exec i s
  | .error _ => .next s.refuseWord

/-- One step. -/
def step (s : State) : Host.Outcome State Fault Refusal :=
  match s.actions with
  | [] => .next s
  | .command w :: rest => runWord w (s.setActions rest)
  | .setSrc a v :: rest => .next ((s.setActions rest).hostWrites a v)
  | .reset :: rest => .next (s.setActions rest).assertReset

/-- The state with one command as the host's next action, before all others: there is no program counter and no
instruction memory (R19), so a command comes to run only by the host issuing it (assumption 3). -/
def State.withFetchWord (s : State) (nbits w : Nat) : State :=
  s.setActions (.command (BitVec.ofNat 64 (w % 2 ^ nbits)) :: s.actions)

end Sys2Proof.Machine
end

