-- ==== Sys2Proof/Safety.lean ====
section
/-! DEFINITION. The terms in which claims about the block are stated: runs, the invariant of every state (R11, R13, R17),
chains as sequences (R142), and the tables of R54 and R160 written a second time, apart from the decoder and the
meanings, so that a claim can hold the model against them. -/

namespace Sys2Proof.Machine

/-! ### Runs -/

/-- A safe state: no fault since reset (R163: every claim about a run takes `FAULT = 0` at its end as a premise). -/
abbrev State.Safe (s : State) : Prop := s.fault = 0

/-- The state after a list of commands executed in order, if each answers a next state. -/
def commands : List Instr → State → Option State
  | [], s => some s
  | i :: rest, s =>
    match exec i s with
    | .next t => commands rest t
    | .fault _ => none
    | .refused _ => none

/-- The state after `k` steps of the machine, if each answers a next state. -/
def steps : Nat → State → Option State
  | 0, s => some s
  | k + 1, s =>
    match step s with
    | .next t => steps k t
    | .fault _ => none
    | .refused _ => none

/-! ### Numbers held in bytes -/

/-- The number four bytes hold (R34): `b0 * 2^24 + b1 * 2^16 + b2 * 2^8 + b3`. -/
def NetInt.value (n : NetInt) : Nat :=
  n.b0.toNat * 2 ^ 24 + n.b1.toNat * 2 ^ 16 + n.b2.toNat * 2 ^ 8 + n.b3.toNat

/-- The number two bytes hold (R33): `x0 * 256 + x1`. -/
def pairValue (x : Byte × Byte) : Nat := x.1.toNat * 256 + x.2.toNat

/-- The sum of the big-endian words of `d[lo .. stop-1]`, a last single byte being the high byte of its word (R120),
written by index. -/
def rangeWords (d : List Byte) (lo stop : Nat) : Nat :=
  ((List.range ((stop - lo + 1) / 2)).map fun j =>
    (d.getD (lo + 2 * j) 0).toNat * 256
      + (if lo + 2 * j + 1 < stop then (d.getD (lo + 2 * j + 1) 0).toNat else 0)).sum

/-! ### Chains as sequences (R17, R142) -/

/-- Following `next` from a reference visits exactly the nodes of the list, then `NULL`. -/
def linked (s : State) : NodeRef → List Nat → Bool
  | r, [] => r == none
  | r, k :: rest => r == some k && linked s (s.next k) rest

/-- The block's object counts are those of its configuration (R11, R16). -/
abbrev State.Sized (s : State) : Prop := s.bufs.length = s.cfg.nbuf ∧ s.chains.length = s.cfg.nchain

/-- The chains of the state are the sequences `L`, chain `q` being `L[q]` from `first` to `last`: a node occurs at most
once in a chain and in at most one chain, every member is a node of the block, and a free node's link is `NULL`. -/
abbrev Represents (s : State) (L : List (List Nat)) : Prop :=
  L.length = s.cfg.nchain
    ∧ (∀ q, q < s.cfg.nchain → linked s (s.chain q).first (L.getD q []) = true
        ∧ (s.chain q).last = (L.getD q []).getLast?)
    ∧ L.flatten.Nodup
    ∧ (∀ k ∈ L.flatten, k < s.cfg.nbuf)
    ∧ ∀ k, k < s.cfg.nbuf → k ∉ L.flatten → s.next k = none

/-! ### The invariant of every state -/

/-- What holds in every state of the block: legal parameters (R5), object counts (R11, R16), buffer lengths (R11),
cursors (R13), a fault cause of R164 or none, SRC in canonical form, and chains that are sequences (R17). -/
structure State.Inv (s : State) : Prop where
  cfgOk : s.cfg.Ok
  sized : s.Sized
  lens : ∀ B ∈ s.bufs, B.data.length ≤ s.cfg.capacity
  cursors : ∀ c : Cur, (s.cur c).buf < s.cfg.nbuf ∧ (s.cur c).start ≤ (s.cur c).pos
    ∧ (s.cur c).pos ≤ (s.cur c).stop ∧ (s.cur c).stop ≤ s.cfg.capacity
  faultCode : s.fault.toNat ≤ 5
  srcWf : s.src.wf
  chained : ∃ L, Represents s L

end Sys2Proof.Machine

namespace Sys2Proof

/-! ### The opcode map of R54 as a table, with the formats of R51 and the operand kinds of R52 -/

/-- R51. -/
inductive Format where
  | z
  | a1
  | a2
  | a3
  | ai
  | i
  | ad
  | aid
deriving DecidableEq, Repr

/-- R52. -/
inductive Kind where
  | r32
  | r16
  | cur
  | buf
  | chain
  | node
  | csr
  | flag
deriving DecidableEq, Repr

/-- One row of R54: the opcode, the format, and the kinds of the operand fields `A`, `B`, `Cf` it uses. -/
structure MapRow where
  opc : Byte
  fmt : Format
  kinds : List Kind
deriving DecidableEq, Repr

/-- R51, last column: the fields that must be zero. -/
def Format.unusedAreZero (f : Fields) : Format → Bool
  | .z => f.a == 0 && f.b == 0 && f.c == 0 && f.dw == 0
  | .a1 => f.b == 0 && f.c == 0 && f.dw == 0
  | .a2 => f.c == 0 && f.dw == 0
  | .a3 => f.dw == 0
  | .ai => f.dw == 0
  | .i => f.a == 0 && f.dw == 0
  | .ad => f.b == 0 && f.c == 0
  | .aid => true

/-- R52, last column: the legal values of the 8-bit operand field. -/
def Kind.admits (cfg : Config) (x : Byte) : Kind → Bool
  | .r32 => x.toNat ≤ 0x07
  | .r16 => x.toNat ≤ 0x0F
  | .cur => x.toNat ≤ 0x03
  | .buf => x.toNat < cfg.nbuf
  | .chain => x.toNat < cfg.nchain
  | .node => x.toNat < cfg.nbuf || x == 0xFF
  | .csr => x.toNat ≤ 3
  | .flag => x.toNat ≤ 0x01

/-- R54, the 43 rows. -/
def opcodeMap : List MapRow :=
  [⟨0x00, .z, []⟩, ⟨0x01, .a1, [.csr]⟩]
  ++ [⟨0x10, .ai, [.r16]⟩, ⟨0x11, .a1, [.r16]⟩, ⟨0x12, .a2, [.r16, .cur]⟩, ⟨0x13, .a2, [.r16, .r16]⟩,
    ⟨0x14, .a2, [.r16, .r16]⟩, ⟨0x15, .ai, [.r16]⟩, ⟨0x16, .ai, [.r16]⟩]
  ++ [⟨0x20, .ad, [.r32]⟩, ⟨0x21, .a1, [.r32]⟩, ⟨0x22, .a2, [.r32, .cur]⟩, ⟨0x23, .a2, [.r32, .r32]⟩,
    ⟨0x24, .a2, [.r32, .r32]⟩, ⟨0x25, .ad, [.r32]⟩, ⟨0x26, .ad, [.r32]⟩, ⟨0x27, .a1, [.r32]⟩,
    ⟨0x28, .a2, [.r32, .r32]⟩, ⟨0x29, .a2, [.r32, .r32]⟩]
  ++ [⟨0x30, .a2, [.cur, .buf]⟩, ⟨0x31, .a1, [.cur]⟩, ⟨0x32, .a1, [.cur]⟩, ⟨0x33, .a1, [.cur]⟩, ⟨0x34, .ai, [.cur]⟩]
  ++ [⟨0x40, .aid, [.buf]⟩, ⟨0x41, .a1, [.buf]⟩, ⟨0x42, .a1, [.buf]⟩, ⟨0x43, .ai, [.buf]⟩]
  ++ [⟨0x50, .z, []⟩, ⟨0x51, .a1, [.r16]⟩, ⟨0x52, .i, []⟩, ⟨0x53, .z, []⟩, ⟨0x54, .aid, [.buf]⟩,
    ⟨0x55, .aid, [.cur]⟩]
  ++ [⟨0x60, .a2, [.chain, .node]⟩, ⟨0x61, .a2, [.chain, .node]⟩, ⟨0x62, .a3, [.chain, .node, .flag]⟩,
    ⟨0x63, .a2, [.chain, .flag]⟩, ⟨0x64, .a1, [.chain]⟩, ⟨0x65, .a2, [.chain, .node]⟩,
    ⟨0x66, .a2, [.chain, .node]⟩, ⟨0x67, .a1, [.node]⟩, ⟨0x68, .a1, [.chain]⟩]

/-- R55, read off the table: the opcode is in the map, the unused fields are zero, every operand field is legal. -/
def legalByMap (cfg : Config) (f : Fields) : Bool :=
  opcodeMap.any fun r =>
    r.opc == f.opc && r.fmt.unusedAreZero f && (r.kinds.zip [f.a, f.b, f.c]).all fun p => p.1.admits cfg p.2

/-- The operand field of an `r16` operand (R52): register number in bits [2:0], half select in bit [3]. -/
def halfField (r : HalfReg) : Byte := BitVec.ofNat 8 (r.reg.val + (if r.half = .lo then 8 else 0))

/-! ### The statuses each command may answer (R160, column "raised by") -/

/-- The codes of R160 that a command may answer besides `OK`, `ILLEGAL` and `FAULTED`. -/
def ownStatuses : Instr → List Byte
  | .nop => []
  | .rdcsr _ => []
  | .ni16Set _ _ => []
  | .ni16Get _ => []
  | .ni16Ld _ _ => [0xF0]
  | .ni16Eq _ _ => []
  | .ni16Ne _ _ => []
  | .ni16Eqi _ _ => []
  | .ni16Nei _ _ => []
  | .ni32Set _ _ => []
  | .ni32Get _ => []
  | .ni32Ld _ _ => [0xF0]
  | .ni32Eq _ _ => []
  | .ni32Ne _ _ => []
  | .ni32Eqi _ _ => []
  | .ni32Nei _ _ => []
  | .ni32Inc _ => []
  | .ni32Add _ _ => []
  | .ni32Lt _ _ => []
  | .curOpen _ _ => []
  | .curRem _ => []
  | .curPeek _ => [0xF0]
  | .curInc _ => [0xF0]
  | .curAdv _ _ => [0xF0]
  | .bufAppend _ _ _ => [0x01, 0x02, 0x03]
  | .bufClear _ => []
  | .bufLen _ => []
  | .bufRdb _ _ => [0x04]
  | .csClear => []
  | .csAcc _ => []
  | .csAcci _ => []
  | .csSum => []
  | .csRange _ _ _ => [0x04, 0x05]
  | .csRangec _ _ _ => [0x04, 0x05, 0xF0]
  | .chPrepend _ _ => [0x01, 0x06, 0xF0]
  | .chAppend _ _ => [0x01, 0x06, 0xF0]
  | .chPush _ _ _ => [0x01, 0x06, 0xF0]
  | .chFirst _ _ => [0x08]
  | .chPop _ => [0x08]
  | .chRemove _ _ => [0x01, 0x07]
  | .chHas _ _ => [0x01]
  | .chNext _ => [0x01]
  | .chLast _ => [0x08]

/-- The codes a command may answer: its own, and `OK`, `ILLEGAL` and `FAULTED`, of which `RDCSR` answers only `OK`. -/
def answers (i : Instr) : List Byte :=
  match i with
  | .rdcsr _ => [0x00]
  | _ => [0x00, 0x80, 0xF1] ++ ownStatuses i

end Sys2Proof
end

