-- ==== Sys2Proof/Certificates/Slice0/Obligations.lean ====
section
/-! DEFINITION. The statements for the provers. A next state is written out field by field: `{ s with … }` leaves every
field that is not named unchanged, so each such statement is its own frame. Status and fault codes are the numbers of
R160 and R164. -/

open Sys2Proof Sys2Proof.Machine

/-! ### Encoding and decoding -/

/-- The three worked encodings of 30_encoding.md section 4, and one word of every other family from 95_test_vectors.md. -/
def Obligations.WorkedCommandWordsDecode : Prop :=
  decode 0x1001123400000000 = .ok (.ni16Set ⟨1, .hi⟩ 0x1234)
  ∧ decode 0x4002000800001000 = .ok (.bufAppend 2 8 0x1000)
  ∧ decode 0x6201030100000000 = .ok (.chPush 1 (some 3) true)
  ∧ decode 0x0103000000000000 = .ok (.rdcsr .sum)
  ∧ decode 0x110B000000000000 = .ok (.ni16Get ⟨3, .lo⟩)
  ∧ decode 0x2801020000000000 = .ok (.ni32Add 1 2)
  ∧ decode 0x3001030000000000 = .ok (.curOpen 1 3)
  ∧ decode 0x5400000200000004 = .ok (.csRange 0 2 4)
  ∧ decode 0x67FF000000000000 = .ok (.chNext none)
  ∧ decode 0x0200000000000000 = .error .unknownOpcode
  ∧ decode 0x1001123400000001 = .error .unusedFieldNonzero
  ∧ decode 0x1110000000000000 = .error .badOperand

/-- Decoding the word of a well-formed command gives the command back, with every operand at every value. -/
def Obligations.EncodedCommandDecodesToItself : Prop :=
  ∀ (cfg : Config) (i : Instr), cfg.Ok → i.wellFormed cfg = true → decode (encode i) = .ok i

/-- A word that decodes to a command is that command's encoding: no bit is ignored and no two words are one command. -/
def Obligations.DecodedWordIsItsEncoding : Prop :=
  ∀ (w : Command) (i : Instr), decode w = .ok i → encode i = w

/-- R55: the legal words are those of the opcode map (R54) with zero unused fields (R51) and legal operand fields
(R52); an illegal command changes no state and is answered `ILLEGAL`. -/
def Obligations.IllegalWordsAreThoseOffTheMap : Prop :=
  (∀ (cfg : Config) (w : Command), legal cfg w = legalByMap cfg
      { opc := w.extractLsb' 56 8, a := w.extractLsb' 48 8, b := w.extractLsb' 40 8, c := w.extractLsb' 32 8,
        dw := w.extractLsb' 0 32 })
  ∧ ∀ (s : State) (w : Command), s.fault = 0 → legal s.cfg w = false →
      runWord w s = .next { s with resp := some ⟨0x80, 0⟩ }

/-! ### The step -/

/-- A command word at the port that decodes to `i` is executed as `i`, the action having been taken from the host's
list (assumption 3, the model's form of the host); a word placed by `withFetchWord` is the very next command. -/
def Obligations.StepRunsTheDecodedCommand : Prop :=
  (∀ (s : State) (w : Command) (i : Instr) (rest : List HostAction), s.actions = .command w :: rest →
      decode w = .ok i → step s = exec i { s with actions := rest })
  ∧ (∀ (s : State) (w : Command) (rest : List HostAction), s.actions = .command w :: rest →
      step s = runWord w { s with actions := rest })
  ∧ ∀ (s : State) (w : Nat) (i : Instr), decodeTableWord 64 w = some i →
      step (s.withFetchWord 64 w) = exec i s

/-- R161: refused in the fault state unless a legal `RDCSR`; then illegal; then executed. -/
def Obligations.CommandsAreProcessedInOrder : Prop :=
  ∀ (s : State) (w : Command),
    (s.fault ≠ 0 → (∀ csr, decode w ≠ .ok (.rdcsr csr)) → runWord w s = .next { s with resp := some ⟨0xF1, 0⟩ })
    ∧ (s.fault = 0 → legal s.cfg w = false → runWord w s = .next { s with resp := some ⟨0x80, 0⟩ })
    ∧ ∀ i, decode w = .ok i → legal s.cfg w = true → s.fault = 0 ∨ (∃ csr, i = .rdcsr csr) →
      runWord w s = exec i s

/-- R6, R30: with no action the block waits; the host's write changes the one byte of SRC and nothing else; a reset is
taken between two commands. That the host's actions stand in a list of the state is the model's form (assumption 3). -/
def Obligations.HostActsBetweenCommands : Prop :=
  (∀ s : State, s.actions = [] → step s = .next s)
  ∧ (∀ (s : State) (a : Word32) (v : Byte) (rest : List HostAction), s.src.wf → s.actions = .setSrc a v :: rest →
      ∃ m : Memory, step s = .next { s with actions := rest, src := m }
        ∧ m.read a.toNat = v ∧ ∀ b, b ≠ a.toNat → m.read b = s.src.read b)
  ∧ ∀ (s : State) (rest : List HostAction), s.actions = .reset :: rest →
      step s = .next (State.assertReset { s with actions := rest })

/-- R180: reset gives every piece of state the value of R20, the NI registers being unspecified, changes neither the
parameters nor SRC, and is the only way out of the fault state: no command word and no write of SRC by the host changes
`FAULT` once it is set. What the model's own `epoch` and response port hold after it is left open here. -/
def Obligations.ResetIsTheOnlyExitFromAFault : Prop :=
  (∀ s : State, ∃ (n : Vector NetInt 8) (e : Nat) (r : Option Response), s.assertReset =
      { cfg := s.cfg, regs := n, bufs := List.replicate s.cfg.nbuf ⟨[], none⟩,
        curs := #v[⟨0, 0, 0, 0⟩, ⟨0, 0, 0, 0⟩, ⟨0, 0, 0, 0⟩, ⟨0, 0, 0, 0⟩], sum := 0,
        chains := List.replicate s.cfg.nchain ⟨none, none⟩, fault := 0, epoch := e, src := s.src,
        actions := s.actions, resp := r })
  ∧ (∀ (s t : State) (w : Command), runWord w s = .next t → s.fault ≠ 0 → t.fault = s.fault)
  ∧ ∀ s t : State, step s = .next t → s.fault ≠ 0 → t.fault = s.fault ∨ ∃ rest, s.actions = .reset :: rest

/-- R20: the reset values the spec gives, for every configuration. -/
def Obligations.ResetValuesOfTheBlock : Prop :=
  ∀ (cfg : Config) (epoch : Nat) (src : Memory) (actions : List HostAction),
    (∀ b, b < cfg.nbuf → (State.resetOf cfg epoch src actions).len b = 0)
    ∧ (∀ k, k < cfg.nbuf → (State.resetOf cfg epoch src actions).next k = none)
    ∧ (∀ c : Cur, (State.resetOf cfg epoch src actions).cur c = ⟨0, 0, 0, 0⟩)
    ∧ (State.resetOf cfg epoch src actions).sum = 0
    ∧ (∀ q, q < cfg.nchain → (State.resetOf cfg epoch src actions).chain q = ⟨none, none⟩)
    ∧ (State.resetOf cfg epoch src actions).fault = 0
    ∧ (State.resetOf cfg epoch src actions).csr .capw = BitVec.ofNat 32 cfg.capWords
    ∧ (State.resetOf cfg epoch src actions).csr .config
        = BitVec.ofNat 32 (8 * 2 ^ 24 + 4 * 2 ^ 16 + cfg.nchain * 2 ^ 8 + cfg.nbuf)

/-! ### System commands -/

/-- R150, R151: `NOP` answers `OK` and changes nothing; `RDCSR` executes in every state, the fault state included,
returns the CSR with the layout of R18 and has no side effect. -/
def Obligations.NopAndCsrReads : Prop :=
  decode 0 = .ok .nop ∧ encode .nop = 0
  ∧ (∀ s : State, s.fault = 0 → exec .nop s = .next { s with resp := some ⟨0x00, 0⟩ })
  ∧ (∀ s : State, s.fault ≠ 0 → exec .nop s = .next { s with resp := some ⟨0xF1, 0⟩ })
  ∧ (encode (.rdcsr .capw) = 0x0100000000000000 ∧ encode (.rdcsr .config) = 0x0101000000000000
    ∧ encode (.rdcsr .fault) = 0x0102000000000000 ∧ encode (.rdcsr .sum) = 0x0103000000000000)
  ∧ (∀ x : Byte, 3 < x.toNat → decode (0x01#8 ++ x ++ 0#48) = .error .badOperand)
  ∧ ∀ s : State,
    exec (.rdcsr .capw) s = .next { s with resp := some ⟨0x00, BitVec.ofNat 32 s.cfg.capWords⟩ }
    ∧ exec (.rdcsr .config) s = .next { s with
        resp := some ⟨0x00, BitVec.ofNat 32 (8 * 2 ^ 24 + 4 * 2 ^ 16 + s.cfg.nchain * 2 ^ 8 + s.cfg.nbuf)⟩ }
    ∧ exec (.rdcsr .fault) s = .next { s with resp := some ⟨0x00, BitVec.ofNat 32 s.fault.toNat⟩ }
    ∧ exec (.rdcsr .sum) s = .next { s with resp := some ⟨0x00, s.sum⟩ }

/-! ### Rules over all commands -/

/-- R162: a command answered with a no-op status changed no state at all. -/
def Obligations.NoOpAnswersChangeNothing : Prop :=
  ∀ (i : Instr) (s t : State) (r : Response), exec i s = .next t → t.resp = some r →
    1 ≤ r.st.toNat → r.st.toNat ≤ 8 → t = { s with resp := some r }

/-- R163: raising a fault writes `FAULT` and nothing else, with a non-zero cause returned in the result; from then on
every command but `RDCSR` is refused, and `FAULT` keeps the first cause. -/
def Obligations.AFaultWritesOnlyTheFaultRegister : Prop :=
  (∀ (i : Instr) (s t : State) (r : Response), exec i s = .next t → t.resp = some r → r.st = 0xF0 →
    s.fault = 0 ∧ t.fault ≠ 0 ∧ t = { s with fault := t.fault, resp := some ⟨0xF0, t.fault.setWidth 32⟩ })
  ∧ (∀ (i : Instr) (s t : State), exec i s = .next t → t.fault ≠ s.fault → ∃ res, t.resp = some ⟨0xF0, res⟩)
  ∧ ∀ (i : Instr) (s : State), s.fault ≠ 0 → (∀ csr, i ≠ .rdcsr csr) →
      exec i s = .next { s with resp := some ⟨0xF1, 0⟩ }

/-- R164: a command that is executed leaves `FAULT` at 0 or at one of the five causes, and at each cause exactly when it
is one of the commands of that cause and the condition of the cause holds in the state before, the tests that come
before it in its rule (R96, R121, R131) having passed; a command that is not executed leaves `FAULT` as it was. -/
def Obligations.FaultCausesAndTheirCommands : Prop :=
  ∀ (i : Instr) (s t : State), exec i s = .next t →
    (s.fault ≠ 0 ∨ i.wellFormed s.cfg = false → t.fault = s.fault)
    ∧ (s.fault = 0 → i.wellFormed s.cfg = true →
      t.fault.toNat ≤ 5
      ∧ (t.fault = 0x01 ↔ (∃ c, i = .curInc c ∧ (s.cur c).pos + 1 > (s.cur c).stop)
        ∨ ∃ c n, i = .curAdv c n ∧ (s.cur c).pos + n.toNat > (s.cur c).stop)
      ∧ (t.fault = 0x02 ↔ ∃ c, i = .curPeek c ∧ (s.cur c).pos + 1 > (s.cur c).stop)
      ∧ (t.fault = 0x03 ↔ (∃ r c, i = .ni16Ld r c ∧ (s.cur c).pos + 2 > (s.cur c).stop)
        ∨ ∃ r c, i = .ni32Ld r c ∧ (s.cur c).pos + 4 > (s.cur c).stop)
      ∧ (t.fault = 0x04 ↔
        (∃ c, i = .curPeek c ∧ (s.cur c).pos + 1 ≤ (s.cur c).stop ∧ (s.cur c).pos + 1 > s.len (s.cur c).buf)
        ∨ (∃ r c, i = .ni16Ld r c ∧ (s.cur c).pos + 2 ≤ (s.cur c).stop ∧ (s.cur c).pos + 2 > s.len (s.cur c).buf)
        ∨ (∃ r c, i = .ni32Ld r c ∧ (s.cur c).pos + 4 ≤ (s.cur c).stop ∧ (s.cur c).pos + 4 > s.len (s.cur c).buf)
        ∨ ∃ c off n, i = .csRangec c off n ∧ ∃ L stop : Nat, L = (s.cur c).stop - (s.cur c).pos
          ∧ stop = (if n = 0 then L else off.toNat + n.toNat)
          ∧ off.toNat + n.toNat ≤ L ∧ off.toNat % 2 = 0 ∧ n.toNat % 2 = 0
          ∧ off.toNat < stop ∧ (s.cur c).pos + stop > s.len (s.cur c).buf)
      ∧ (t.fault = 0x05 ↔
        ∃ q k, (i = .chPrepend q (some k) ∨ i = .chAppend q (some k) ∨ ∃ f, i = .chPush q (some k) f)
          ∧ s.reach q k = false ∧ ∃ q2, q2 ≠ q ∧ q2 < s.cfg.nchain ∧ s.reach q2 k = true))

/-- R160: the codes each command may answer; no other code is ever produced. -/
def Obligations.EveryAnswerIsInTheStatusTable : Prop :=
  ∀ (i : Instr) (s t : State), exec i s = .next t → ∃ r, t.resp = some r ∧ r.st ∈ answers i

/-- R7: the step is total. -/
def Obligations.EveryStepAnswersANextState : Prop :=
  (∀ s : State, ∃ t, step s = .next t) ∧ ∀ (i : Instr) (s : State), ∃ t, exec i s = .next t ∧ t.resp ≠ none

/-- R5, R6, R30: no command changes the parameters, SRC or what the host does next. -/
def Obligations.NoCommandWritesParametersOrSource : Prop :=
  ∀ (i : Instr) (s t : State), exec i s = .next t →
    t.cfg = s.cfg ∧ t.src = s.src ∧ t.actions = s.actions ∧ t.epoch = s.epoch

/-- R30: only `BUF.APPEND` reads SRC; every other command does the same whatever SRC holds. -/
def Obligations.OnlyAppendReadsSourceMemory : Prop :=
  ∀ (i : Instr) (s t : State) (m : Memory), (∀ b n a, i ≠ .bufAppend b n a) → exec i s = .next t →
    exec i { s with src := m } = .next { t with src := m }

/-- R10: a register changes only by the writing NI commands, and only the register they name. -/
def Obligations.OnlyNetIntCommandsWriteRegisters : Prop :=
  ∀ (i : Instr) (s t : State) (j : Reg), exec i s = .next t → t.reg j ≠ s.reg j →
    (∃ h v, i = .ni16Set ⟨j, h⟩ v) ∨ (∃ h c, i = .ni16Ld ⟨j, h⟩ c) ∨ (∃ v, i = .ni32Set j v) ∨ (∃ c, i = .ni32Ld j c)
    ∨ i = .ni32Inc j ∨ ∃ q, i = .ni32Add j q

/-- R13, R95: a cursor changes only by `CUR.OPEN`, `CUR.INC` and `CUR.ADV` of that cursor; the last two write `pos`
alone and never decrease it. -/
def Obligations.OnlyCursorCommandsWriteCursors : Prop :=
  ∀ (i : Instr) (s t : State) (c : Cur), exec i s = .next t → t.cur c ≠ s.cur c →
    (∃ b, i = .curOpen c b)
    ∨ ((i = .curInc c ∨ ∃ n, i = .curAdv c n)
        ∧ t.cur c = { s.cur c with pos := (t.cur c).pos } ∧ (s.cur c).pos < (t.cur c).pos)

/-- R14: `SUM` is written by the six checksum commands and by no other. -/
def Obligations.OnlyChecksumCommandsWriteTheSum : Prop :=
  ∀ (i : Instr) (s t : State), exec i s = .next t → t.sum ≠ s.sum →
    i = .csClear ∨ (∃ r, i = .csAcc r) ∨ (∃ w, i = .csAcci w) ∨ i = .csSum ∨ (∃ b off n, i = .csRange b off n)
    ∨ ∃ c off n, i = .csRangec c off n

/-- R15, R16: links and descriptors are written only by the chain commands that insert or remove. -/
def Obligations.OnlyChainCommandsWriteLinks : Prop :=
  ∀ (i : Instr) (s t : State), exec i s = .next t → (t.chains ≠ s.chains ∨ ∃ k, t.next k ≠ s.next k) →
    ∃ q, (∃ k, i = .chPrepend q k) ∨ (∃ k, i = .chAppend q k) ∨ (∃ k f, i = .chPush q k f) ∨ i = .chFirst q true
      ∨ i = .chPop q ∨ ∃ k, i = .chRemove q k

/-- R109 (c), (d): the valid prefix of a buffer changes only by an accepted `BUF.APPEND` of it, which leaves the old
bytes where they are, or by `BUF.CLEAR` of it. -/
def Obligations.OnlyAppendAndClearChangeBufferContents : Prop :=
  ∀ (i : Instr) (s t : State) (b : Nat), exec i s = .next t → (t.buffer b).data ≠ (s.buffer b).data →
    (∃ n a, i = .bufAppend b n a ∧ t.resp = some ⟨0x00, 0⟩
      ∧ t.len b = s.len b + n.toNat ∧ ∀ x, x < s.len b → (t.buffer b).data[x]? = (s.buffer b).data[x]?)
    ∨ (i = .bufClear b ∧ t.len b = 0)

/-! ### 16-bit network integers -/

/-- R71. -/
def Obligations.Ni16SetPacksIntoOneHalf : Prop :=
  (∀ r v, encode (.ni16Set r v) = 0x10#8 ++ halfField r ++ v ++ 0#32)
  ∧ ∀ (i : Reg) (v : Word16) (s : State), s.fault = 0 →
    exec (.ni16Set ⟨i, .hi⟩ v) s = .next { s with
        regs := s.regs.set i.val { s.reg i with b0 := v.extractLsb' 8 8, b1 := v.extractLsb' 0 8 } i.isLt
        resp := some ⟨0x00, 0⟩ }
    ∧ exec (.ni16Set ⟨i, .lo⟩ v) s = .next { s with
        regs := s.regs.set i.val { s.reg i with b2 := v.extractLsb' 8 8, b3 := v.extractLsb' 0 8 } i.isLt
        resp := some ⟨0x00, 0⟩ }

/-- R72: the half as a number, and the round trip. -/
def Obligations.Ni16GetReadsOneHalf : Prop :=
  (∀ r, encode (.ni16Get r) = 0x11#8 ++ halfField r ++ 0#48)
  ∧ ∀ (i : Reg) (s : State), s.fault = 0 →
    exec (.ni16Get ⟨i, .hi⟩) s = .next { s with
        resp := some ⟨0x00, BitVec.ofNat 32 ((s.reg i).b0.toNat * 256 + (s.reg i).b1.toNat)⟩ }
    ∧ exec (.ni16Get ⟨i, .lo⟩) s = .next { s with
        resp := some ⟨0x00, BitVec.ofNat 32 ((s.reg i).b2.toNat * 256 + (s.reg i).b3.toNat)⟩ }
    ∧ ∀ h v, ∃ t, commands [.ni16Set ⟨i, h⟩ v, .ni16Get ⟨i, h⟩] s = some t ∧ t.resp = some ⟨0x00, v.setWidth 32⟩

/-- R73: two bytes verbatim, the cursor not moved; the overrun fault before the stale fault, and on a fault the register
is not written. -/
def Obligations.Ni16LdCopiesTwoBytes : Prop :=
  (∀ r (c : Cur), encode (.ni16Ld r c) = 0x12#8 ++ halfField r ++ BitVec.ofNat 8 c.val ++ 0#40)
  ∧ ∀ (i : Reg) (c : Cur) (s : State), s.fault = 0 →
    ((s.cur c).pos + 2 > (s.cur c).stop → ∀ h,
      exec (.ni16Ld ⟨i, h⟩ c) s = .next { s with fault := 0x03, resp := some ⟨0xF0, 0x03⟩ })
    ∧ ((s.cur c).pos + 2 ≤ (s.cur c).stop → (s.cur c).pos + 2 > s.len (s.cur c).buf → ∀ h,
      exec (.ni16Ld ⟨i, h⟩ c) s = .next { s with fault := 0x04, resp := some ⟨0xF0, 0x04⟩ })
    ∧ ((s.cur c).pos + 2 ≤ (s.cur c).stop → (s.cur c).pos + 2 ≤ s.len (s.cur c).buf →
      ∃ x0 x1, (s.buffer (s.cur c).buf).data[(s.cur c).pos]? = some x0
        ∧ (s.buffer (s.cur c).buf).data[(s.cur c).pos + 1]? = some x1
        ∧ exec (.ni16Ld ⟨i, .hi⟩ c) s = .next { s with
            regs := s.regs.set i.val { s.reg i with b0 := x0, b1 := x1 } i.isLt, resp := some ⟨0x00, 0⟩ }
        ∧ exec (.ni16Ld ⟨i, .lo⟩ c) s = .next { s with
            regs := s.regs.set i.val { s.reg i with b2 := x0, b3 := x1 } i.isLt, resp := some ⟨0x00, 0⟩ })

/-- R74, R75: byte-wise equality of two halves, and its negation. -/
def Obligations.Ni16EqAndNeCompareBytes : Prop :=
  (∀ r q, encode (.ni16Eq r q) = 0x13#8 ++ halfField r ++ halfField q ++ 0#40
    ∧ encode (.ni16Ne r q) = 0x14#8 ++ halfField r ++ halfField q ++ 0#40)
  ∧ (∀ (i : Reg) (s : State), s.half ⟨i, .hi⟩ = ((s.reg i).b0, (s.reg i).b1)
    ∧ s.half ⟨i, .lo⟩ = ((s.reg i).b2, (s.reg i).b3))
  ∧ ∀ (r q : HalfReg) (s : State), s.fault = 0 →
    exec (.ni16Eq r q) s = .next { s with resp := some ⟨0x00, if s.half r = s.half q then 1 else 0⟩ }
    ∧ exec (.ni16Ne r q) s = .next { s with resp := some ⟨0x00, if s.half r = s.half q then 0 else 1⟩ }

/-- R76, R77: equality of a half with a native integer, as numbers. -/
def Obligations.Ni16EqiAndNeiCompareWithANumber : Prop :=
  (∀ r v, encode (.ni16Eqi r v) = 0x15#8 ++ halfField r ++ v ++ 0#32
    ∧ encode (.ni16Nei r v) = 0x16#8 ++ halfField r ++ v ++ 0#32)
  ∧ ∀ (r : HalfReg) (v : Word16) (s : State), s.fault = 0 →
    exec (.ni16Eqi r v) s = .next { s with resp := some ⟨0x00, if pairValue (s.half r) = v.toNat then 1 else 0⟩ }
    ∧ exec (.ni16Nei r v) s = .next { s with resp := some ⟨0x00, if pairValue (s.half r) = v.toNat then 0 else 1⟩ }

/-! ### 32-bit network integers -/

/-- R78. -/
def Obligations.Ni32SetPacksFourBytes : Prop :=
  (∀ (r : Reg) v, encode (.ni32Set r v) = 0x20#8 ++ BitVec.ofNat 8 r.val ++ 0#16 ++ v)
  ∧ ∀ (r : Reg) (v : Word32) (s : State), s.fault = 0 →
    exec (.ni32Set r v) s = .next { s with
      regs := s.regs.set r.val
        ⟨v.extractLsb' 24 8, v.extractLsb' 16 8, v.extractLsb' 8 8, v.extractLsb' 0 8⟩ r.isLt
      resp := some ⟨0x00, 0⟩ }

/-- R79: the register as a number, and the round trip. -/
def Obligations.Ni32GetReadsTheValue : Prop :=
  (∀ r : Reg, encode (.ni32Get r) = 0x21#8 ++ BitVec.ofNat 8 r.val ++ 0#48)
  ∧ ∀ (r : Reg) (s : State), s.fault = 0 →
    exec (.ni32Get r) s = .next { s with resp := some ⟨0x00, BitVec.ofNat 32 (s.reg r).value⟩ }
    ∧ ∀ v, ∃ t, commands [.ni32Set r v, .ni32Get r] s = some t ∧ t.resp = some ⟨0x00, v⟩

/-- R80. -/
def Obligations.Ni32LdCopiesFourBytes : Prop :=
  (∀ (r : Reg) (c : Cur), encode (.ni32Ld r c) = 0x22#8 ++ BitVec.ofNat 8 r.val ++ BitVec.ofNat 8 c.val ++ 0#40)
  ∧ ∀ (r : Reg) (c : Cur) (s : State), s.fault = 0 →
    ((s.cur c).pos + 4 > (s.cur c).stop →
      exec (.ni32Ld r c) s = .next { s with fault := 0x03, resp := some ⟨0xF0, 0x03⟩ })
    ∧ ((s.cur c).pos + 4 ≤ (s.cur c).stop → (s.cur c).pos + 4 > s.len (s.cur c).buf →
      exec (.ni32Ld r c) s = .next { s with fault := 0x04, resp := some ⟨0xF0, 0x04⟩ })
    ∧ ((s.cur c).pos + 4 ≤ (s.cur c).stop → (s.cur c).pos + 4 ≤ s.len (s.cur c).buf →
      ∃ x0 x1 x2 x3, (s.buffer (s.cur c).buf).data[(s.cur c).pos]? = some x0
        ∧ (s.buffer (s.cur c).buf).data[(s.cur c).pos + 1]? = some x1
        ∧ (s.buffer (s.cur c).buf).data[(s.cur c).pos + 2]? = some x2
        ∧ (s.buffer (s.cur c).buf).data[(s.cur c).pos + 3]? = some x3
        ∧ exec (.ni32Ld r c) s = .next { s with
            regs := s.regs.set r.val ⟨x0, x1, x2, x3⟩ r.isLt, resp := some ⟨0x00, 0⟩ })

/-- R81, R82: byte-wise equality, and its negation. -/
def Obligations.Ni32EqAndNeCompareBytes : Prop :=
  (∀ r q : Reg, encode (.ni32Eq r q) = 0x23#8 ++ BitVec.ofNat 8 r.val ++ BitVec.ofNat 8 q.val ++ 0#40
    ∧ encode (.ni32Ne r q) = 0x24#8 ++ BitVec.ofNat 8 r.val ++ BitVec.ofNat 8 q.val ++ 0#40)
  ∧ ∀ (r q : Reg) (s : State), s.fault = 0 →
    exec (.ni32Eq r q) s = .next { s with resp := some ⟨0x00, if s.reg r = s.reg q then 1 else 0⟩ }
    ∧ exec (.ni32Ne r q) s = .next { s with resp := some ⟨0x00, if s.reg r = s.reg q then 0 else 1⟩ }

/-- R83, R84: equality with a native integer, as numbers. -/
def Obligations.Ni32EqiAndNeiCompareWithANumber : Prop :=
  (∀ (r : Reg) v, encode (.ni32Eqi r v) = 0x25#8 ++ BitVec.ofNat 8 r.val ++ 0#16 ++ v
    ∧ encode (.ni32Nei r v) = 0x26#8 ++ BitVec.ofNat 8 r.val ++ 0#16 ++ v)
  ∧ ∀ (r : Reg) (v : Word32) (s : State), s.fault = 0 →
    exec (.ni32Eqi r v) s = .next { s with resp := some ⟨0x00, if (s.reg r).value = v.toNat then 1 else 0⟩ }
    ∧ exec (.ni32Nei r v) s = .next { s with resp := some ⟨0x00, if (s.reg r).value = v.toNat then 0 else 1⟩ }

/-- R85: the byte loop is the increment modulo `2^32`. -/
def Obligations.Ni32IncAddsOneModuloTheWord : Prop :=
  (∀ r : Reg, encode (.ni32Inc r) = 0x27#8 ++ BitVec.ofNat 8 r.val ++ 0#48)
  ∧ ∀ (r : Reg) (s : State), s.fault = 0 →
    ∃ n : NetInt, exec (.ni32Inc r) s = .next { s with regs := s.regs.set r.val n r.isLt, resp := some ⟨0x00, 0⟩ }
      ∧ n.value = ((s.reg r).value + 1) % 2 ^ 32

/-- R86: the byte loop is the addition modulo `2^32` of the two values before the command, also for `i = j`. -/
def Obligations.Ni32AddAddsModuloTheWord : Prop :=
  (∀ r q : Reg, encode (.ni32Add r q) = 0x28#8 ++ BitVec.ofNat 8 r.val ++ BitVec.ofNat 8 q.val ++ 0#40)
  ∧ ∀ (r q : Reg) (s : State), s.fault = 0 →
    ∃ n : NetInt, exec (.ni32Add r q) s = .next { s with regs := s.regs.set r.val n r.isLt, resp := some ⟨0x00, 0⟩ }
      ∧ n.value = ((s.reg r).value + (s.reg q).value) % 2 ^ 32

/-- R87: the byte-wise order is the unsigned order of the values. -/
def Obligations.Ni32LtIsTheUnsignedOrder : Prop :=
  (∀ r q : Reg, encode (.ni32Lt r q) = 0x29#8 ++ BitVec.ofNat 8 r.val ++ BitVec.ofNat 8 q.val ++ 0#40)
  ∧ ∀ (r q : Reg) (s : State), s.fault = 0 →
    exec (.ni32Lt r q) s = .next { s with
      resp := some ⟨0x00, if (s.reg r).value < (s.reg q).value then 1 else 0⟩ }

/-- R88: the laws of conversion, as sequences of commands. -/
def Obligations.ConversionRoundTrips : Prop :=
  ∀ s : State, s.fault = 0 →
    (∀ r v, ∃ t, commands [.ni16Set r v, .ni16Get r] s = some t ∧ t.resp = some ⟨0x00, v.setWidth 32⟩)
    ∧ (∀ r v, ∃ t, commands [.ni32Set r v, .ni32Get r] s = some t ∧ t.resp = some ⟨0x00, v⟩)
    ∧ (∀ r v, ∃ t, commands [.ni32Set r v, .ni16Get ⟨r, .hi⟩] s = some t
        ∧ t.resp = some ⟨0x00, (v.extractLsb' 16 16).setWidth 32⟩)
    ∧ (∀ r v, ∃ t, commands [.ni32Set r v, .ni16Get ⟨r, .lo⟩] s = some t
        ∧ t.resp = some ⟨0x00, (v.extractLsb' 0 16).setWidth 32⟩)
    ∧ ∀ r (a b : Word16), ∃ t, commands [.ni16Set ⟨r, .hi⟩ a, .ni16Set ⟨r, .lo⟩ b, .ni32Get r] s = some t
        ∧ t.resp = some ⟨0x00, BitVec.ofNat 32 (a.toNat * 65536 + b.toNat)⟩

/-! ### Cursors -/

/-- R97, R98. -/
def Obligations.CurOpenSpansTheBufferAndCurRemCounts : Prop :=
  (∀ (c : Cur) b, encode (.curOpen c b) = 0x30#8 ++ BitVec.ofNat 8 c.val ++ BitVec.ofNat 8 b ++ 0#40)
  ∧ (∀ c : Cur, encode (.curRem c) = 0x31#8 ++ BitVec.ofNat 8 c.val ++ 0#48)
  ∧ (∀ (c : Cur) (b : Nat) (s : State), s.fault = 0 → b < s.cfg.nbuf →
    exec (.curOpen c b) s = .next { s with
      curs := s.curs.set c.val ⟨b, 0, 0, s.len b⟩ c.isLt, resp := some ⟨0x00, 0⟩ })
  ∧ ∀ (c : Cur) (s : State), s.fault = 0 →
    exec (.curRem c) s = .next { s with
      resp := some ⟨0x00, BitVec.ofNat 32 ((s.cur c).stop - (s.cur c).pos)⟩ }

/-- R99. -/
def Obligations.CurPeekReturnsTheByteOrFaults : Prop :=
  (∀ c : Cur, encode (.curPeek c) = 0x32#8 ++ BitVec.ofNat 8 c.val ++ 0#48)
  ∧ ∀ (c : Cur) (s : State), s.fault = 0 →
    ((s.cur c).pos + 1 > (s.cur c).stop →
      exec (.curPeek c) s = .next { s with fault := 0x02, resp := some ⟨0xF0, 0x02⟩ })
    ∧ ((s.cur c).pos + 1 ≤ (s.cur c).stop → (s.cur c).pos ≥ s.len (s.cur c).buf →
      exec (.curPeek c) s = .next { s with fault := 0x04, resp := some ⟨0xF0, 0x04⟩ })
    ∧ ((s.cur c).pos + 1 ≤ (s.cur c).stop → (s.cur c).pos < s.len (s.cur c).buf →
      ∃ x, (s.buffer (s.cur c).buf).data[(s.cur c).pos]? = some x
        ∧ exec (.curPeek c) s = .next { s with resp := some ⟨0x00, x.setWidth 32⟩ })

/-- R100, R101: the sum does not wrap; `CUR.INC` is `CUR.ADV` by 1. -/
def Obligations.CurIncAndAdvMoveForward : Prop :=
  (∀ c : Cur, encode (.curInc c) = 0x33#8 ++ BitVec.ofNat 8 c.val ++ 0#48)
  ∧ (∀ (c : Cur) n, encode (.curAdv c n) = 0x34#8 ++ BitVec.ofNat 8 c.val ++ n ++ 0#32)
  ∧ (∀ (c : Cur) (s : State), exec (.curInc c) s = exec (.curAdv c 1) s)
  ∧ (∀ (c : Cur) (s : State), s.fault = 0 →
    ((s.cur c).pos + 1 > (s.cur c).stop →
      exec (.curInc c) s = .next { s with fault := 0x01, resp := some ⟨0xF0, 0x01⟩ })
    ∧ ((s.cur c).pos + 1 ≤ (s.cur c).stop →
      exec (.curInc c) s = .next { s with
        curs := s.curs.set c.val { s.cur c with pos := (s.cur c).pos + 1 } c.isLt
        resp := some ⟨0x00, 0⟩ }))
  ∧ ∀ (c : Cur) (n : Word16) (s : State), s.fault = 0 →
    ((s.cur c).pos + n.toNat > (s.cur c).stop →
      exec (.curAdv c n) s = .next { s with fault := 0x01, resp := some ⟨0xF0, 0x01⟩ })
    ∧ ((s.cur c).pos + n.toNat ≤ (s.cur c).stop →
      exec (.curAdv c n) s = .next { s with
        curs := s.curs.set c.val { s.cur c with pos := (s.cur c).pos + n.toNat } c.isLt
        resp := some ⟨0x00, 0⟩ })

/-! ### Buffers -/

/-- R105: the three no-ops in the source's order, then the copy; the bytes already there, every other buffer and the
link of the node are unchanged. -/
def Obligations.BufAppendCopiesOrChangesNothing : Prop :=
  (∀ b n a, encode (.bufAppend b n a) = 0x40#8 ++ BitVec.ofNat 8 b ++ n ++ a)
  ∧ ∀ (b : Nat) (n : Word16) (a : Word32) (s : State) (B : Buffer), s.fault = 0 → b < s.cfg.nbuf →
    s.bufs[b]? = some B →
    (a = 0 → exec (.bufAppend b n a) s = .next { s with resp := some ⟨0x01, 0⟩ })
    ∧ (a ≠ 0 → n = 0 → exec (.bufAppend b n a) s = .next { s with resp := some ⟨0x02, 0⟩ })
    ∧ (a ≠ 0 → n ≠ 0 → B.data.length + n.toNat > 2 * s.cfg.capWords →
      exec (.bufAppend b n a) s = .next { s with resp := some ⟨0x03, 0⟩ })
    ∧ (a ≠ 0 → n ≠ 0 → B.data.length + n.toNat ≤ 2 * s.cfg.capWords →
      ∃ d : List Byte, exec (.bufAppend b n a) s = .next { s with
          bufs := s.bufs.set b { B with data := d }, resp := some ⟨0x00, 0⟩ }
        ∧ d.length = B.data.length + n.toNat
        ∧ (∀ i, i < B.data.length → d[i]? = B.data[i]?)
        ∧ ∀ i, i < n.toNat → d[B.data.length + i]? = some (s.src.read ((a.toNat + i) % 2 ^ 32)))

/-- R106, R107. -/
def Obligations.BufClearEmptiesAndBufLenCounts : Prop :=
  (∀ b, encode (.bufClear b) = 0x41#8 ++ BitVec.ofNat 8 b ++ 0#48
    ∧ encode (.bufLen b) = 0x42#8 ++ BitVec.ofNat 8 b ++ 0#48)
  ∧ ∀ (b : Nat) (s : State) (B : Buffer), s.fault = 0 → b < s.cfg.nbuf → s.bufs[b]? = some B →
    exec (.bufClear b) s = .next { s with bufs := s.bufs.set b { B with data := [] }, resp := some ⟨0x00, 0⟩ }
    ∧ exec (.bufLen b) s = .next { s with resp := some ⟨0x00, BitVec.ofNat 32 B.data.length⟩ }

/-- R108. -/
def Obligations.BufRdbReadsTheValidPrefix : Prop :=
  (∀ b idx, encode (.bufRdb b idx) = 0x43#8 ++ BitVec.ofNat 8 b ++ idx ++ 0#32)
  ∧ ∀ (b : Nat) (idx : Word16) (s : State) (B : Buffer), s.fault = 0 → b < s.cfg.nbuf → s.bufs[b]? = some B →
    (B.data.length ≤ idx.toNat → exec (.bufRdb b idx) s = .next { s with resp := some ⟨0x04, 0⟩ })
    ∧ (idx.toNat < B.data.length → ∃ x, B.data[idx.toNat]? = some x
        ∧ exec (.bufRdb b idx) s = .next { s with resp := some ⟨0x00, x.setWidth 32⟩ })

/-! ### Checksum accumulator -/

/-- R115, R116, R117. -/
def Obligations.AccumulatorClearsAndAccumulates : Prop :=
  (encode .csClear = 0x50#8 ++ 0#56 ∧ (∀ r, encode (.csAcc r) = 0x51#8 ++ halfField r ++ 0#48)
    ∧ ∀ w, encode (.csAcci w) = 0x52#8 ++ 0#8 ++ w ++ 0#32)
  ∧ ∀ s : State, s.fault = 0 →
    exec .csClear s = .next { s with sum := 0, resp := some ⟨0x00, 0⟩ }
    ∧ (∀ w, exec (.csAcci w) s = .next { s with
        sum := BitVec.ofNat 32 (s.sum.toNat + w.toNat), resp := some ⟨0x00, 0⟩ })
    ∧ ∀ r, exec (.csAcc r) s = .next { s with
        sum := BitVec.ofNat 32 (s.sum.toNat + pairValue (s.half r)), resp := some ⟨0x00, 0⟩ }

/-- R118: one pass adds the upper half into the lower, two passes always suffice; the result fits 16 bits, keeps the
residue modulo 65535, is 0 only for 0, and does not change when folded again. -/
def Obligations.FoldIsTheResidueModulo65535 : Prop :=
  ∀ s : Word32,
    (s.toNat ≤ 0xFFFF → fold s = s)
    ∧ (0xFFFF < s.toNat → fold s = fold (BitVec.ofNat 32 (s.toNat % 65536 + s.toNat / 65536)))
    ∧ (∀ p : Nat, p = s.toNat % 65536 + s.toNat / 65536 →
        p ≤ 0x1FFFE ∧ (fold s).toNat = p % 65536 + p / 65536)
    ∧ (fold s).toNat ≤ 0xFFFF
    ∧ (fold s).toNat % 65535 = s.toNat % 65535
    ∧ (fold s = 0 ↔ s = 0)
    ∧ fold (fold s) = fold s

/-- R119: the folded value is written back, not cleared, and its complement returned; a second `CS.SUM` answers the
same, and one in the middle of an accumulation that does not wrap changes nothing in the checksum at its end. -/
def Obligations.CsSumFoldsAndComplements : Prop :=
  encode .csSum = 0x53#8 ++ 0#56
  ∧ ∀ s : State, s.fault = 0 →
    exec .csSum s = .next { s with
      sum := fold s.sum, resp := some ⟨0x00, BitVec.ofNat 32 (0xFFFF - (fold s.sum).toNat)⟩ }
    ∧ commands [.csSum, .csSum] s = commands [.csSum] s
    ∧ ∀ ws : List Word16, s.sum.toNat + (ws.map BitVec.toNat).sum < 2 ^ 32 →
        ∃ t u, commands (.csSum :: (ws.map .csAcci ++ [.csSum])) s = some t
          ∧ commands (ws.map .csAcci ++ [.csSum]) s = some u ∧ t.resp = u.resp

/-- R120. -/
def Obligations.CsRangeSumsTheWordsOfARange : Prop :=
  (∀ b off n, encode (.csRange b off n) = 0x54#8 ++ BitVec.ofNat 8 b ++ off ++ n)
  ∧ ∀ (b : Nat) (off : Word16) (n : Word32) (s : State) (B : Buffer), s.fault = 0 → b < s.cfg.nbuf →
    s.bufs[b]? = some B →
    (off.toNat + n.toNat > B.data.length → exec (.csRange b off n) s = .next { s with resp := some ⟨0x04, 0⟩ })
    ∧ (off.toNat + n.toNat ≤ B.data.length → (off.toNat % 2 = 1 ∨ n.toNat % 2 = 1) →
      exec (.csRange b off n) s = .next { s with resp := some ⟨0x05, 0⟩ })
    ∧ (off.toNat + n.toNat ≤ B.data.length → off.toNat % 2 = 0 → n.toNat % 2 = 0 →
      exec (.csRange b off n) s = .next { s with
        sum := BitVec.ofNat 32 (s.sum.toNat + rangeWords B.data off.toNat
          (if n = 0 then B.data.length else off.toNat + n.toNat))
        resp := some ⟨0x00, 0⟩ })

/-- R121: the same tests on what the cursor has left, then the stale fault for a non-empty range beyond the valid
prefix; offsets count from the cursor position. A fresh cursor gives what `CS.RANGE` gives. -/
def Obligations.CsRangecSumsFromTheCursor : Prop :=
  (∀ (c : Cur) off n, encode (.csRangec c off n) = 0x55#8 ++ BitVec.ofNat 8 c.val ++ off ++ n)
  ∧ (∀ (c : Cur) (off : Word16) (n : Word32) (s : State), s.fault = 0 →
    ∀ L stop base : Nat, L = (s.cur c).stop - (s.cur c).pos → base = (s.cur c).pos →
      stop = (if n = 0 then L else off.toNat + n.toNat) →
    (off.toNat + n.toNat > L → exec (.csRangec c off n) s = .next { s with resp := some ⟨0x04, 0⟩ })
    ∧ (off.toNat + n.toNat ≤ L → (off.toNat % 2 = 1 ∨ n.toNat % 2 = 1) →
      exec (.csRangec c off n) s = .next { s with resp := some ⟨0x05, 0⟩ })
    ∧ (off.toNat + n.toNat ≤ L → off.toNat % 2 = 0 → n.toNat % 2 = 0 → off.toNat < stop →
      s.len (s.cur c).buf < base + stop →
      exec (.csRangec c off n) s = .next { s with fault := 0x04, resp := some ⟨0xF0, 0x04⟩ })
    ∧ (off.toNat + n.toNat ≤ L → off.toNat % 2 = 0 → n.toNat % 2 = 0 →
      (stop ≤ off.toNat ∨ base + stop ≤ s.len (s.cur c).buf) →
      exec (.csRangec c off n) s = .next { s with
        sum := BitVec.ofNat 32 (s.sum.toNat
          + rangeWords (s.buffer (s.cur c).buf).data (base + off.toNat) (base + stop))
        resp := some ⟨0x00, 0⟩ }))
  ∧ ∀ (c : Cur) (b : Nat) (off : Word16) (n : Word32) (s : State), s.fault = 0 → b < s.cfg.nbuf →
    s.cur c = ⟨b, 0, 0, s.len b⟩ → exec (.csRangec c off n) s = exec (.csRange b off n) s

/-- R122 (a), (c): what is accumulated does not depend on the order of the words; of nothing the checksum is 0xFFFF. -/
def Obligations.AccumulationIsOrderIndependent : Prop :=
  (∀ s : State, s.fault = 0 → ∃ t, commands [.csClear, .csSum] s = some t ∧ t.resp = some ⟨0x00, 0xFFFF⟩)
  ∧ ∀ (ws : List Word16) (s : State), s.fault = 0 → ws ≠ [] →
    commands (ws.map .csAcci) s = some { s with
      sum := BitVec.ofNat 32 (s.sum.toNat + (ws.map BitVec.toNat).sum), resp := some ⟨0x00, 0⟩ }
    ∧ ∀ vs, ws.Perm vs → commands (vs.map .csAcci) s = commands (ws.map .csAcci) s

/-- R122 (b): the checksum of a range whose 16-bit field, at an even distance from the even start, held zero, written
into that field, makes the checksum of the range 0. -/
def Obligations.ChecksumVerifiesItself : Prop :=
  ∀ (s s2 t : State) (b d : Nat) (off : Word16) (n : Word32) (B B2 : Buffer) (c : Word32),
    s.fault = 0 → s2.fault = 0 → b < s.cfg.nbuf → b < s2.cfg.nbuf → s.cfg.Ok → s.bufs[b]? = some B →
    s2.bufs[b]? = some B2 → B.data.length ≤ s.cfg.capacity →
    off.toNat + n.toNat ≤ B.data.length → off.toNat % 2 = 0 → n.toNat % 2 = 0 → d % 2 = 0 →
    off.toNat + d + 2 ≤ (if n = 0 then B.data.length else off.toNat + n.toNat) →
    B.data[off.toNat + d]? = some 0 → B.data[off.toNat + d + 1]? = some 0 →
    commands [.csClear, .csRange b off n, .csSum] s = some t → t.resp = some ⟨0x00, c⟩ →
    B2.data = (B.data.set (off.toNat + d) (c.extractLsb' 8 8)).set (off.toNat + d + 1) (c.extractLsb' 0 8) →
    ∃ u, commands [.csClear, .csRange b off n, .csSum] s2 = some u ∧ u.resp = some ⟨0x00, 0⟩

/-! ### Intrusive chains -/

/-- R130: the walk decides membership in the sequence and finds the node before. -/
def Obligations.WalkDecidesMembership : Prop :=
  ∀ (s : State) (L : List (List Nat)) (q k : Nat), Represents s L → q < s.cfg.nchain →
    (k ∉ L.getD q [] → s.walk q k = (false, none))
    ∧ ∀ pre post, L.getD q [] = pre ++ k :: post → s.walk q k = (true, pre.getLast?)

/-- R131: the three tests of an insertion, in their order, for the three inserting commands; a free node is inserted. -/
def Obligations.InsertionIsAdmittedInOrder : Prop :=
  ∀ (s : State) (L : List (List Nat)) (q : Nat) (i : NodeRef → Instr), s.fault = 0 → s.Sized → Represents s L →
    q < s.cfg.nchain → (i = .chPrepend q ∨ i = .chAppend q ∨ ∃ f, i = fun k => .chPush q k f) →
    exec (i none) s = .next { s with resp := some ⟨0x01, 0⟩ }
    ∧ (∀ k, k ∈ L.getD q [] → exec (i (some k)) s = .next { s with resp := some ⟨0x06, 0⟩ })
    ∧ (∀ k q2, q2 ≠ q → k ∈ L.getD q2 [] →
        exec (i (some k)) s = .next { s with fault := 0x05, resp := some ⟨0xF0, 0x05⟩ })
    ∧ ∀ k, k < s.cfg.nbuf → k ∉ L.flatten →
        ∃ t, exec (i (some k)) s = .next t ∧ t.resp = some ⟨0x00, 0⟩ ∧ t.reach q k = true

/-- R132, R133, R134 and R142: after the tests of R131 a free node enters the sequence at its head or at its tail; buffers
keep their bytes and nothing but links, descriptors and the response changes. The other two order laws of R142 stand
beside it: `CH.POP` takes the head and `CH.REMOVE` deletes the one occurrence of its node. -/
def Obligations.InsertionExtendsTheSequence : Prop :=
  (∀ q k, encode (.chPrepend q k) = 0x60#8 ++ BitVec.ofNat 8 q ++ BitVec.ofNat 8 (k.getD 255) ++ 0#40
    ∧ encode (.chAppend q k) = 0x61#8 ++ BitVec.ofNat 8 q ++ BitVec.ofNat 8 (k.getD 255) ++ 0#40
    ∧ ∀ f, encode (.chPush q k f) = 0x62#8 ++ BitVec.ofNat 8 q ++ BitVec.ofNat 8 (k.getD 255)
        ++ (if f then 1#8 else 0#8) ++ 0#32)
  ∧ (∀ (s : State) (q : Nat) (k : NodeRef), exec (.chPush q k false) s = exec (.chPrepend q k) s
    ∧ exec (.chPush q k true) s = exec (.chAppend q k) s)
  ∧ ∀ (s : State) (L : List (List Nat)) (q k : Nat), s.fault = 0 → s.Sized → Represents s L → q < s.cfg.nchain →
    (∀ m i, i = .chPrepend q m ∨ i = .chAppend q m →
      (m = none → exec i s = .next { s with resp := some ⟨0x01, 0⟩ })
      ∧ (∀ j, m = some j → j ∈ L.getD q [] → exec i s = .next { s with resp := some ⟨0x06, 0⟩ })
      ∧ ∀ j q2, m = some j → q2 ≠ q → j ∈ L.getD q2 [] →
        exec i s = .next { s with fault := 0x05, resp := some ⟨0xF0, 0x05⟩ })
    ∧ (∀ l, L.getD q [] = k :: l → ∃ t, exec (.chPop q) s = .next t
      ∧ t.resp = some ⟨0x00, BitVec.ofNat 32 k⟩ ∧ Represents t (L.set q l))
    ∧ (k ∈ L.getD q [] → ∃ t, exec (.chRemove q (some k)) s = .next t
      ∧ t.resp = some ⟨0x00, 0⟩ ∧ Represents t (L.set q ((L.getD q []).erase k)))
    ∧ (k < s.cfg.nbuf → k ∉ L.flatten →
    (∀ i, i = .chPrepend q (some k) ∨ i = .chPush q (some k) false → ∃ t, exec i s = .next t
      ∧ t = { s with bufs := t.bufs, chains := t.chains, resp := some ⟨0x00, 0⟩ }
      ∧ t.Sized ∧ (∀ b, (t.buffer b).data = (s.buffer b).data)
      ∧ Represents t (L.set q (k :: L.getD q [])))
    ∧ ∀ i, i = .chAppend q (some k) ∨ i = .chPush q (some k) true → ∃ t, exec i s = .next t
      ∧ t = { s with bufs := t.bufs, chains := t.chains, resp := some ⟨0x00, 0⟩ }
      ∧ t.Sized ∧ (∀ b, (t.buffer b).data = (s.buffer b).data)
      ∧ Represents t (L.set q (L.getD q [] ++ [k])))

/-- R136, R137 and R142: the head is returned, and with removal it leaves the sequence; an empty chain answers `EMPTY`
and nothing changes. -/
def Obligations.FirstAndPopTakeTheHead : Prop :=
  (∀ q, encode (.chFirst q false) = 0x63#8 ++ BitVec.ofNat 8 q ++ 0#48
    ∧ encode (.chFirst q true) = 0x63#8 ++ BitVec.ofNat 8 q ++ 1#8 ++ 0#40
    ∧ encode (.chPop q) = 0x64#8 ++ BitVec.ofNat 8 q ++ 0#48)
  ∧ (∀ (s : State) (q : Nat), exec (.chPop q) s = exec (.chFirst q true) s)
  ∧ ∀ (s : State) (L : List (List Nat)) (q : Nat), s.fault = 0 → s.Sized → Represents s L → q < s.cfg.nchain →
    (L.getD q [] = [] → ∀ i, i = .chPop q ∨ (∃ f, i = .chFirst q f) →
      exec i s = .next { s with resp := some ⟨0x08, 0xFF⟩ })
    ∧ ∀ k l, L.getD q [] = k :: l →
      exec (.chFirst q false) s = .next { s with resp := some ⟨0x00, BitVec.ofNat 32 k⟩ }
      ∧ ∀ i, i = .chFirst q true ∨ i = .chPop q → ∃ t, exec i s = .next t
        ∧ t = { s with bufs := t.bufs, chains := t.chains, resp := some ⟨0x00, BitVec.ofNat 32 k⟩ }
        ∧ t.Sized ∧ (∀ b, (t.buffer b).data = (s.buffer b).data) ∧ Represents t (L.set q l)

/-- R138, R135 and R142: the one occurrence of the node leaves the sequence; a null or absent node is a no-op. -/
def Obligations.RemoveDeletesTheOneOccurrence : Prop :=
  (∀ q k, encode (.chRemove q k) = 0x65#8 ++ BitVec.ofNat 8 q ++ BitVec.ofNat 8 (k.getD 255) ++ 0#40)
  ∧ ∀ (s : State) (L : List (List Nat)) (q : Nat), s.fault = 0 → s.Sized → Represents s L → q < s.cfg.nchain →
    exec (.chRemove q none) s = .next { s with resp := some ⟨0x01, 0⟩ }
    ∧ (∀ k, k < s.cfg.nbuf → k ∉ L.getD q [] →
      exec (.chRemove q (some k)) s = .next { s with resp := some ⟨0x07, 0⟩ })
    ∧ ∀ k, k ∈ L.getD q [] → ∃ t, exec (.chRemove q (some k)) s = .next t
      ∧ t = { s with bufs := t.bufs, chains := t.chains, resp := some ⟨0x00, 0⟩ }
      ∧ t.Sized ∧ (∀ b, (t.buffer b).data = (s.buffer b).data) ∧ Represents t (L.set q ((L.getD q []).erase k))

/-- R139, R140, R141: membership, one link and the tail are reported and nothing changes. -/
def Obligations.HasNextAndLastReportTheLinks : Prop :=
  (∀ q k, encode (.chHas q k) = 0x66#8 ++ BitVec.ofNat 8 q ++ BitVec.ofNat 8 (k.getD 255) ++ 0#40
    ∧ encode (.chNext k) = 0x67#8 ++ BitVec.ofNat 8 (k.getD 255) ++ 0#48
    ∧ encode (.chLast q) = 0x68#8 ++ BitVec.ofNat 8 q ++ 0#48)
  ∧ (∀ (s : State) (k : Nat), s.fault = 0 → k < s.cfg.nbuf →
    exec (.chNext none) s = .next { s with resp := some ⟨0x01, 0xFF⟩ }
    ∧ exec (.chNext (some k)) s = .next { s with resp := some ⟨0x00, BitVec.ofNat 32 ((s.next k).getD 255)⟩ })
  ∧ ∀ (s : State) (L : List (List Nat)) (q : Nat), s.fault = 0 → Represents s L → q < s.cfg.nchain →
    exec (.chHas q none) s = .next { s with resp := some ⟨0x01, 0⟩ }
    ∧ (∀ k, k < s.cfg.nbuf →
      exec (.chHas q (some k)) s = .next { s with resp := some ⟨0x00, if k ∈ L.getD q [] then 1 else 0⟩ })
    ∧ (L.getD q [] = [] → exec (.chLast q) s = .next { s with resp := some ⟨0x08, 0xFF⟩ })
    ∧ ∀ l k, L.getD q [] = l ++ [k] → exec (.chLast q) s = .next { s with resp := some ⟨0x00, BitVec.ofNat 32 k⟩ }

/-- R142, the source's property: pushed onto an empty chain A, B, C are popped C, B, A with `useFIFO` 0 and A, B, C with
`useFIFO` 1. -/
def Obligations.PushThenPopIsLifoOrFifo : Prop :=
  ∀ (s : State) (L : List (List Nat)) (q a b c : Nat), s.fault = 0 → s.Sized → Represents s L → q < s.cfg.nchain →
    L.getD q [] = [] → [a, b, c].Nodup → (∀ k ∈ [a, b, c], k < s.cfg.nbuf ∧ k ∉ L.flatten) →
    ∀ f : Bool, ∃ t1 t2 t3,
      commands [.chPush q (some a) f, .chPush q (some b) f, .chPush q (some c) f, .chPop q] s = some t1
      ∧ commands [.chPop q] t1 = some t2 ∧ commands [.chPop q] t2 = some t3
      ∧ t1.resp = some ⟨0x00, BitVec.ofNat 32 (if f then a else c)⟩
      ∧ t2.resp = some ⟨0x00, BitVec.ofNat 32 b⟩
      ∧ t3.resp = some ⟨0x00, BitVec.ofNat 32 (if f then c else a)⟩

/-! ### The invariant -/

/-- R17: in every state the machine reaches from reset, whatever the configuration, SRC and the host's actions, the
chain invariants I1 to I5 hold. -/
def Obligations.ChainInvariantsHoldInEveryReachableState : Prop :=
  ∀ (cfg : Config) (epoch : Nat) (src : Memory) (actions : List HostAction) (n : Nat) (s : State), cfg.Ok → src.wf →
    steps n (State.resetOf cfg epoch src actions) = some s →
    (∀ q, q < cfg.nchain →
      ((s.chain q).first = none ↔ (s.chain q).last = none)
      ∧ (∀ l, (s.chain q).last = some l → s.next l = none)
      ∧ ∃ p : List Nat, linked s (s.chain q).first p = true ∧ p.getLast? = (s.chain q).last ∧ p.Nodup
        ∧ p.length ≤ cfg.nbuf)
    ∧ (∀ q q2 k, q < cfg.nchain → q2 < cfg.nchain → s.reach q k = true → s.reach q2 k = true → q = q2)
    ∧ ∀ k, k < cfg.nbuf → (∀ q, q < cfg.nchain → s.reach q k = false) → s.next k = none

/-- Every step keeps the invariant. -/
def Obligations.EveryStepKeepsTheInvariant : Prop :=
  ∀ s t : State, s.Inv → step s = .next t → t.Inv

/-- The invariant holds after reset, whatever the configuration, SRC and the host's actions, and so of `State.reset`. -/
def Obligations.TheInvariantHoldsAtReset : Prop :=
  (∀ (cfg : Config) (epoch : Nat) (src : Memory) (actions : List HostAction), cfg.Ok → src.wf →
    (State.resetOf cfg epoch src actions).Inv)
  ∧ State.reset.Inv
end

