-- ==== Sys2Proof/Laws/State.lean ====
section
/-! SUPPORT. The small lemmas of the state: what each field and each accessor is after each update, so that no later
proof unfolds a record update. -/

namespace Sys2Proof.Machine

variable (s : State)

/-! ### `State.setReg` -/

@[simp] theorem State.setReg_cfg (i : Reg) (v : NetInt) : (s.setReg i v).cfg = s.cfg := rfl
@[simp] theorem State.setReg_regs (i : Reg) (v : NetInt) : (s.setReg i v).regs = s.regs.set i.val v i.isLt := rfl
@[simp] theorem State.setReg_bufs (i : Reg) (v : NetInt) : (s.setReg i v).bufs = s.bufs := rfl
@[simp] theorem State.setReg_curs (i : Reg) (v : NetInt) : (s.setReg i v).curs = s.curs := rfl
@[simp] theorem State.setReg_sum (i : Reg) (v : NetInt) : (s.setReg i v).sum = s.sum := rfl
@[simp] theorem State.setReg_chains (i : Reg) (v : NetInt) : (s.setReg i v).chains = s.chains := rfl
@[simp] theorem State.setReg_fault (i : Reg) (v : NetInt) : (s.setReg i v).fault = s.fault := rfl
@[simp] theorem State.setReg_epoch (i : Reg) (v : NetInt) : (s.setReg i v).epoch = s.epoch := rfl
@[simp] theorem State.setReg_src (i : Reg) (v : NetInt) : (s.setReg i v).src = s.src := rfl
@[simp] theorem State.setReg_actions (i : Reg) (v : NetInt) : (s.setReg i v).actions = s.actions := rfl
@[simp] theorem State.setReg_resp (i : Reg) (v : NetInt) : (s.setReg i v).resp = s.resp := rfl
@[simp] theorem State.setReg_cur (i : Reg) (v : NetInt) (d : Cur) : (s.setReg i v).cur d = s.cur d := rfl
@[simp] theorem State.setReg_remaining (i : Reg) (v : NetInt) (d : Cur) : (s.setReg i v).remaining d = s.remaining d := rfl
@[simp] theorem State.setReg_buffer (i : Reg) (v : NetInt) (m : Nat) : (s.setReg i v).buffer m = s.buffer m := rfl
@[simp] theorem State.setReg_len (i : Reg) (v : NetInt) (m : Nat) : (s.setReg i v).len m = s.len m := rfl
@[simp] theorem State.setReg_next (i : Reg) (v : NetInt) (m : Nat) : (s.setReg i v).next m = s.next m := rfl
@[simp] theorem State.setReg_readBuf (i : Reg) (v : NetInt) (m x y : Nat) : (s.setReg i v).readBuf m x y = s.readBuf m x y := rfl
@[simp] theorem State.setReg_chain (i : Reg) (v : NetInt) (p : Nat) : (s.setReg i v).chain p = s.chain p := rfl
@[simp] theorem State.setReg_readSrc (i : Reg) (v : NetInt) (z : Word32) (y : Nat) : (s.setReg i v).readSrc z y = s.readSrc z y := rfl

/-! ### `State.setCur` -/

@[simp] theorem State.setCur_cfg (c : Cur) (v : Cursor) : (s.setCur c v).cfg = s.cfg := rfl
@[simp] theorem State.setCur_regs (c : Cur) (v : Cursor) : (s.setCur c v).regs = s.regs := rfl
@[simp] theorem State.setCur_bufs (c : Cur) (v : Cursor) : (s.setCur c v).bufs = s.bufs := rfl
@[simp] theorem State.setCur_curs (c : Cur) (v : Cursor) : (s.setCur c v).curs = s.curs.set c.val v c.isLt := rfl
@[simp] theorem State.setCur_sum (c : Cur) (v : Cursor) : (s.setCur c v).sum = s.sum := rfl
@[simp] theorem State.setCur_chains (c : Cur) (v : Cursor) : (s.setCur c v).chains = s.chains := rfl
@[simp] theorem State.setCur_fault (c : Cur) (v : Cursor) : (s.setCur c v).fault = s.fault := rfl
@[simp] theorem State.setCur_epoch (c : Cur) (v : Cursor) : (s.setCur c v).epoch = s.epoch := rfl
@[simp] theorem State.setCur_src (c : Cur) (v : Cursor) : (s.setCur c v).src = s.src := rfl
@[simp] theorem State.setCur_actions (c : Cur) (v : Cursor) : (s.setCur c v).actions = s.actions := rfl
@[simp] theorem State.setCur_resp (c : Cur) (v : Cursor) : (s.setCur c v).resp = s.resp := rfl
@[simp] theorem State.setCur_reg (c : Cur) (v : Cursor) (j : Reg) : (s.setCur c v).reg j = s.reg j := rfl
@[simp] theorem State.setCur_half (c : Cur) (v : Cursor) (g : HalfReg) : (s.setCur c v).half g = s.half g := rfl
@[simp] theorem State.setCur_buffer (c : Cur) (v : Cursor) (m : Nat) : (s.setCur c v).buffer m = s.buffer m := rfl
@[simp] theorem State.setCur_len (c : Cur) (v : Cursor) (m : Nat) : (s.setCur c v).len m = s.len m := rfl
@[simp] theorem State.setCur_next (c : Cur) (v : Cursor) (m : Nat) : (s.setCur c v).next m = s.next m := rfl
@[simp] theorem State.setCur_readBuf (c : Cur) (v : Cursor) (m x y : Nat) : (s.setCur c v).readBuf m x y = s.readBuf m x y := rfl
@[simp] theorem State.setCur_chain (c : Cur) (v : Cursor) (p : Nat) : (s.setCur c v).chain p = s.chain p := rfl
@[simp] theorem State.setCur_readSrc (c : Cur) (v : Cursor) (z : Word32) (y : Nat) : (s.setCur c v).readSrc z y = s.readSrc z y := rfl

/-! ### `State.setBuf` -/

@[simp] theorem State.setBuf_cfg (b : Nat) (v : Buffer) : (s.setBuf b v).cfg = s.cfg := rfl
@[simp] theorem State.setBuf_regs (b : Nat) (v : Buffer) : (s.setBuf b v).regs = s.regs := rfl
@[simp] theorem State.setBuf_bufs (b : Nat) (v : Buffer) : (s.setBuf b v).bufs = s.bufs.set b v := rfl
@[simp] theorem State.setBuf_curs (b : Nat) (v : Buffer) : (s.setBuf b v).curs = s.curs := rfl
@[simp] theorem State.setBuf_sum (b : Nat) (v : Buffer) : (s.setBuf b v).sum = s.sum := rfl
@[simp] theorem State.setBuf_chains (b : Nat) (v : Buffer) : (s.setBuf b v).chains = s.chains := rfl
@[simp] theorem State.setBuf_fault (b : Nat) (v : Buffer) : (s.setBuf b v).fault = s.fault := rfl
@[simp] theorem State.setBuf_epoch (b : Nat) (v : Buffer) : (s.setBuf b v).epoch = s.epoch := rfl
@[simp] theorem State.setBuf_src (b : Nat) (v : Buffer) : (s.setBuf b v).src = s.src := rfl
@[simp] theorem State.setBuf_actions (b : Nat) (v : Buffer) : (s.setBuf b v).actions = s.actions := rfl
@[simp] theorem State.setBuf_resp (b : Nat) (v : Buffer) : (s.setBuf b v).resp = s.resp := rfl
@[simp] theorem State.setBuf_reg (b : Nat) (v : Buffer) (j : Reg) : (s.setBuf b v).reg j = s.reg j := rfl
@[simp] theorem State.setBuf_half (b : Nat) (v : Buffer) (g : HalfReg) : (s.setBuf b v).half g = s.half g := rfl
@[simp] theorem State.setBuf_cur (b : Nat) (v : Buffer) (d : Cur) : (s.setBuf b v).cur d = s.cur d := rfl
@[simp] theorem State.setBuf_remaining (b : Nat) (v : Buffer) (d : Cur) : (s.setBuf b v).remaining d = s.remaining d := rfl
@[simp] theorem State.setBuf_chain (b : Nat) (v : Buffer) (p : Nat) : (s.setBuf b v).chain p = s.chain p := rfl
@[simp] theorem State.setBuf_readSrc (b : Nat) (v : Buffer) (z : Word32) (y : Nat) : (s.setBuf b v).readSrc z y = s.readSrc z y := rfl

/-! ### `State.setChain` -/

@[simp] theorem State.setChain_cfg (q : Nat) (v : Chain) : (s.setChain q v).cfg = s.cfg := rfl
@[simp] theorem State.setChain_regs (q : Nat) (v : Chain) : (s.setChain q v).regs = s.regs := rfl
@[simp] theorem State.setChain_bufs (q : Nat) (v : Chain) : (s.setChain q v).bufs = s.bufs := rfl
@[simp] theorem State.setChain_curs (q : Nat) (v : Chain) : (s.setChain q v).curs = s.curs := rfl
@[simp] theorem State.setChain_sum (q : Nat) (v : Chain) : (s.setChain q v).sum = s.sum := rfl
@[simp] theorem State.setChain_chains (q : Nat) (v : Chain) : (s.setChain q v).chains = s.chains.set q v := rfl
@[simp] theorem State.setChain_fault (q : Nat) (v : Chain) : (s.setChain q v).fault = s.fault := rfl
@[simp] theorem State.setChain_epoch (q : Nat) (v : Chain) : (s.setChain q v).epoch = s.epoch := rfl
@[simp] theorem State.setChain_src (q : Nat) (v : Chain) : (s.setChain q v).src = s.src := rfl
@[simp] theorem State.setChain_actions (q : Nat) (v : Chain) : (s.setChain q v).actions = s.actions := rfl
@[simp] theorem State.setChain_resp (q : Nat) (v : Chain) : (s.setChain q v).resp = s.resp := rfl
@[simp] theorem State.setChain_reg (q : Nat) (v : Chain) (j : Reg) : (s.setChain q v).reg j = s.reg j := rfl
@[simp] theorem State.setChain_half (q : Nat) (v : Chain) (g : HalfReg) : (s.setChain q v).half g = s.half g := rfl
@[simp] theorem State.setChain_cur (q : Nat) (v : Chain) (d : Cur) : (s.setChain q v).cur d = s.cur d := rfl
@[simp] theorem State.setChain_remaining (q : Nat) (v : Chain) (d : Cur) : (s.setChain q v).remaining d = s.remaining d := rfl
@[simp] theorem State.setChain_buffer (q : Nat) (v : Chain) (m : Nat) : (s.setChain q v).buffer m = s.buffer m := rfl
@[simp] theorem State.setChain_len (q : Nat) (v : Chain) (m : Nat) : (s.setChain q v).len m = s.len m := rfl
@[simp] theorem State.setChain_next (q : Nat) (v : Chain) (m : Nat) : (s.setChain q v).next m = s.next m := rfl
@[simp] theorem State.setChain_readBuf (q : Nat) (v : Chain) (m x y : Nat) : (s.setChain q v).readBuf m x y = s.readBuf m x y := rfl
@[simp] theorem State.setChain_readSrc (q : Nat) (v : Chain) (z : Word32) (y : Nat) : (s.setChain q v).readSrc z y = s.readSrc z y := rfl

/-! ### `State.setSum` -/

@[simp] theorem State.setSum_cfg (v : Word32) : (s.setSum v).cfg = s.cfg := rfl
@[simp] theorem State.setSum_regs (v : Word32) : (s.setSum v).regs = s.regs := rfl
@[simp] theorem State.setSum_bufs (v : Word32) : (s.setSum v).bufs = s.bufs := rfl
@[simp] theorem State.setSum_curs (v : Word32) : (s.setSum v).curs = s.curs := rfl
@[simp] theorem State.setSum_sum (v : Word32) : (s.setSum v).sum = v := rfl
@[simp] theorem State.setSum_chains (v : Word32) : (s.setSum v).chains = s.chains := rfl
@[simp] theorem State.setSum_fault (v : Word32) : (s.setSum v).fault = s.fault := rfl
@[simp] theorem State.setSum_epoch (v : Word32) : (s.setSum v).epoch = s.epoch := rfl
@[simp] theorem State.setSum_src (v : Word32) : (s.setSum v).src = s.src := rfl
@[simp] theorem State.setSum_actions (v : Word32) : (s.setSum v).actions = s.actions := rfl
@[simp] theorem State.setSum_resp (v : Word32) : (s.setSum v).resp = s.resp := rfl
@[simp] theorem State.setSum_reg (v : Word32) (j : Reg) : (s.setSum v).reg j = s.reg j := rfl
@[simp] theorem State.setSum_half (v : Word32) (g : HalfReg) : (s.setSum v).half g = s.half g := rfl
@[simp] theorem State.setSum_cur (v : Word32) (d : Cur) : (s.setSum v).cur d = s.cur d := rfl
@[simp] theorem State.setSum_remaining (v : Word32) (d : Cur) : (s.setSum v).remaining d = s.remaining d := rfl
@[simp] theorem State.setSum_buffer (v : Word32) (m : Nat) : (s.setSum v).buffer m = s.buffer m := rfl
@[simp] theorem State.setSum_len (v : Word32) (m : Nat) : (s.setSum v).len m = s.len m := rfl
@[simp] theorem State.setSum_next (v : Word32) (m : Nat) : (s.setSum v).next m = s.next m := rfl
@[simp] theorem State.setSum_readBuf (v : Word32) (m x y : Nat) : (s.setSum v).readBuf m x y = s.readBuf m x y := rfl
@[simp] theorem State.setSum_chain (v : Word32) (p : Nat) : (s.setSum v).chain p = s.chain p := rfl
@[simp] theorem State.setSum_readSrc (v : Word32) (z : Word32) (y : Nat) : (s.setSum v).readSrc z y = s.readSrc z y := rfl

/-! ### `State.setFault` -/

@[simp] theorem State.setFault_cfg (v : Byte) : (s.setFault v).cfg = s.cfg := rfl
@[simp] theorem State.setFault_regs (v : Byte) : (s.setFault v).regs = s.regs := rfl
@[simp] theorem State.setFault_bufs (v : Byte) : (s.setFault v).bufs = s.bufs := rfl
@[simp] theorem State.setFault_curs (v : Byte) : (s.setFault v).curs = s.curs := rfl
@[simp] theorem State.setFault_sum (v : Byte) : (s.setFault v).sum = s.sum := rfl
@[simp] theorem State.setFault_chains (v : Byte) : (s.setFault v).chains = s.chains := rfl
@[simp] theorem State.setFault_fault (v : Byte) : (s.setFault v).fault = v := rfl
@[simp] theorem State.setFault_epoch (v : Byte) : (s.setFault v).epoch = s.epoch := rfl
@[simp] theorem State.setFault_src (v : Byte) : (s.setFault v).src = s.src := rfl
@[simp] theorem State.setFault_actions (v : Byte) : (s.setFault v).actions = s.actions := rfl
@[simp] theorem State.setFault_resp (v : Byte) : (s.setFault v).resp = s.resp := rfl
@[simp] theorem State.setFault_reg (v : Byte) (j : Reg) : (s.setFault v).reg j = s.reg j := rfl
@[simp] theorem State.setFault_half (v : Byte) (g : HalfReg) : (s.setFault v).half g = s.half g := rfl
@[simp] theorem State.setFault_cur (v : Byte) (d : Cur) : (s.setFault v).cur d = s.cur d := rfl
@[simp] theorem State.setFault_remaining (v : Byte) (d : Cur) : (s.setFault v).remaining d = s.remaining d := rfl
@[simp] theorem State.setFault_buffer (v : Byte) (m : Nat) : (s.setFault v).buffer m = s.buffer m := rfl
@[simp] theorem State.setFault_len (v : Byte) (m : Nat) : (s.setFault v).len m = s.len m := rfl
@[simp] theorem State.setFault_next (v : Byte) (m : Nat) : (s.setFault v).next m = s.next m := rfl
@[simp] theorem State.setFault_readBuf (v : Byte) (m x y : Nat) : (s.setFault v).readBuf m x y = s.readBuf m x y := rfl
@[simp] theorem State.setFault_chain (v : Byte) (p : Nat) : (s.setFault v).chain p = s.chain p := rfl
@[simp] theorem State.setFault_readSrc (v : Byte) (z : Word32) (y : Nat) : (s.setFault v).readSrc z y = s.readSrc z y := rfl

/-! ### `State.setActions` -/

@[simp] theorem State.setActions_cfg (l : List HostAction) : (s.setActions l).cfg = s.cfg := rfl
@[simp] theorem State.setActions_regs (l : List HostAction) : (s.setActions l).regs = s.regs := rfl
@[simp] theorem State.setActions_bufs (l : List HostAction) : (s.setActions l).bufs = s.bufs := rfl
@[simp] theorem State.setActions_curs (l : List HostAction) : (s.setActions l).curs = s.curs := rfl
@[simp] theorem State.setActions_sum (l : List HostAction) : (s.setActions l).sum = s.sum := rfl
@[simp] theorem State.setActions_chains (l : List HostAction) : (s.setActions l).chains = s.chains := rfl
@[simp] theorem State.setActions_fault (l : List HostAction) : (s.setActions l).fault = s.fault := rfl
@[simp] theorem State.setActions_epoch (l : List HostAction) : (s.setActions l).epoch = s.epoch := rfl
@[simp] theorem State.setActions_src (l : List HostAction) : (s.setActions l).src = s.src := rfl
@[simp] theorem State.setActions_actions (l : List HostAction) : (s.setActions l).actions = l := rfl
@[simp] theorem State.setActions_resp (l : List HostAction) : (s.setActions l).resp = s.resp := rfl
@[simp] theorem State.setActions_reg (l : List HostAction) (j : Reg) : (s.setActions l).reg j = s.reg j := rfl
@[simp] theorem State.setActions_half (l : List HostAction) (g : HalfReg) : (s.setActions l).half g = s.half g := rfl
@[simp] theorem State.setActions_cur (l : List HostAction) (d : Cur) : (s.setActions l).cur d = s.cur d := rfl
@[simp] theorem State.setActions_remaining (l : List HostAction) (d : Cur) : (s.setActions l).remaining d = s.remaining d := rfl
@[simp] theorem State.setActions_buffer (l : List HostAction) (m : Nat) : (s.setActions l).buffer m = s.buffer m := rfl
@[simp] theorem State.setActions_len (l : List HostAction) (m : Nat) : (s.setActions l).len m = s.len m := rfl
@[simp] theorem State.setActions_next (l : List HostAction) (m : Nat) : (s.setActions l).next m = s.next m := rfl
@[simp] theorem State.setActions_readBuf (l : List HostAction) (m x y : Nat) : (s.setActions l).readBuf m x y = s.readBuf m x y := rfl
@[simp] theorem State.setActions_chain (l : List HostAction) (p : Nat) : (s.setActions l).chain p = s.chain p := rfl
@[simp] theorem State.setActions_readSrc (l : List HostAction) (z : Word32) (y : Nat) : (s.setActions l).readSrc z y = s.readSrc z y := rfl

/-! ### `State.respond` -/

@[simp] theorem State.respond_cfg (st : Status) (r : Word32) : (s.respond st r).cfg = s.cfg := rfl
@[simp] theorem State.respond_regs (st : Status) (r : Word32) : (s.respond st r).regs = s.regs := rfl
@[simp] theorem State.respond_bufs (st : Status) (r : Word32) : (s.respond st r).bufs = s.bufs := rfl
@[simp] theorem State.respond_curs (st : Status) (r : Word32) : (s.respond st r).curs = s.curs := rfl
@[simp] theorem State.respond_sum (st : Status) (r : Word32) : (s.respond st r).sum = s.sum := rfl
@[simp] theorem State.respond_chains (st : Status) (r : Word32) : (s.respond st r).chains = s.chains := rfl
@[simp] theorem State.respond_fault (st : Status) (r : Word32) : (s.respond st r).fault = s.fault := rfl
@[simp] theorem State.respond_epoch (st : Status) (r : Word32) : (s.respond st r).epoch = s.epoch := rfl
@[simp] theorem State.respond_src (st : Status) (r : Word32) : (s.respond st r).src = s.src := rfl
@[simp] theorem State.respond_actions (st : Status) (r : Word32) : (s.respond st r).actions = s.actions := rfl
@[simp] theorem State.respond_resp (st : Status) (r : Word32) : (s.respond st r).resp = some ⟨st.code, r⟩ := rfl
@[simp] theorem State.respond_reg (st : Status) (r : Word32) (j : Reg) : (s.respond st r).reg j = s.reg j := rfl
@[simp] theorem State.respond_half (st : Status) (r : Word32) (g : HalfReg) : (s.respond st r).half g = s.half g := rfl
@[simp] theorem State.respond_cur (st : Status) (r : Word32) (d : Cur) : (s.respond st r).cur d = s.cur d := rfl
@[simp] theorem State.respond_remaining (st : Status) (r : Word32) (d : Cur) : (s.respond st r).remaining d = s.remaining d := rfl
@[simp] theorem State.respond_buffer (st : Status) (r : Word32) (m : Nat) : (s.respond st r).buffer m = s.buffer m := rfl
@[simp] theorem State.respond_len (st : Status) (r : Word32) (m : Nat) : (s.respond st r).len m = s.len m := rfl
@[simp] theorem State.respond_next (st : Status) (r : Word32) (m : Nat) : (s.respond st r).next m = s.next m := rfl
@[simp] theorem State.respond_readBuf (st : Status) (r : Word32) (m x y : Nat) : (s.respond st r).readBuf m x y = s.readBuf m x y := rfl
@[simp] theorem State.respond_chain (st : Status) (r : Word32) (p : Nat) : (s.respond st r).chain p = s.chain p := rfl
@[simp] theorem State.respond_readSrc (st : Status) (r : Word32) (z : Word32) (y : Nat) : (s.respond st r).readSrc z y = s.readSrc z y := rfl

/-! ### `State.setData` -/

@[simp] theorem State.setData_cfg (b : Nat) (w : List Byte) : (s.setData b w).cfg = s.cfg := rfl
@[simp] theorem State.setData_regs (b : Nat) (w : List Byte) : (s.setData b w).regs = s.regs := rfl
@[simp] theorem State.setData_bufs (b : Nat) (w : List Byte) : (s.setData b w).bufs = s.bufs.set b { s.buffer b with data := w } := rfl
@[simp] theorem State.setData_curs (b : Nat) (w : List Byte) : (s.setData b w).curs = s.curs := rfl
@[simp] theorem State.setData_sum (b : Nat) (w : List Byte) : (s.setData b w).sum = s.sum := rfl
@[simp] theorem State.setData_chains (b : Nat) (w : List Byte) : (s.setData b w).chains = s.chains := rfl
@[simp] theorem State.setData_fault (b : Nat) (w : List Byte) : (s.setData b w).fault = s.fault := rfl
@[simp] theorem State.setData_epoch (b : Nat) (w : List Byte) : (s.setData b w).epoch = s.epoch := rfl
@[simp] theorem State.setData_src (b : Nat) (w : List Byte) : (s.setData b w).src = s.src := rfl
@[simp] theorem State.setData_actions (b : Nat) (w : List Byte) : (s.setData b w).actions = s.actions := rfl
@[simp] theorem State.setData_resp (b : Nat) (w : List Byte) : (s.setData b w).resp = s.resp := rfl
@[simp] theorem State.setData_reg (b : Nat) (w : List Byte) (j : Reg) : (s.setData b w).reg j = s.reg j := rfl
@[simp] theorem State.setData_half (b : Nat) (w : List Byte) (g : HalfReg) : (s.setData b w).half g = s.half g := rfl
@[simp] theorem State.setData_cur (b : Nat) (w : List Byte) (d : Cur) : (s.setData b w).cur d = s.cur d := rfl
@[simp] theorem State.setData_remaining (b : Nat) (w : List Byte) (d : Cur) : (s.setData b w).remaining d = s.remaining d := rfl
@[simp] theorem State.setData_chain (b : Nat) (w : List Byte) (p : Nat) : (s.setData b w).chain p = s.chain p := rfl
@[simp] theorem State.setData_readSrc (b : Nat) (w : List Byte) (z : Word32) (y : Nat) : (s.setData b w).readSrc z y = s.readSrc z y := rfl

/-! ### `State.setNext` -/

@[simp] theorem State.setNext_cfg (k : Nat) (r : NodeRef) : (s.setNext k r).cfg = s.cfg := rfl
@[simp] theorem State.setNext_regs (k : Nat) (r : NodeRef) : (s.setNext k r).regs = s.regs := rfl
@[simp] theorem State.setNext_bufs (k : Nat) (r : NodeRef) : (s.setNext k r).bufs = s.bufs.set k { s.buffer k with next := r } := rfl
@[simp] theorem State.setNext_curs (k : Nat) (r : NodeRef) : (s.setNext k r).curs = s.curs := rfl
@[simp] theorem State.setNext_sum (k : Nat) (r : NodeRef) : (s.setNext k r).sum = s.sum := rfl
@[simp] theorem State.setNext_chains (k : Nat) (r : NodeRef) : (s.setNext k r).chains = s.chains := rfl
@[simp] theorem State.setNext_fault (k : Nat) (r : NodeRef) : (s.setNext k r).fault = s.fault := rfl
@[simp] theorem State.setNext_epoch (k : Nat) (r : NodeRef) : (s.setNext k r).epoch = s.epoch := rfl
@[simp] theorem State.setNext_src (k : Nat) (r : NodeRef) : (s.setNext k r).src = s.src := rfl
@[simp] theorem State.setNext_actions (k : Nat) (r : NodeRef) : (s.setNext k r).actions = s.actions := rfl
@[simp] theorem State.setNext_resp (k : Nat) (r : NodeRef) : (s.setNext k r).resp = s.resp := rfl
@[simp] theorem State.setNext_reg (k : Nat) (r : NodeRef) (j : Reg) : (s.setNext k r).reg j = s.reg j := rfl
@[simp] theorem State.setNext_half (k : Nat) (r : NodeRef) (g : HalfReg) : (s.setNext k r).half g = s.half g := rfl
@[simp] theorem State.setNext_cur (k : Nat) (r : NodeRef) (d : Cur) : (s.setNext k r).cur d = s.cur d := rfl
@[simp] theorem State.setNext_remaining (k : Nat) (r : NodeRef) (d : Cur) : (s.setNext k r).remaining d = s.remaining d := rfl
@[simp] theorem State.setNext_chain (k : Nat) (r : NodeRef) (p : Nat) : (s.setNext k r).chain p = s.chain p := rfl
@[simp] theorem State.setNext_readSrc (k : Nat) (r : NodeRef) (z : Word32) (y : Nat) : (s.setNext k r).readSrc z y = s.readSrc z y := rfl

/-! ### `State.setFirst` -/

@[simp] theorem State.setFirst_cfg (q : Nat) (r : NodeRef) : (s.setFirst q r).cfg = s.cfg := rfl
@[simp] theorem State.setFirst_regs (q : Nat) (r : NodeRef) : (s.setFirst q r).regs = s.regs := rfl
@[simp] theorem State.setFirst_bufs (q : Nat) (r : NodeRef) : (s.setFirst q r).bufs = s.bufs := rfl
@[simp] theorem State.setFirst_curs (q : Nat) (r : NodeRef) : (s.setFirst q r).curs = s.curs := rfl
@[simp] theorem State.setFirst_sum (q : Nat) (r : NodeRef) : (s.setFirst q r).sum = s.sum := rfl
@[simp] theorem State.setFirst_chains (q : Nat) (r : NodeRef) : (s.setFirst q r).chains = s.chains.set q { s.chain q with first := r } := rfl
@[simp] theorem State.setFirst_fault (q : Nat) (r : NodeRef) : (s.setFirst q r).fault = s.fault := rfl
@[simp] theorem State.setFirst_epoch (q : Nat) (r : NodeRef) : (s.setFirst q r).epoch = s.epoch := rfl
@[simp] theorem State.setFirst_src (q : Nat) (r : NodeRef) : (s.setFirst q r).src = s.src := rfl
@[simp] theorem State.setFirst_actions (q : Nat) (r : NodeRef) : (s.setFirst q r).actions = s.actions := rfl
@[simp] theorem State.setFirst_resp (q : Nat) (r : NodeRef) : (s.setFirst q r).resp = s.resp := rfl
@[simp] theorem State.setFirst_reg (q : Nat) (r : NodeRef) (j : Reg) : (s.setFirst q r).reg j = s.reg j := rfl
@[simp] theorem State.setFirst_half (q : Nat) (r : NodeRef) (g : HalfReg) : (s.setFirst q r).half g = s.half g := rfl
@[simp] theorem State.setFirst_cur (q : Nat) (r : NodeRef) (d : Cur) : (s.setFirst q r).cur d = s.cur d := rfl
@[simp] theorem State.setFirst_remaining (q : Nat) (r : NodeRef) (d : Cur) : (s.setFirst q r).remaining d = s.remaining d := rfl
@[simp] theorem State.setFirst_buffer (q : Nat) (r : NodeRef) (m : Nat) : (s.setFirst q r).buffer m = s.buffer m := rfl
@[simp] theorem State.setFirst_len (q : Nat) (r : NodeRef) (m : Nat) : (s.setFirst q r).len m = s.len m := rfl
@[simp] theorem State.setFirst_next (q : Nat) (r : NodeRef) (m : Nat) : (s.setFirst q r).next m = s.next m := rfl
@[simp] theorem State.setFirst_readBuf (q : Nat) (r : NodeRef) (m x y : Nat) : (s.setFirst q r).readBuf m x y = s.readBuf m x y := rfl
@[simp] theorem State.setFirst_readSrc (q : Nat) (r : NodeRef) (z : Word32) (y : Nat) : (s.setFirst q r).readSrc z y = s.readSrc z y := rfl

/-! ### `State.setLast` -/

@[simp] theorem State.setLast_cfg (q : Nat) (r : NodeRef) : (s.setLast q r).cfg = s.cfg := rfl
@[simp] theorem State.setLast_regs (q : Nat) (r : NodeRef) : (s.setLast q r).regs = s.regs := rfl
@[simp] theorem State.setLast_bufs (q : Nat) (r : NodeRef) : (s.setLast q r).bufs = s.bufs := rfl
@[simp] theorem State.setLast_curs (q : Nat) (r : NodeRef) : (s.setLast q r).curs = s.curs := rfl
@[simp] theorem State.setLast_sum (q : Nat) (r : NodeRef) : (s.setLast q r).sum = s.sum := rfl
@[simp] theorem State.setLast_chains (q : Nat) (r : NodeRef) : (s.setLast q r).chains = s.chains.set q { s.chain q with last := r } := rfl
@[simp] theorem State.setLast_fault (q : Nat) (r : NodeRef) : (s.setLast q r).fault = s.fault := rfl
@[simp] theorem State.setLast_epoch (q : Nat) (r : NodeRef) : (s.setLast q r).epoch = s.epoch := rfl
@[simp] theorem State.setLast_src (q : Nat) (r : NodeRef) : (s.setLast q r).src = s.src := rfl
@[simp] theorem State.setLast_actions (q : Nat) (r : NodeRef) : (s.setLast q r).actions = s.actions := rfl
@[simp] theorem State.setLast_resp (q : Nat) (r : NodeRef) : (s.setLast q r).resp = s.resp := rfl
@[simp] theorem State.setLast_reg (q : Nat) (r : NodeRef) (j : Reg) : (s.setLast q r).reg j = s.reg j := rfl
@[simp] theorem State.setLast_half (q : Nat) (r : NodeRef) (g : HalfReg) : (s.setLast q r).half g = s.half g := rfl
@[simp] theorem State.setLast_cur (q : Nat) (r : NodeRef) (d : Cur) : (s.setLast q r).cur d = s.cur d := rfl
@[simp] theorem State.setLast_remaining (q : Nat) (r : NodeRef) (d : Cur) : (s.setLast q r).remaining d = s.remaining d := rfl
@[simp] theorem State.setLast_buffer (q : Nat) (r : NodeRef) (m : Nat) : (s.setLast q r).buffer m = s.buffer m := rfl
@[simp] theorem State.setLast_len (q : Nat) (r : NodeRef) (m : Nat) : (s.setLast q r).len m = s.len m := rfl
@[simp] theorem State.setLast_next (q : Nat) (r : NodeRef) (m : Nat) : (s.setLast q r).next m = s.next m := rfl
@[simp] theorem State.setLast_readBuf (q : Nat) (r : NodeRef) (m x y : Nat) : (s.setLast q r).readBuf m x y = s.readBuf m x y := rfl
@[simp] theorem State.setLast_readSrc (q : Nat) (r : NodeRef) (z : Word32) (y : Nat) : (s.setLast q r).readSrc z y = s.readSrc z y := rfl

/-! ### `State.setHalf` -/

@[simp] theorem State.setHalf_cfg (h : HalfReg) (w : Byte × Byte) : (s.setHalf h w).cfg = s.cfg := rfl
@[simp] theorem State.setHalf_regs (h : HalfReg) (w : Byte × Byte) : (s.setHalf h w).regs = s.regs.set h.reg.val ((s.reg h.reg).withHalf w h.half) h.reg.isLt := rfl
@[simp] theorem State.setHalf_bufs (h : HalfReg) (w : Byte × Byte) : (s.setHalf h w).bufs = s.bufs := rfl
@[simp] theorem State.setHalf_curs (h : HalfReg) (w : Byte × Byte) : (s.setHalf h w).curs = s.curs := rfl
@[simp] theorem State.setHalf_sum (h : HalfReg) (w : Byte × Byte) : (s.setHalf h w).sum = s.sum := rfl
@[simp] theorem State.setHalf_chains (h : HalfReg) (w : Byte × Byte) : (s.setHalf h w).chains = s.chains := rfl
@[simp] theorem State.setHalf_fault (h : HalfReg) (w : Byte × Byte) : (s.setHalf h w).fault = s.fault := rfl
@[simp] theorem State.setHalf_epoch (h : HalfReg) (w : Byte × Byte) : (s.setHalf h w).epoch = s.epoch := rfl
@[simp] theorem State.setHalf_src (h : HalfReg) (w : Byte × Byte) : (s.setHalf h w).src = s.src := rfl
@[simp] theorem State.setHalf_actions (h : HalfReg) (w : Byte × Byte) : (s.setHalf h w).actions = s.actions := rfl
@[simp] theorem State.setHalf_resp (h : HalfReg) (w : Byte × Byte) : (s.setHalf h w).resp = s.resp := rfl
@[simp] theorem State.setHalf_cur (h : HalfReg) (w : Byte × Byte) (d : Cur) : (s.setHalf h w).cur d = s.cur d := rfl
@[simp] theorem State.setHalf_remaining (h : HalfReg) (w : Byte × Byte) (d : Cur) : (s.setHalf h w).remaining d = s.remaining d := rfl
@[simp] theorem State.setHalf_buffer (h : HalfReg) (w : Byte × Byte) (m : Nat) : (s.setHalf h w).buffer m = s.buffer m := rfl
@[simp] theorem State.setHalf_len (h : HalfReg) (w : Byte × Byte) (m : Nat) : (s.setHalf h w).len m = s.len m := rfl
@[simp] theorem State.setHalf_next (h : HalfReg) (w : Byte × Byte) (m : Nat) : (s.setHalf h w).next m = s.next m := rfl
@[simp] theorem State.setHalf_readBuf (h : HalfReg) (w : Byte × Byte) (m x y : Nat) : (s.setHalf h w).readBuf m x y = s.readBuf m x y := rfl
@[simp] theorem State.setHalf_chain (h : HalfReg) (w : Byte × Byte) (p : Nat) : (s.setHalf h w).chain p = s.chain p := rfl
@[simp] theorem State.setHalf_readSrc (h : HalfReg) (w : Byte × Byte) (z : Word32) (y : Nat) : (s.setHalf h w).readSrc z y = s.readSrc z y := rfl

/-! ### `State.raise` -/

@[simp] theorem State.raise_cfg (c : Cause) : (s.raise c).cfg = s.cfg := rfl
@[simp] theorem State.raise_regs (c : Cause) : (s.raise c).regs = s.regs := rfl
@[simp] theorem State.raise_bufs (c : Cause) : (s.raise c).bufs = s.bufs := rfl
@[simp] theorem State.raise_curs (c : Cause) : (s.raise c).curs = s.curs := rfl
@[simp] theorem State.raise_sum (c : Cause) : (s.raise c).sum = s.sum := rfl
@[simp] theorem State.raise_chains (c : Cause) : (s.raise c).chains = s.chains := rfl
@[simp] theorem State.raise_fault (c : Cause) : (s.raise c).fault = c.code := rfl
@[simp] theorem State.raise_epoch (c : Cause) : (s.raise c).epoch = s.epoch := rfl
@[simp] theorem State.raise_src (c : Cause) : (s.raise c).src = s.src := rfl
@[simp] theorem State.raise_actions (c : Cause) : (s.raise c).actions = s.actions := rfl
@[simp] theorem State.raise_resp (c : Cause) : (s.raise c).resp = some ⟨0xF0, c.code.setWidth 32⟩ := rfl
@[simp] theorem State.raise_reg (c : Cause) (j : Reg) : (s.raise c).reg j = s.reg j := rfl
@[simp] theorem State.raise_half (c : Cause) (g : HalfReg) : (s.raise c).half g = s.half g := rfl
@[simp] theorem State.raise_cur (c : Cause) (d : Cur) : (s.raise c).cur d = s.cur d := rfl
@[simp] theorem State.raise_remaining (c : Cause) (d : Cur) : (s.raise c).remaining d = s.remaining d := rfl
@[simp] theorem State.raise_buffer (c : Cause) (m : Nat) : (s.raise c).buffer m = s.buffer m := rfl
@[simp] theorem State.raise_len (c : Cause) (m : Nat) : (s.raise c).len m = s.len m := rfl
@[simp] theorem State.raise_next (c : Cause) (m : Nat) : (s.raise c).next m = s.next m := rfl
@[simp] theorem State.raise_readBuf (c : Cause) (m x y : Nat) : (s.raise c).readBuf m x y = s.readBuf m x y := rfl
@[simp] theorem State.raise_chain (c : Cause) (p : Nat) : (s.raise c).chain p = s.chain p := rfl
@[simp] theorem State.raise_readSrc (c : Cause) (z : Word32) (y : Nat) : (s.raise c).readSrc z y = s.readSrc z y := rfl

/-! ### `State.hostWrites` -/

@[simp] theorem State.hostWrites_cfg (a : Word32) (v : Byte) : (s.hostWrites a v).cfg = s.cfg := rfl
@[simp] theorem State.hostWrites_regs (a : Word32) (v : Byte) : (s.hostWrites a v).regs = s.regs := rfl
@[simp] theorem State.hostWrites_bufs (a : Word32) (v : Byte) : (s.hostWrites a v).bufs = s.bufs := rfl
@[simp] theorem State.hostWrites_curs (a : Word32) (v : Byte) : (s.hostWrites a v).curs = s.curs := rfl
@[simp] theorem State.hostWrites_sum (a : Word32) (v : Byte) : (s.hostWrites a v).sum = s.sum := rfl
@[simp] theorem State.hostWrites_chains (a : Word32) (v : Byte) : (s.hostWrites a v).chains = s.chains := rfl
@[simp] theorem State.hostWrites_fault (a : Word32) (v : Byte) : (s.hostWrites a v).fault = s.fault := rfl
@[simp] theorem State.hostWrites_epoch (a : Word32) (v : Byte) : (s.hostWrites a v).epoch = s.epoch := rfl
@[simp] theorem State.hostWrites_src (a : Word32) (v : Byte) : (s.hostWrites a v).src = s.src.write a.toNat v := rfl
@[simp] theorem State.hostWrites_actions (a : Word32) (v : Byte) : (s.hostWrites a v).actions = s.actions := rfl
@[simp] theorem State.hostWrites_resp (a : Word32) (v : Byte) : (s.hostWrites a v).resp = s.resp := rfl
@[simp] theorem State.hostWrites_reg (a : Word32) (v : Byte) (j : Reg) : (s.hostWrites a v).reg j = s.reg j := rfl
@[simp] theorem State.hostWrites_half (a : Word32) (v : Byte) (g : HalfReg) : (s.hostWrites a v).half g = s.half g := rfl
@[simp] theorem State.hostWrites_cur (a : Word32) (v : Byte) (d : Cur) : (s.hostWrites a v).cur d = s.cur d := rfl
@[simp] theorem State.hostWrites_remaining (a : Word32) (v : Byte) (d : Cur) : (s.hostWrites a v).remaining d = s.remaining d := rfl
@[simp] theorem State.hostWrites_buffer (a : Word32) (v : Byte) (m : Nat) : (s.hostWrites a v).buffer m = s.buffer m := rfl
@[simp] theorem State.hostWrites_len (a : Word32) (v : Byte) (m : Nat) : (s.hostWrites a v).len m = s.len m := rfl
@[simp] theorem State.hostWrites_next (a : Word32) (v : Byte) (m : Nat) : (s.hostWrites a v).next m = s.next m := rfl
@[simp] theorem State.hostWrites_readBuf (a : Word32) (v : Byte) (m x y : Nat) : (s.hostWrites a v).readBuf m x y = s.readBuf m x y := rfl
@[simp] theorem State.hostWrites_chain (a : Word32) (v : Byte) (p : Nat) : (s.hostWrites a v).chain p = s.chain p := rfl

/-! ### Reading back what was written -/

@[simp] theorem State.reg_setReg (i j : Reg) (v : NetInt) :
    (s.setReg i v).reg j = if j = i then v else s.reg j := by
  by_cases h : j = i
  · subst h; simp [State.reg]
  · have : i.val ≠ j.val := fun h' => h (Fin.ext h'.symm)
    simp [State.reg, h, this]

@[simp] theorem State.cur_setCur (c d : Cur) (v : Cursor) :
    (s.setCur c v).cur d = if d = c then v else s.cur d := by
  by_cases h : d = c
  · subst h; simp [State.cur]
  · have : c.val ≠ d.val := fun h' => h (Fin.ext h'.symm)
    simp [State.cur, h, this]

theorem State.buffer_setBuf (b m : Nat) (v : Buffer) :
    (s.setBuf b v).buffer m = if m = b ∧ b < s.bufs.length then v else s.buffer m := by
  by_cases h : m = b
  · subst h
    by_cases h' : m < s.bufs.length <;> simp [State.buffer, h']
  · simp [State.buffer, Ne.symm h, h]

theorem State.chain_setChain (q p : Nat) (v : Chain) :
    (s.setChain q v).chain p = if p = q ∧ q < s.chains.length then v else s.chain p := by
  by_cases h : p = q
  · subst h
    by_cases h' : p < s.chains.length <;> simp [State.chain, h']
  · simp [State.chain, Ne.symm h, h]

theorem State.buffer_of_getElem? {b : Nat} {B : Buffer} (h : s.bufs[b]? = some B) : s.buffer b = B := by
  simp [State.buffer, h]

/-- A link write changes no byte of any buffer. -/
@[simp] theorem State.setNext_data (k m : Nat) (r : NodeRef) :
    ((s.setNext k r).buffer m).data = (s.buffer m).data := by
  unfold State.setNext
  rw [State.buffer_setBuf]
  split
  · next h => rw [h.1]
  · rfl

@[simp] theorem State.setNext_len (k m : Nat) (r : NodeRef) : (s.setNext k r).len m = s.len m := by
  simp [State.len]

/-- A write of a buffer's bytes changes no link. -/
@[simp] theorem State.setData_next (b m : Nat) (d : List Byte) : (s.setData b d).next m = s.next m := by
  unfold State.setData State.next
  rw [State.buffer_setBuf]
  split
  · next h => rw [h.1]
  · rfl

/-- What a write of a buffer's bytes leaves in each buffer. -/
theorem State.setData_data (b m : Nat) (d : List Byte) :
    ((s.setData b d).buffer m).data = if m = b ∧ b < s.bufs.length then d else (s.buffer m).data := by
  unfold State.setData
  rw [State.buffer_setBuf]
  split <;> rfl

/-- What a link write leaves in each link. -/
theorem State.next_setNext (k m : Nat) (r : NodeRef) :
    (s.setNext k r).next m = if m = k ∧ k < s.bufs.length then r else s.next m := by
  unfold State.setNext State.next
  rw [State.buffer_setBuf]
  split <;> rfl

/-- What a write of `first` leaves in each descriptor. -/
theorem State.chain_setFirst (q p : Nat) (r : NodeRef) :
    (s.setFirst q r).chain p
      = if p = q ∧ q < s.chains.length then { s.chain q with first := r } else s.chain p :=
  s.chain_setChain q p _

/-- What a write of `last` leaves in each descriptor. -/
theorem State.chain_setLast (q p : Nat) (r : NodeRef) :
    (s.setLast q r).chain p
      = if p = q ∧ q < s.chains.length then { s.chain q with last := r } else s.chain p :=
  s.chain_setChain q p _

end Sys2Proof.Machine
end

