-- ==== Sys2Proof/Laws/Ops.lean ====
section
/-! SUPPORT. One lemma for each shared operation that says once what it can do: SRC (R30), the processing of a command
(R161), taking a fault (R163), reading through a cursor (R96). -/

namespace Sys2Proof.Machine

/-! ### SRC -/

theorem Memory.read_of_below (m : Memory) (a : Nat) (h : ∀ c ∈ m, a < c.1) : m.read a = Memory.blank := by
  induction m with
  | nil => rfl
  | cons c m ih =>
    have := h c (by simp)
    simp only [Memory.read, if_neg (show c.1 ≠ a by omega)]
    exact ih fun d hd => h d (by simp [hd])

/-- After a write to a canonical SRC the address reads as the byte written and every other as before. -/
theorem Memory.read_write (m : Memory) (a : Nat) (v : Byte) (h : m.wf) (b : Nat) :
    (m.write a v).read b = if b = a then v else m.read b := by
  induction m with
  | nil => by_cases hv : v = Memory.blank <;> simp [Memory.write, Memory.read, hv, eq_comm]
  | cons c m ih =>
    obtain ⟨hp, hc⟩ := h
    rw [List.pairwise_cons] at hp
    have ih := ih ⟨hp.2, fun d hd => hc d (by simp [hd])⟩
    simp only [Memory.write]
    split
    · next hlt =>
      have hlow : Memory.read (c :: m) a = Memory.blank :=
        Memory.read_of_below _ _ fun d hd => by
          rcases List.mem_cons.mp hd with rfl | hd
          · exact hlt
          · exact Nat.lt_trans hlt (hp.1 d hd)
      by_cases hv : v = Memory.blank <;> by_cases hb : b = a
      · simp only [hv, if_true, hb]; exact hlow
      · simp [hv, hb]
      · simp [hv, hb, Memory.read]
      · simp [hv, hb, Memory.read, Ne.symm hb]
    · split
      · next hlt heq =>
        have hlow : Memory.read m a = Memory.blank :=
          Memory.read_of_below _ _ fun d hd => heq ▸ hp.1 d hd
        by_cases hv : v = Memory.blank <;> by_cases hb : b = a
        · simp only [hv, if_true, hb]; exact hlow
        · simp [hv, hb, Memory.read, ← heq, Ne.symm hb]
        · simp [hv, hb, Memory.read]
        · simp [hv, hb, Memory.read, ← heq, Ne.symm hb]
      · next hlt hne =>
        simp only [Memory.read, ih]
        by_cases hb : c.1 = b
        · simp [hb, show b ≠ a from fun e => hne (by rw [← e, hb])]
        · simp [hb]

/-- The addresses of a written memory are old ones or the address written. -/
theorem Memory.mem_write {m : Memory} {a : Nat} {v : Byte} {c : Host.Cell} (h : c ∈ m.write a v) :
    c ∈ m ∨ (c = (a, v) ∧ v ≠ Memory.blank) := by
  induction m with
  | nil =>
    by_cases hv : v = Memory.blank <;> simp_all [Memory.write]
  | cons d m ih =>
    simp only [Memory.write] at h
    split at h
    · by_cases hv : v = Memory.blank
      · exact .inl (by simpa [hv] using h)
      · simp only [hv, if_false, List.mem_cons] at h
        rcases h with h | h
        · exact .inr ⟨h, hv⟩
        · exact .inl (List.mem_cons.mpr h)
    · split at h
      · by_cases hv : v = Memory.blank
        · exact .inl (List.mem_cons_of_mem _ (by simpa [hv] using h))
        · simp only [hv, if_false, List.mem_cons] at h
          rcases h with h | h
          · exact .inr ⟨h, hv⟩
          · exact .inl (List.mem_cons_of_mem _ h)
      · rcases List.mem_cons.mp h with rfl | h
        · simp
        · exact (ih h).imp (List.mem_cons_of_mem _) id

/-- A write keeps the canonical form. -/
theorem Memory.write_wf (m : Memory) (a : Nat) (v : Byte) (h : m.wf) (ha : a < 2 ^ 32) : (m.write a v).wf := by
  refine ⟨?_, fun c hc => ?_⟩
  · induction m with
    | nil => by_cases hv : v = Memory.blank <;> simp [Memory.write, hv]
    | cons c m ih =>
      obtain ⟨hp, hc⟩ := h
      have hp' := List.pairwise_cons.mp hp
      have ih := ih ⟨hp'.2, fun d hd => hc d (by simp [hd])⟩
      simp only [Memory.write]
      split
      · next hlt =>
        split
        · exact hp
        · refine List.pairwise_cons.mpr ⟨fun d hd => ?_, hp⟩
          rcases List.mem_cons.mp hd with rfl | hd
          · exact hlt
          · exact Nat.lt_trans hlt (hp'.1 d hd)
      · split
        · next hlt heq =>
          split
          · exact hp'.2
          · exact List.pairwise_cons.mpr ⟨fun d hd => heq ▸ hp'.1 d hd, hp'.2⟩
        · next hlt hne =>
          refine List.pairwise_cons.mpr ⟨fun d hd => ?_, ih⟩
          rcases Memory.mem_write hd with hd | ⟨rfl, -⟩
          · exact hp'.1 d hd
          · simp only; omega
  · rcases Memory.mem_write hc with hc | ⟨rfl, hv⟩
    · exact h.2 c hc
    · exact ⟨hv, ha⟩

theorem State.reset_src_wf : State.reset.src.wf := by decide

/-- R5: whatever the free parameters are, the configuration of the block at hand is legal. -/
theorem State.reset_cfg_ok : State.reset.cfg.Ok := by
  have := Config.openCapWords.isLt
  have := Config.openNbuf.isLt
  have := Config.openNchain.isLt
  simp only [Config.Ok, State.reset, State.resetOf, Config.implementation]
  omega

/-! ### Processing a command -/

/-- R161: everything `obey` can answer. -/
theorem obey_cases (i : Instr) (rule : State → State) (s : State) :
    (s.fault ≠ 0 ∧ obey i rule s = .next (s.respond .faulted 0))
    ∨ (s.fault = 0 ∧ i.wellFormed s.cfg = true ∧ obey i rule s = .next (rule s))
    ∨ (s.fault = 0 ∧ i.wellFormed s.cfg = false ∧ obey i rule s = .next (s.respond .illegal 0)) := by
  unfold obey
  by_cases hf : s.fault = 0 <;> by_cases hw : i.wellFormed s.cfg = true <;> simp_all

/-- A well-formed command outside the fault state runs its rule. -/
@[simp] theorem obey_run {i : Instr} {rule : State → State} {s : State} (hf : s.fault = 0)
    (hw : i.wellFormed s.cfg = true) : obey i rule s = .next (rule s) := by
  simp [obey, hf, hw]

/-- In the fault state a command is refused. -/
theorem obey_faulted {i : Instr} {rule : State → State} {s : State} (hf : s.fault ≠ 0) :
    obey i rule s = .next (s.respond .faulted 0) := by
  rw [obey, if_pos hf]

/-- If `obey` answers `t`, the command was refused, illegal, or its rule gave `t`. -/
theorem obey_next {i : Instr} {rule : State → State} {s t : State} (h : obey i rule s = .next t) :
    (s.fault ≠ 0 ∧ t = s.respond .faulted 0) ∨ (s.fault = 0 ∧ i.wellFormed s.cfg = false ∧ t = s.respond .illegal 0)
    ∨ (s.fault = 0 ∧ i.wellFormed s.cfg = true ∧ t = rule s) := by
  rcases obey_cases i rule s with ⟨hf, e⟩ | ⟨hf, hw, e⟩ | ⟨hf, hw, e⟩ <;> rw [e] at h <;> cases h <;> simp_all

/-! ### Reading through a cursor -/

/-- R96: everything `curRead` can answer; the bytes read are `k` bytes of the valid prefix. -/
theorem curRead_cases (s : State) (c : Cur) (off k : Nat) (cause : Cause) :
    ((s.cur c).stop < (s.cur c).pos + off + k ∧ s.curRead c off k cause = .error cause)
    ∨ ((s.cur c).pos + off + k ≤ (s.cur c).stop ∧ s.len (s.cur c).buf < (s.cur c).pos + off + k
        ∧ s.curRead c off k cause = .error .curStale)
    ∨ ((s.cur c).pos + off + k ≤ (s.cur c).stop ∧ (s.cur c).pos + off + k ≤ s.len (s.cur c).buf
        ∧ s.curRead c off k cause = .ok (s.readBuf (s.cur c).buf ((s.cur c).pos + off) k)) := by
  simp only [State.curRead]
  split
  · exact .inl ⟨by omega, rfl⟩
  · split
    · exact .inr (.inl ⟨by omega, by omega, rfl⟩)
    · exact .inr (.inr ⟨by omega, by omega, rfl⟩)

/-- The bytes `readBuf` gives, by index. -/
theorem readBuf_getElem? (s : State) (b i k j : Nat) (h : j < k) :
    (s.readBuf b i k)[j]? = (s.buffer b).data[i + j]? := by
  simp [State.readBuf, h]

/-! ### SRC as read by an append -/

theorem readSrc_length (s : State) (a : Word32) (k : Nat) : (s.readSrc a k).length = k := by
  simp [State.readSrc]

theorem readSrc_getElem? (s : State) (a : Word32) (k i : Nat) (h : i < k) :
    (s.readSrc a k)[i]? = some (s.src.read ((a.toNat + i) % 2 ^ 32)) := by
  simp [State.readSrc, h]

end Sys2Proof.Machine
end

