-- ==== Sys2Proof/Laws/Exec.lean ====
section
/-! SUPPORT. Every command as `obey` over its own rule, what `exec` and `step` can answer, and one lemma for each rule
with branches that says once which answers it has. -/

namespace Sys2Proof.Machine

/-- The rule that a command runs once R161 admits it. -/
def ownRule : Instr → State → State
  | .nop => fun s => s.respond .ok 0
  | .rdcsr csr => fun s => s.respond .ok (s.csr csr)
  | .ni16Set r v => fun s => (s.setHalf r (pack16 v)).respond .ok 0
  | .ni16Get r => fun s => s.respond .ok ((unpack16 (s.half r)).setWidth 32)
  | .ni16Ld r c => loadHalf r c
  | .ni16Eq r q => fun s => s.respond .ok (truth (s.halvesEqual r q))
  | .ni16Ne r q => fun s => s.respond .ok (truth (!s.halvesEqual r q))
  | .ni16Eqi r v => fun s => s.respond .ok (truth (s.halfEquals r v))
  | .ni16Nei r v => fun s => s.respond .ok (truth (!s.halfEquals r v))
  | .ni32Set r v => fun s => (s.setReg r (pack32 v)).respond .ok 0
  | .ni32Get r => fun s => s.respond .ok (unpack32 (s.reg r))
  | .ni32Ld r c => loadReg r c
  | .ni32Eq r q => fun s => s.respond .ok (truth ((s.reg r).equals (s.reg q)))
  | .ni32Ne r q => fun s => s.respond .ok (truth (!(s.reg r).equals (s.reg q)))
  | .ni32Eqi r v => fun s => s.respond .ok (truth ((s.reg r).equals (pack32 v)))
  | .ni32Nei r v => fun s => s.respond .ok (truth (!(s.reg r).equals (pack32 v)))
  | .ni32Inc r => fun s =>
    (s.setReg r ((s.reg r).addCarry { b0 := 0, b1 := 0, b2 := 0, b3 := 0 } 1)).respond .ok 0
  | .ni32Add r q => fun s => (s.setReg r ((s.reg r).addCarry (s.reg q) 0)).respond .ok 0
  | .ni32Lt r q => fun s => s.respond .ok (truth ((s.reg r).lessThan (s.reg q)))
  | .curOpen c b => fun s => (s.setCur c { buf := b, start := 0, pos := 0, stop := s.len b }).respond .ok 0
  | .curRem c => fun s => s.respond .ok (BitVec.ofNat 32 (s.remaining c))
  | .curPeek c => peek c
  | .curInc c => advance c 1
  | .curAdv c n => advance c n.toNat
  | .bufAppend b length src => appendBytes b length src
  | .bufClear b => fun s => (s.setData b []).respond .ok 0
  | .bufLen b => fun s => s.respond .ok (BitVec.ofNat 32 (s.len b))
  | .bufRdb b idx => readByteAt b idx
  | .csClear => fun s => (s.setSum 0).respond .ok 0
  | .csAcc r => fun s => (s.setSum (accumulate s.sum (unpack16 (s.half r)))).respond .ok 0
  | .csAcci w => fun s => (s.setSum (accumulate s.sum w)).respond .ok 0
  | .csSum => fun s =>
    (s.setSum (fold s.sum)).respond .ok ((~~~((fold s.sum).extractLsb' 0 16)).setWidth 32)
  | .csRange b off n => sumRange b off.toNat n.toNat
  | .csRangec c off n => sumCursorRange c off.toNat n.toNat
  | .chPrepend q k => insertNode linkHead q k
  | .chAppend q k => insertNode linkTail q k
  | .chPush q k useFifo => insertNode (if useFifo then linkTail else linkHead) q k
  | .chFirst q remove => takeFirst q remove
  | .chPop q => takeFirst q true
  | .chRemove q k => removeNode q k
  | .chHas q k => hasNode q k
  | .chNext k => nextNode k
  | .chLast q => lastNode q

/-! ### `exec` -/

/-- Every command but `RDCSR` is its rule under the order of R161. -/
theorem exec_eq_obey (i : Instr) (s : State) (h : ∀ csr, i ≠ .rdcsr csr) : exec i s = obey i (ownRule i) s := by
  cases i <;> first | rfl | exact absurd rfl (h _)

/-- A well-formed command outside the fault state runs its rule. -/
theorem exec_run {i : Instr} {s : State} (hf : s.fault = 0) (hw : i.wellFormed s.cfg = true) :
    exec i s = .next (ownRule i s) := by
  by_cases h : ∃ csr, i = .rdcsr csr
  · obtain ⟨csr, rfl⟩ := h
    rfl
  · rw [exec_eq_obey i s fun csr e => h ⟨csr, e⟩, obey_run hf hw]

/-- In the fault state every command but `RDCSR` is refused. -/
theorem exec_faulted {i : Instr} {s : State} (hf : s.fault ≠ 0) (h : ∀ csr, i ≠ .rdcsr csr) :
    exec i s = .next (s.respond .faulted 0) := by
  rw [exec_eq_obey i s h, obey_faulted hf]

/-- A command whose operand names no object of the block is illegal. -/
theorem exec_illegal {i : Instr} {s : State} (hf : s.fault = 0) (hw : i.wellFormed s.cfg = false) :
    exec i s = .next (s.respond .illegal 0) := by
  have h : ∀ csr, i ≠ .rdcsr csr := fun csr e => by subst e; simp [Instr.wellFormed] at hw
  rw [exec_eq_obey i s h]
  simp [obey, hf, hw]

/-- Everything a command can answer: `FAULTED`, `ILLEGAL`, or its own rule. -/
theorem exec_next {i : Instr} {s t : State} (h : exec i s = .next t) :
    (s.fault ≠ 0 ∧ (∀ csr, i ≠ .rdcsr csr) ∧ t = s.respond .faulted 0)
    ∨ (s.fault = 0 ∧ i.wellFormed s.cfg = false ∧ t = s.respond .illegal 0)
    ∨ (i.wellFormed s.cfg = true ∧ (s.fault = 0 ∨ ∃ csr, i = .rdcsr csr) ∧ t = ownRule i s) := by
  by_cases hr : ∃ csr, i = .rdcsr csr
  · obtain ⟨csr, rfl⟩ := hr
    cases h
    exact .inr (.inr ⟨rfl, .inr ⟨csr, rfl⟩, rfl⟩)
  · have hr' : ∀ csr, i ≠ .rdcsr csr := fun csr e => hr ⟨csr, e⟩
    rw [exec_eq_obey i s hr'] at h
    rcases obey_next h with ⟨hf, e⟩ | ⟨hf, hw, e⟩ | ⟨hf, hw, e⟩
    · exact .inl ⟨hf, hr', e⟩
    · exact .inr (.inl ⟨hf, hw, e⟩)
    · exact .inr (.inr ⟨hw, .inl hf, e⟩)

/-! ### `step` -/

theorem step_idle {s : State} (h : s.actions = []) : step s = .next s := by
  simp only [step, h]

theorem step_command {s : State} {w : Command} {rest : List HostAction} (h : s.actions = .command w :: rest) :
    step s = runWord w (s.setActions rest) := by
  simp only [step, h]

theorem step_setSrc {s : State} {a : Word32} {v : Byte} {rest : List HostAction} (h : s.actions = .setSrc a v :: rest) :
    step s = .next ((s.setActions rest).hostWrites a v) := by
  simp only [step, h]

theorem step_reset {s : State} {rest : List HostAction} (h : s.actions = .reset :: rest) :
    step s = .next (s.setActions rest).assertReset := by
  simp only [step, h]

theorem runWord_ok {w : Command} {i : Instr} (h : decode w = .ok i) (s : State) : runWord w s = exec i s := by
  simp only [runWord, h]

theorem runWord_error {w : Command} {e : Reject} (h : decode w = .error e) (s : State) :
    runWord w s = .next s.refuseWord := by
  simp only [runWord, h]

/-- Everything a step can do. -/
theorem step_cases {s t : State} (h : step s = .next t) :
    (s.actions = [] ∧ t = s)
    ∨ (∃ w rest i, s.actions = .command w :: rest ∧ decode w = .ok i ∧ exec i (s.setActions rest) = .next t)
    ∨ (∃ w rest e, s.actions = .command w :: rest ∧ decode w = .error e ∧ t = (s.setActions rest).refuseWord)
    ∨ (∃ a v rest, s.actions = .setSrc a v :: rest ∧ t = (s.setActions rest).hostWrites a v)
    ∨ ∃ rest, s.actions = .reset :: rest ∧ t = (s.setActions rest).assertReset := by
  rcases ha : s.actions with _ | ⟨w | ⟨a, v⟩ | _, rest⟩
  · rw [step_idle ha] at h; cases h; simp
  · rw [step_command ha] at h
    rcases hd : decode w with e | i
    · rw [runWord_error hd] at h; cases h; simp [hd]
    · rw [runWord_ok hd] at h; simp [hd, h]
  · rw [step_setSrc ha] at h; cases h; simp
  · rw [step_reset ha] at h; cases h; simp

/-! ### The rules with branches -/

/-- R73: an overrun, a stale read, or the two bytes at the cursor. -/
theorem loadHalf_cases (r : HalfReg) (c : Cur) (s : State) :
    ((s.cur c).stop < (s.cur c).pos + 2 ∧ loadHalf r c s = s.raise .curShortRead)
    ∨ ((s.cur c).pos + 2 ≤ (s.cur c).stop ∧ s.len (s.cur c).buf < (s.cur c).pos + 2
        ∧ loadHalf r c s = s.raise .curStale)
    ∨ ((s.cur c).pos + 2 ≤ (s.cur c).stop ∧ (s.cur c).pos + 2 ≤ s.len (s.cur c).buf
        ∧ loadHalf r c s = (s.setHalf r
          ((s.buffer (s.cur c).buf).data.getD (s.cur c).pos 0,
            (s.buffer (s.cur c).buf).data.getD ((s.cur c).pos + 1) 0)).respond .ok 0) := by
  rcases curRead_cases s c 0 2 .curShortRead with ⟨h, e⟩ | ⟨h, h2, e⟩ | ⟨h, h2, e⟩
  · exact .inl ⟨h, by rw [loadHalf, e]⟩
  · exact .inr (.inl ⟨h, h2, by rw [loadHalf, e]⟩)
  · refine .inr (.inr ⟨h, h2, ?_⟩)
    rw [loadHalf, e]
    simp [List.getD_eq_getElem?_getD, readBuf_getElem?]

/-- R80: an overrun, a stale read, or the four bytes at the cursor. -/
theorem loadReg_cases (r : Reg) (c : Cur) (s : State) :
    ((s.cur c).stop < (s.cur c).pos + 4 ∧ loadReg r c s = s.raise .curShortRead)
    ∨ ((s.cur c).pos + 4 ≤ (s.cur c).stop ∧ s.len (s.cur c).buf < (s.cur c).pos + 4
        ∧ loadReg r c s = s.raise .curStale)
    ∨ ((s.cur c).pos + 4 ≤ (s.cur c).stop ∧ (s.cur c).pos + 4 ≤ s.len (s.cur c).buf
        ∧ loadReg r c s = (s.setReg r
          { b0 := (s.buffer (s.cur c).buf).data.getD (s.cur c).pos 0
            b1 := (s.buffer (s.cur c).buf).data.getD ((s.cur c).pos + 1) 0
            b2 := (s.buffer (s.cur c).buf).data.getD ((s.cur c).pos + 2) 0
            b3 := (s.buffer (s.cur c).buf).data.getD ((s.cur c).pos + 3) 0 }).respond .ok 0) := by
  rcases curRead_cases s c 0 4 .curShortRead with ⟨h, e⟩ | ⟨h, h2, e⟩ | ⟨h, h2, e⟩
  · exact .inl ⟨h, by rw [loadReg, e]⟩
  · exact .inr (.inl ⟨h, h2, by rw [loadReg, e]⟩)
  · refine .inr (.inr ⟨h, h2, ?_⟩)
    rw [loadReg, e]
    simp [List.getD_eq_getElem?_getD, readBuf_getElem?]

/-- R99: an empty cursor, a stale read, or the byte at the cursor. -/
theorem peek_cases (c : Cur) (s : State) :
    ((s.cur c).stop < (s.cur c).pos + 1 ∧ peek c s = s.raise .curEmptyDeref)
    ∨ ((s.cur c).pos + 1 ≤ (s.cur c).stop ∧ s.len (s.cur c).buf < (s.cur c).pos + 1 ∧ peek c s = s.raise .curStale)
    ∨ ((s.cur c).pos + 1 ≤ (s.cur c).stop ∧ (s.cur c).pos + 1 ≤ s.len (s.cur c).buf
        ∧ peek c s = s.respond .ok (((s.buffer (s.cur c).buf).data.getD (s.cur c).pos 0).setWidth 32)) := by
  rcases curRead_cases s c 0 1 .curEmptyDeref with ⟨h, e⟩ | ⟨h, h2, e⟩ | ⟨h, h2, e⟩
  · exact .inl ⟨h, by rw [peek, e]⟩
  · exact .inr (.inl ⟨h, h2, by rw [peek, e]⟩)
  · refine .inr (.inr ⟨h, h2, ?_⟩)
    rw [peek, e]
    simp [List.getD_eq_getElem?_getD, readBuf_getElem?]

/-- R100, R101: an overrun, or the cursor moved. -/
theorem advance_cases (c : Cur) (n : Nat) (s : State) :
    ((s.cur c).stop < (s.cur c).pos + n ∧ advance c n s = s.raise .curOverrun)
    ∨ ((s.cur c).pos + n ≤ (s.cur c).stop
        ∧ advance c n s = (s.setCur c { s.cur c with pos := (s.cur c).pos + n }).respond .ok 0) := by
  unfold advance
  split
  · exact .inl ⟨by omega, rfl⟩
  · exact .inr ⟨by omega, rfl⟩

/-- R105: one of the three no-ops, or the copy. -/
theorem appendBytes_cases (b : Nat) (length : Word16) (src : Word32) (s : State) :
    (src = 0 ∧ appendBytes b length src s = s.respond .noopNull 0)
    ∨ (src ≠ 0 ∧ length = 0 ∧ appendBytes b length src s = s.respond .noopZero 0)
    ∨ (src ≠ 0 ∧ length ≠ 0 ∧ s.cfg.capacity < s.len b + length.toNat
        ∧ appendBytes b length src s = s.respond .noopOverflow 0)
    ∨ (src ≠ 0 ∧ length ≠ 0 ∧ s.len b + length.toNat ≤ s.cfg.capacity
        ∧ appendBytes b length src s
          = (s.setData b ((s.buffer b).data ++ s.readSrc src length.toNat)).respond .ok 0) := by
  unfold appendBytes
  split
  · next h => exact .inl ⟨h, rfl⟩
  · next h =>
    split
    · next h2 => exact .inr (.inl ⟨h, h2, rfl⟩)
    · next h2 =>
      split
      · exact .inr (.inr (.inl ⟨h, h2, by omega, rfl⟩))
      · exact .inr (.inr (.inr ⟨h, h2, by omega, rfl⟩))

/-- R108: an index beyond the valid prefix, or the byte at it. -/
theorem readByteAt_cases (b : Nat) (idx : Word16) (s : State) :
    (s.len b ≤ idx.toNat ∧ readByteAt b idx s = s.respond .noopRange 0)
    ∨ (idx.toNat < s.len b
        ∧ readByteAt b idx s = s.respond .ok (((s.buffer b).data.getD idx.toNat 0).setWidth 32)) := by
  unfold readByteAt
  split
  · exact .inl ⟨by omega, rfl⟩
  · refine .inr ⟨by omega, ?_⟩
    simp [List.getD_eq_getElem?_getD, readBuf_getElem?]

/-- R120: the tests of a range in their order. -/
theorem rangeTest_cases (L off n : Nat) :
    (L < off + n ∧ rangeTest L off n = some .noopRange)
    ∨ (off + n ≤ L ∧ (off % 2 = 1 ∨ n % 2 = 1) ∧ rangeTest L off n = some .noopOdd)
    ∨ (off + n ≤ L ∧ off % 2 = 0 ∧ n % 2 = 0 ∧ rangeTest L off n = none) := by
  unfold rangeTest
  split
  · exact .inl ⟨by omega, rfl⟩
  · split
    · exact .inr (.inl ⟨by omega, by omega, rfl⟩)
    · split
      · exact .inr (.inl ⟨by omega, by omega, rfl⟩)
      · exact .inr (.inr ⟨by omega, by omega, by omega, rfl⟩)

/-- R120: a failed test, or the sum of the range. -/
theorem sumRange_cases (b off n : Nat) (s : State) :
    (s.len b < off + n ∧ sumRange b off n s = s.respond .noopRange 0)
    ∨ (off + n ≤ s.len b ∧ (off % 2 = 1 ∨ n % 2 = 1) ∧ sumRange b off n s = s.respond .noopOdd 0)
    ∨ (off + n ≤ s.len b ∧ off % 2 = 0 ∧ n % 2 = 0
        ∧ sumRange b off n s
          = (s.setSum (sumBytes s.sum (s.readBuf b off (rangeStop (s.len b) off n - off)))).respond .ok 0) := by
  rcases rangeTest_cases (s.len b) off n with ⟨h, e⟩ | ⟨h, h2, e⟩ | ⟨h, h2, h3, e⟩
  · exact .inl ⟨h, by rw [sumRange, e]⟩
  · exact .inr (.inl ⟨h, h2, by rw [sumRange, e]⟩)
  · exact .inr (.inr ⟨h, h2, h3, by rw [sumRange, e]⟩)

/-- R121: a failed test, a stale range, or the sum of the range. -/
theorem sumCursorRange_cases (c : Cur) (off n : Nat) (s : State) :
    (s.remaining c < off + n ∧ sumCursorRange c off n s = s.respond .noopRange 0)
    ∨ (off + n ≤ s.remaining c ∧ (off % 2 = 1 ∨ n % 2 = 1) ∧ sumCursorRange c off n s = s.respond .noopOdd 0)
    ∨ (off + n ≤ s.remaining c ∧ off % 2 = 0 ∧ n % 2 = 0
        ∧ off < rangeStop (s.remaining c) off n
        ∧ s.len (s.cur c).buf < (s.cur c).pos + rangeStop (s.remaining c) off n
        ∧ sumCursorRange c off n s = s.raise .curStale)
    ∨ (off + n ≤ s.remaining c ∧ off % 2 = 0 ∧ n % 2 = 0
        ∧ (rangeStop (s.remaining c) off n ≤ off
          ∨ (s.cur c).pos + rangeStop (s.remaining c) off n ≤ s.len (s.cur c).buf)
        ∧ sumCursorRange c off n s
          = (s.setSum (sumBytes s.sum (s.readBuf (s.cur c).buf ((s.cur c).pos + off)
              (rangeStop (s.remaining c) off n - off)))).respond .ok 0) := by
  rcases rangeTest_cases (s.remaining c) off n with ⟨h, e⟩ | ⟨h, h2, e⟩ | ⟨h, h2, h3, e⟩
  · exact .inl ⟨h, by rw [sumCursorRange, e]⟩
  · exact .inr (.inl ⟨h, h2, by rw [sumCursorRange, e]⟩)
  · simp only [sumCursorRange, e]
    split
    · next h4 => exact .inr (.inr (.inl ⟨h, h2, h3, h4.1, h4.2, rfl⟩))
    · exact .inr (.inr (.inr ⟨h, h2, h3, by omega, rfl⟩))

/-- R131: the three tests of an insertion in their order, then the link updates. -/
theorem insertNode_cases (update : Nat → Nat → State → State) (q : Nat) (node : NodeRef) (s : State) :
    (node = none ∧ insertNode update q node s = s.respond .noopNull 0)
    ∨ (∃ k, node = some k ∧ s.reach q k = true ∧ insertNode update q node s = s.respond .noopPresent 0)
    ∨ (∃ k, node = some k ∧ s.reach q k = false ∧ s.inOtherChain q k = true
        ∧ insertNode update q node s = s.raise .chainConvention)
    ∨ (∃ k, node = some k ∧ s.reach q k = false ∧ s.inOtherChain q k = false
        ∧ insertNode update q node s = (update q k s).respond .ok 0) := by
  cases node with
  | none => exact .inl ⟨rfl, rfl⟩
  | some k =>
    by_cases h : s.reach q k = true <;> by_cases h2 : s.inOtherChain q k = true <;> simp_all [insertNode]

/-- The third test of R131 as a statement. -/
theorem inOtherChain_iff (s : State) (q k : Nat) :
    s.inOtherChain q k = true ↔ ∃ q2, q2 ≠ q ∧ q2 < s.cfg.nchain ∧ s.reach q2 k = true := by
  simp only [State.inOtherChain, List.any_eq_true, List.mem_range, Bool.and_eq_true, bne_iff_ne]
  exact ⟨fun ⟨q2, h, h2, h3⟩ => ⟨q2, h2, h, h3⟩, fun ⟨q2, h, h2, h3⟩ => ⟨q2, h2, h, h3⟩⟩

/-- R136: an empty chain, or its head with or without removal. -/
theorem takeFirst_cases (q : Nat) (remove : Bool) (s : State) :
    ((s.chain q).first = none ∧ takeFirst q remove s = s.respond .empty 0x000000FF)
    ∨ (∃ k, (s.chain q).first = some k ∧ remove = false ∧ takeFirst q remove s = s.respond .ok (nodeResult (some k)))
    ∨ (∃ k, (s.chain q).first = some k ∧ remove = true
        ∧ takeFirst q remove s = (detach q none k s).respond .ok (nodeResult (some k))) := by
  unfold takeFirst
  cases h : (s.chain q).first <;> cases remove <;> simp

/-- R138: no node, an absent node, or its detachment. -/
theorem removeNode_cases (q : Nat) (node : NodeRef) (s : State) :
    (node = none ∧ removeNode q node s = s.respond .noopNull 0)
    ∨ (∃ k, node = some k ∧ (s.walk q k).1 = false ∧ removeNode q node s = s.respond .noopAbsent 0)
    ∨ (∃ k, node = some k ∧ (s.walk q k).1 = true
        ∧ removeNode q node s = (detach q (s.walk q k).2 k s).respond .ok 0) := by
  cases node with
  | none => exact .inl ⟨rfl, rfl⟩
  | some k => cases h : (s.walk q k).1 <;> simp [removeNode, h]

/-- R139, R140, R141: the reporting commands only respond. -/
theorem hasNode_responds (q : Nat) (node : NodeRef) (s : State) :
    (node = none ∧ hasNode q node s = s.respond .noopNull 0)
    ∨ ∃ k, node = some k ∧ hasNode q node s = s.respond .ok (truth (s.reach q k)) := by
  cases node <;> simp [hasNode]

theorem nextNode_responds (node : NodeRef) (s : State) :
    (node = none ∧ nextNode node s = s.respond .noopNull 0x000000FF)
    ∨ ∃ k, node = some k ∧ nextNode node s = s.respond .ok (nodeResult (s.next k)) := by
  cases node <;> simp [nextNode]

theorem lastNode_responds (q : Nat) (s : State) :
    ((s.chain q).last = none ∧ lastNode q s = s.respond .empty 0x000000FF)
    ∨ ∃ k, (s.chain q).last = some k ∧ lastNode q s = s.respond .ok (nodeResult (some k)) := by
  unfold lastNode
  cases h : (s.chain q).last <;> simp

/-! ### What a rule can do in all -/

/-- What an accepted writing command writes, the response aside; a command that only reports writes nothing. -/
def effect : Instr → State → State
  | .ni16Set r v => fun s => s.setHalf r (pack16 v)
  | .ni16Ld r c => fun s =>
    s.setHalf r ((s.buffer (s.cur c).buf).data.getD (s.cur c).pos 0,
      (s.buffer (s.cur c).buf).data.getD ((s.cur c).pos + 1) 0)
  | .ni32Set r v => fun s => s.setReg r (pack32 v)
  | .ni32Ld r c => fun s =>
    s.setReg r
      { b0 := (s.buffer (s.cur c).buf).data.getD (s.cur c).pos 0
        b1 := (s.buffer (s.cur c).buf).data.getD ((s.cur c).pos + 1) 0
        b2 := (s.buffer (s.cur c).buf).data.getD ((s.cur c).pos + 2) 0
        b3 := (s.buffer (s.cur c).buf).data.getD ((s.cur c).pos + 3) 0 }
  | .ni32Inc r => fun s => s.setReg r ((s.reg r).addCarry { b0 := 0, b1 := 0, b2 := 0, b3 := 0 } 1)
  | .ni32Add r q => fun s => s.setReg r ((s.reg r).addCarry (s.reg q) 0)
  | .curOpen c b => fun s => s.setCur c { buf := b, start := 0, pos := 0, stop := s.len b }
  | .curInc c => fun s => s.setCur c { s.cur c with pos := (s.cur c).pos + 1 }
  | .curAdv c n => fun s => s.setCur c { s.cur c with pos := (s.cur c).pos + n.toNat }
  | .bufAppend b n a => fun s => s.setData b ((s.buffer b).data ++ s.readSrc a n.toNat)
  | .bufClear b => fun s => s.setData b []
  | .csClear => fun s => s.setSum 0
  | .csAcc r => fun s => s.setSum (accumulate s.sum (unpack16 (s.half r)))
  | .csAcci w => fun s => s.setSum (accumulate s.sum w)
  | .csSum => fun s => s.setSum (fold s.sum)
  | .csRange b off n => fun s =>
    s.setSum (sumBytes s.sum (s.readBuf b off.toNat (rangeStop (s.len b) off.toNat n.toNat - off.toNat)))
  | .csRangec c off n => fun s =>
    s.setSum (sumBytes s.sum (s.readBuf (s.cur c).buf ((s.cur c).pos + off.toNat)
      (rangeStop (s.remaining c) off.toNat n.toNat - off.toNat)))
  | .chPrepend q k => fun s => k.elim s (linkHead q · s)
  | .chAppend q k => fun s => k.elim s (linkTail q · s)
  | .chPush q k useFifo => fun s => k.elim s ((if useFifo then linkTail else linkHead) q · s)
  | .chFirst q remove => fun s => if remove then (s.chain q).first.elim s (detach q none · s) else s
  | .chPop q => fun s => (s.chain q).first.elim s (detach q none · s)
  | .chRemove q k => fun s => k.elim s fun k => detach q (s.walk q k).2 k s
  | .nop => id
  | .rdcsr _ => id
  | .ni16Get _ => id
  | .ni16Eq _ _ => id
  | .ni16Ne _ _ => id
  | .ni16Eqi _ _ => id
  | .ni16Nei _ _ => id
  | .ni32Get _ => id
  | .ni32Eq _ _ => id
  | .ni32Ne _ _ => id
  | .ni32Eqi _ _ => id
  | .ni32Nei _ _ => id
  | .ni32Lt _ _ => id
  | .curRem _ => id
  | .curPeek _ => id
  | .bufLen _ => id
  | .bufRdb _ _ => id
  | .chHas _ _ => id
  | .chNext _ => id
  | .chLast _ => id

/-- Every rule responds with the state unchanged (and then not with `FAULT`), raises a fault, or writes its effect and
responds `OK`. -/
theorem ownRule_ends (i : Instr) (s : State) :
    (∃ st res, st ≠ .fault ∧ ownRule i s = s.respond st res) ∨ (∃ c, ownRule i s = s.raise c)
      ∨ ∃ res, ownRule i s = (effect i s).respond .ok res := by
  have R : ∀ {x : State} {st res}, st ≠ Status.fault → x = s.respond st res →
      (∃ st res, st ≠ Status.fault ∧ x = s.respond st res) ∨ (∃ c, x = s.raise c)
        ∨ ∃ res, x = (effect i s).respond .ok res := fun h e => .inl ⟨_, _, h, e⟩
  have F : ∀ {x : State} {c}, x = s.raise c →
      (∃ st res, st ≠ Status.fault ∧ x = s.respond st res) ∨ (∃ c, x = s.raise c)
        ∨ ∃ res, x = (effect i s).respond .ok res := fun e => .inr (.inl ⟨_, e⟩)
  have W : ∀ {x : State} {res}, x = (effect i s).respond .ok res →
      (∃ st res, st ≠ Status.fault ∧ x = s.respond st res) ∨ (∃ c, x = s.raise c)
        ∨ ∃ res, x = (effect i s).respond .ok res := fun e => .inr (.inr ⟨_, e⟩)
  cases i
  case ni16Ld r c =>
    rcases loadHalf_cases r c s with ⟨_, e⟩ | ⟨_, _, e⟩ | ⟨_, _, e⟩
    · exact F e
    · exact F e
    · exact W e
  case ni32Ld r c =>
    rcases loadReg_cases r c s with ⟨_, e⟩ | ⟨_, _, e⟩ | ⟨_, _, e⟩
    · exact F e
    · exact F e
    · exact W e
  case curPeek c =>
    rcases peek_cases c s with ⟨_, e⟩ | ⟨_, _, e⟩ | ⟨_, _, e⟩
    · exact F e
    · exact F e
    · exact R (by decide) e
  case curInc c =>
    rcases advance_cases c 1 s with ⟨_, e⟩ | ⟨_, e⟩
    · exact F e
    · exact W e
  case curAdv c n =>
    rcases advance_cases c n.toNat s with ⟨_, e⟩ | ⟨_, e⟩
    · exact F e
    · exact W e
  case bufAppend b n a =>
    rcases appendBytes_cases b n a s with ⟨_, e⟩ | ⟨_, _, e⟩ | ⟨_, _, _, e⟩ | ⟨_, _, _, e⟩
    · exact R (by decide) e
    · exact R (by decide) e
    · exact R (by decide) e
    · exact W e
  case bufRdb b x => rcases readByteAt_cases b x s with ⟨_, e⟩ | ⟨_, e⟩ <;> exact R (by decide) e
  case csRange b off n =>
    rcases sumRange_cases b off.toNat n.toNat s with ⟨_, e⟩ | ⟨_, _, e⟩ | ⟨_, _, _, e⟩
    · exact R (by decide) e
    · exact R (by decide) e
    · exact W e
  case csRangec c off n =>
    rcases sumCursorRange_cases c off.toNat n.toNat s with ⟨_, e⟩ | ⟨_, _, e⟩ | ⟨_, _, _, _, _, e⟩ | ⟨_, _, _, _, e⟩
    · exact R (by decide) e
    · exact R (by decide) e
    · exact F e
    · exact W e
  case chPrepend q k =>
    rcases insertNode_cases linkHead q k s with ⟨_, e⟩ | ⟨_, _, _, e⟩ | ⟨_, _, _, _, e⟩ | ⟨_, rfl, _, _, e⟩
    · exact R (by decide) e
    · exact R (by decide) e
    · exact F e
    · exact W e
  case chAppend q k =>
    rcases insertNode_cases linkTail q k s with ⟨_, e⟩ | ⟨_, _, _, e⟩ | ⟨_, _, _, _, e⟩ | ⟨_, rfl, _, _, e⟩
    · exact R (by decide) e
    · exact R (by decide) e
    · exact F e
    · exact W e
  case chPush q k f =>
    rcases insertNode_cases (if f then linkTail else linkHead) q k s with
      ⟨_, e⟩ | ⟨_, _, _, e⟩ | ⟨_, _, _, _, e⟩ | ⟨_, rfl, _, _, e⟩
    · exact R (by decide) e
    · exact R (by decide) e
    · exact F e
    · exact W e
  case chFirst q f =>
    rcases takeFirst_cases q f s with ⟨_, e⟩ | ⟨_, _, rfl, e⟩ | ⟨k, h, rfl, e⟩
    · exact R (by decide) e
    · exact R (by decide) e
    · have he : effect (.chFirst q true) s = detach q none k s := by
        simp only [effect, h, Option.elim_some, if_true]
      exact .inr (.inr ⟨nodeResult (some k), by rw [he]; exact e⟩)
  case chPop q =>
    rcases takeFirst_cases q true s with ⟨_, e⟩ | ⟨_, _, h, e⟩ | ⟨k, h, _, e⟩
    · exact R (by decide) e
    · cases h
    · have he : effect (.chPop q) s = detach q none k s := by
        simp only [effect, h, Option.elim_some]
      exact .inr (.inr ⟨nodeResult (some k), by rw [he]; exact e⟩)
  case chRemove q k =>
    rcases removeNode_cases q k s with ⟨_, e⟩ | ⟨_, _, _, e⟩ | ⟨_, rfl, _, e⟩
    · exact R (by decide) e
    · exact R (by decide) e
    · exact W e
  case chHas q k => rcases hasNode_responds q k s with ⟨_, e⟩ | ⟨_, _, e⟩ <;> exact R (by decide) e
  case chNext k => rcases nextNode_responds k s with ⟨_, e⟩ | ⟨_, _, e⟩ <;> exact R (by decide) e
  case chLast q => rcases lastNode_responds q s with ⟨_, e⟩ | ⟨_, _, e⟩ <;> exact R (by decide) e
  all_goals first | exact R (by decide) rfl | exact W rfl

/-- Everything a command can do: respond with the state unchanged, raise a fault out of the fault-free state, or write
its effect and respond `OK`. -/
theorem exec_ends {i : Instr} {s t : State} (h : exec i s = .next t) :
    (∃ st res, st ≠ .fault ∧ t = s.respond st res) ∨ (s.fault = 0 ∧ ∃ c, t = s.raise c)
      ∨ ∃ res, s.fault = 0 ∧ i.wellFormed s.cfg = true ∧ t = (effect i s).respond .ok res := by
  rcases exec_next h with ⟨_, _, e⟩ | ⟨_, _, e⟩ | ⟨hw, h0, e⟩
  · exact .inl ⟨_, _, by decide, e⟩
  · exact .inl ⟨_, _, by decide, e⟩
  · rcases h0 with hf | ⟨csr, rfl⟩
    · rcases ownRule_ends i s with ⟨st, res, hst, e'⟩ | ⟨c, e'⟩ | ⟨res, e'⟩
      · exact .inl ⟨st, res, hst, e.trans e'⟩
      · exact .inr (.inl ⟨hf, c, e.trans e'⟩)
      · exact .inr (.inr ⟨res, hf, hw, e.trans e'⟩)
    · exact .inl ⟨_, _, by decide, e⟩

end Sys2Proof.Machine
end

