-- ==== Sys2Proof/Laws/Chain.lean ====
section
/-! SUPPORT. Chains as sequences (R17, R142): the walk of R130 over a linked sequence, and what the link updates of R132,
R133 and R135 do to the sequence of the chain. -/

namespace Sys2Proof.Machine

/-! ### Linked sequences -/

/-- A sequence is linked in any state that agrees on the links of its nodes. -/
theorem linked_congr {s t : State} {r : NodeRef} {p : List Nat} (h : ∀ k ∈ p, t.next k = s.next k) :
    linked t r p = linked s r p := by
  induction p generalizing r with
  | nil => rfl
  | cons a p ih =>
    simp only [linked]
    rw [h a (by simp), ih fun k hk => h k (by simp [hk])]

theorem linked_nil {s : State} {r : NodeRef} : linked s r [] = true ↔ r = none := by simp [linked]

theorem linked_cons {s : State} {r : NodeRef} {k : Nat} {p : List Nat} :
    linked s r (k :: p) = true ↔ r = some k ∧ linked s (s.next k) p = true := by simp [linked]

/-- What follows a node of a linked sequence is linked from its link. -/
theorem linked_after {s : State} {r : NodeRef} {pre : List Nat} {k : Nat} {post : List Nat}
    (h : linked s r (pre ++ k :: post) = true) : linked s (s.next k) post = true := by
  induction pre generalizing r with
  | nil => exact (linked_cons.mp h).2
  | cons a pre ih => exact ih (linked_cons.mp h).2

/-- A sequence joined to another at node `l`, whose link now starts the other. -/
theorem linked_join {s t : State} {r : NodeRef} {pre : List Nat} {l : Nat} {old new : List Nat}
    (h : linked s r (pre ++ l :: old) = true) (hn : ∀ m ∈ pre, t.next m = s.next m)
    (hl : linked t (t.next l) new = true) : linked t r (pre ++ l :: new) = true := by
  induction pre generalizing r with
  | nil => exact linked_cons.mpr ⟨(linked_cons.mp h).1, hl⟩
  | cons a pre ih =>
    obtain ⟨e, h⟩ := linked_cons.mp h
    refine linked_cons.mpr ⟨e, ?_⟩
    rw [hn a (by simp)]
    exact ih h fun m hm => hn m (by simp [hm])

/-- The walk does not find a node that the sequence lacks. -/
theorem walkFrom_absent {s : State} {k fuel : Nat} {prev r : NodeRef} {p : List Nat} (h : linked s r p = true)
    (hk : k ∉ p) : s.walkFrom k fuel prev r = (false, none) := by
  induction p generalizing prev r fuel with
  | nil =>
    rw [linked_nil.mp h]
    cases fuel <;> rfl
  | cons a p ih =>
    obtain ⟨rfl, h2⟩ := linked_cons.mp h
    cases fuel with
    | zero => rfl
    | succ fuel =>
      rw [State.walkFrom, if_neg (by rintro rfl; simp at hk)]
      exact ih h2 fun hp => hk (by simp [hp])

/-- The walk finds a node of the sequence and the node before it. -/
theorem walkFrom_found {s : State} {k fuel : Nat} {prev r : NodeRef} {pre post : List Nat}
    (h : linked s r (pre ++ k :: post) = true) (hk : k ∉ pre) (hf : pre.length < fuel) :
    s.walkFrom k fuel prev r = (true, (pre.getLast?).or prev) := by
  induction pre generalizing prev r fuel with
  | nil =>
    obtain ⟨rfl, -⟩ := linked_cons.mp h
    cases fuel with
    | zero => simp at hf
    | succ fuel => simp [State.walkFrom]
  | cons a pre ih =>
    obtain ⟨rfl, h2⟩ := linked_cons.mp h
    cases fuel with
    | zero => simp at hf
    | succ fuel =>
      rw [State.walkFrom, if_neg (by rintro rfl; simp at hk)]
      rw [ih h2 (fun hp => hk (by simp [hp])) (by simpa using hf)]
      cases pre <;> simp [List.getLast?_cons]

/-! ### `Represents`, chain by chain -/

theorem mem_flatten_iff {L : List (List Nat)} {k : Nat} : k ∈ L.flatten ↔ ∃ q, k ∈ L.getD q [] := by
  simp only [List.mem_flatten, List.getD_eq_getElem?_getD]
  constructor
  · rintro ⟨l, hl, hk⟩
    obtain ⟨q, hq, rfl⟩ := List.getElem_of_mem hl
    exact ⟨q, by simpa [hq] using hk⟩
  · rintro ⟨q, hk⟩
    by_cases hq : q < L.length
    · exact ⟨L[q], List.getElem_mem hq, by simpa [hq] using hk⟩
    · simp [hq] at hk

/-- A chain number whose sequence has a node is a number of a chain. -/
theorem lt_of_mem_getD {L : List (List Nat)} {q k : Nat} (h : k ∈ L.getD q []) : q < L.length := by
  by_contra hq
  simp [List.getD_eq_getElem?_getD, show ¬ q < L.length from hq] at h

/-- No node twice in the sequences together: none twice in one, none in two. -/
theorem nodup_flatten_iff {L : List (List Nat)} :
    L.flatten.Nodup ↔ (∀ q, (L.getD q []).Nodup)
      ∧ ∀ q p k, q ≠ p → k ∈ L.getD q [] → k ∉ L.getD p [] := by
  rw [List.nodup_flatten, List.pairwise_iff_getElem]
  constructor
  · rintro ⟨hn, hd⟩
    refine ⟨fun q => ?_, fun q p k hqp hq hp => ?_⟩
    · by_cases hq : q < L.length
      · simpa [List.getD_eq_getElem?_getD, hq] using hn _ (List.getElem_mem hq)
      · simp [List.getD_eq_getElem?_getD, hq]
    · have hq' := lt_of_mem_getD hq
      have hp' := lt_of_mem_getD hp
      simp only [List.getD_eq_getElem?_getD, hq', hp', List.getElem?_eq_getElem, Option.getD_some] at hq hp
      rcases Nat.lt_or_gt_of_ne hqp with h | h
      · exact hd q p hq' hp' h hq hp
      · exact hd p q hp' hq' h hp hq
  · rintro ⟨hn, hd⟩
    refine ⟨fun l hl => ?_, fun q p hq hp hqp k hkq hkp => ?_⟩
    · obtain ⟨q, hq, rfl⟩ := List.getElem_of_mem hl
      simpa [List.getD_eq_getElem?_getD, hq] using hn q
    · refine hd q p k (by omega) ?_ ?_
      · simpa [List.getD_eq_getElem?_getD, hq] using hkq
      · simpa [List.getD_eq_getElem?_getD, hp] using hkp

/-- The members of a chain's sequence are nodes of the block. -/
theorem Represents.lt {s : State} {L : List (List Nat)} (h : Represents s L) {q k : Nat} (hk : k ∈ L.getD q []) :
    k < s.cfg.nbuf :=
  h.2.2.2.1 k (mem_flatten_iff.mpr ⟨q, hk⟩)

/-- A chain has at most `NBUF` members (I3 of R17). -/
theorem Represents.length_le {s : State} {L : List (List Nat)} (h : Represents s L) (q : Nat) :
    (L.getD q []).length ≤ s.cfg.nbuf := by
  have hn := (nodup_flatten_iff.mp h.2.2.1).1 q
  have := hn.subperm (l₂ := List.range s.cfg.nbuf) fun k hk => List.mem_range.mpr (h.lt hk)
  simpa using this.length_le

/-- R130: the walk decides membership. -/
theorem Represents.reach_iff {s : State} {L : List (List Nat)} (h : Represents s L) {q : Nat} (hq : q < s.cfg.nchain)
    (k : Nat) : s.reach q k = true ↔ k ∈ L.getD q [] := by
  have hl := (h.2.1 q hq).1
  constructor
  · intro hr
    by_contra hk
    rw [State.reach, State.walk, walkFrom_absent hl hk] at hr
    cases hr
  · intro hk
    obtain ⟨pre, post, e⟩ := List.append_of_mem hk
    have hn := (nodup_flatten_iff.mp h.2.2.1).1 q
    have hlen := h.length_le q
    rw [e] at hl hn hlen
    have hk' : k ∉ pre := fun hp => (List.nodup_append.mp hn).2.2 k hp k (by simp) rfl
    rw [State.reach, State.walk, walkFrom_found hl hk' (by simp at hlen; omega)]

/-- R131: a free node is in no chain, a member of a chain is in no other. -/
theorem Represents.inOtherChain_iff {s : State} {L : List (List Nat)} (h : Represents s L) (q k : Nat) :
    s.inOtherChain q k = true ↔ ∃ p, p ≠ q ∧ k ∈ L.getD p [] := by
  rw [Machine.inOtherChain_iff]
  constructor
  · rintro ⟨p, hpq, hp, hr⟩
    exact ⟨p, hpq, (h.reach_iff hp k).mp hr⟩
  · rintro ⟨p, hpq, hk⟩
    have hp := lt_of_mem_getD hk
    rw [h.1] at hp
    exact ⟨p, hpq, hp, (h.reach_iff hp k).mpr hk⟩

theorem getD_set {L : List (List Nat)} {q p : Nat} {X : List Nat} (hq : q < L.length) :
    (L.set q X).getD p [] = if p = q then X else L.getD p [] := by
  simp only [List.getD_eq_getElem?_getD, List.getElem?_set]
  by_cases h : q = p
  · subst h; simp [hq]
  · simp [h, Ne.symm h]

/-- One chain's sequence replaced: the other chains and their links are as before, the new sequence is linked, takes only
members of the chain and free nodes, and the nodes it leaves out are free. -/
theorem Represents.replace {s t : State} {L : List (List Nat)} {q : Nat} {X : List Nat} (h : Represents s L)
    (hq : q < s.cfg.nchain) (hc : t.cfg = s.cfg) (hchain : ∀ p, p ≠ q → t.chain p = s.chain p)
    (hnext : ∀ m, m ∉ L.getD q [] → m ∉ X → t.next m = s.next m)
    (hl : linked t (t.chain q).first X = true) (hlast : (t.chain q).last = X.getLast?) (hnd : X.Nodup)
    (hx : ∀ k ∈ X, k < s.cfg.nbuf) (hdis : ∀ k ∈ X, k ∈ L.getD q [] ∨ k ∉ L.flatten)
    (hfree : ∀ k ∈ L.getD q [], k ∉ X → t.next k = none) : Represents t (L.set q X) := by
  obtain ⟨hlen, hch, hflat, hlt, hnone⟩ := h
  obtain ⟨hn, hd⟩ := nodup_flatten_iff.mp hflat
  have hq' : q < L.length := by omega
  have other : ∀ p k, p ≠ q → k ∈ L.getD p [] → k ∉ X := fun p k hp hk hX => by
    rcases hdis k hX with h | h
    · exact hd p q k hp hk h
    · exact h (mem_flatten_iff.mpr ⟨p, hk⟩)
  refine ⟨by simp [hlen, hc], fun p hp => ?_, ?_, fun k hk => ?_, fun k hk hkf => ?_⟩
  · rw [getD_set hq']
    by_cases hpq : p = q
    · subst hpq; rw [if_pos rfl]; exact ⟨hl, hlast⟩
    · rw [if_neg hpq, hchain p hpq]
      refine ⟨?_, (hch p (hc ▸ hp)).2⟩
      rw [← (hch p (hc ▸ hp)).1]
      exact linked_congr fun k hk => hnext k (hd p q k hpq hk) (other p k hpq hk)
  · rw [nodup_flatten_iff]
    refine ⟨fun p => ?_, fun p p' k hpp hk hk' => ?_⟩
    · rw [getD_set hq']; split
      · exact hnd
      · exact hn p
    · rw [getD_set hq'] at hk hk'
      split at hk <;> split at hk'
      · omega
      · next h1 h2 => exact other p' k h2 hk' hk
      · next h1 h2 => exact other p k h1 hk hk'
      · exact hd p p' k hpp hk hk'
  · obtain ⟨p, hk⟩ := mem_flatten_iff.mp hk
    rw [getD_set hq'] at hk
    rw [hc]
    split at hk
    · exact hx k hk
    · exact hlt k (mem_flatten_iff.mpr ⟨p, hk⟩)
  · rw [mem_flatten_iff, not_exists] at hkf
    have hkX : k ∉ X := by have := hkf q; rwa [getD_set hq', if_pos rfl] at this
    by_cases hkq : k ∈ L.getD q []
    · exact hfree k hkq hkX
    · rw [hnext k hkq hkX]
      refine hnone k (hc ▸ hk) fun hf => ?_
      obtain ⟨p, hp⟩ := mem_flatten_iff.mp hf
      by_cases hpq : p = q
      · exact hkq (hpq ▸ hp)
      · have := hkf p
        rw [getD_set hq', if_neg hpq] at this
        exact this hp

/-- `Represents` reads the configuration, the descriptors and the links alone. -/
theorem Represents.congr {s t : State} {L : List (List Nat)} (h : Represents s L) (hc : t.cfg = s.cfg)
    (hch : ∀ q, t.chain q = s.chain q) (hn : ∀ k, t.next k = s.next k) : Represents t L := by
  obtain ⟨hlen, hl, hflat, hlt, hnone⟩ := h
  refine ⟨by rw [hc, hlen], fun q hq => ?_, hflat, by rwa [hc], fun k hk hkf => ?_⟩
  · rw [hch, linked_congr fun k _ => hn k]
    exact hl q (hc ▸ hq)
  · rw [hn]; exact hnone k (hc ▸ hk) hkf

/-! ### Frames of the link updates -/

theorem linkHead_frame (q k : Nat) (s : State) :
    linkHead q k s = { s with bufs := (linkHead q k s).bufs, chains := (linkHead q k s).chains } := by
  unfold linkHead; dsimp only; split <;> rfl

theorem linkTail_frame (q k : Nat) (s : State) :
    linkTail q k s = { s with bufs := (linkTail q k s).bufs, chains := (linkTail q k s).chains } := by
  unfold linkTail; dsimp only; split <;> rfl

theorem detach_frame (q : Nat) (prev : NodeRef) (k : Nat) (s : State) :
    detach q prev k s = { s with bufs := (detach q prev k s).bufs, chains := (detach q prev k s).chains } := by
  unfold detach; dsimp only; split <;> split <;> rfl

theorem linkHead_data (q k b : Nat) (s : State) : ((linkHead q k s).buffer b).data = (s.buffer b).data := by
  unfold linkHead; dsimp only; split <;> simp

theorem linkTail_data (q k b : Nat) (s : State) : ((linkTail q k s).buffer b).data = (s.buffer b).data := by
  unfold linkTail; dsimp only; split <;> simp

theorem detach_data (q : Nat) (prev : NodeRef) (k b : Nat) (s : State) :
    ((detach q prev k s).buffer b).data = (s.buffer b).data := by
  unfold detach; dsimp only; split <;> split <;> simp

theorem linkHead_sized {q k : Nat} {s : State} (h : s.Sized) : (linkHead q k s).Sized := by
  unfold linkHead State.Sized; dsimp only; split <;> simpa using h

theorem linkTail_sized {q k : Nat} {s : State} (h : s.Sized) : (linkTail q k s).Sized := by
  unfold linkTail State.Sized; dsimp only; split <;> simpa using h

theorem detach_sized {q : Nat} {prev : NodeRef} {k : Nat} {s : State} (h : s.Sized) : (detach q prev k s).Sized := by
  unfold detach State.Sized; dsimp only; split <;> split <;> simpa using h

/-! ### The links and descriptors after an update -/

/-- R132: the links after an insertion at the head. -/
theorem linkHead_next {q k : Nat} {s : State} (hk : k < s.bufs.length) (m : Nat) :
    (linkHead q k s).next m = if m = k then (s.chain q).first else s.next m := by
  unfold linkHead; dsimp only; split <;> simp [State.next_setNext, hk]

theorem linkHead_chain {q k : Nat} {s : State} (hq : q < s.chains.length) (p : Nat) :
    (linkHead q k s).chain p
      = if p = q then ⟨some k, if (s.chain q).first = none then some k else (s.chain q).last⟩ else s.chain p := by
  unfold linkHead; dsimp only; split <;> by_cases h : p = q <;>
    simp [State.chain_setFirst, State.chain_setLast, hq, h]

/-- R133: the links after an insertion at the tail. -/
theorem linkTail_next {q k : Nat} {s : State} (hk : k < s.bufs.length) (hl : ∀ l, (s.chain q).last = some l → l < s.bufs.length)
    (m : Nat) :
    (linkTail q k s).next m
      = if (s.chain q).first ≠ none ∧ (s.chain q).last = some m then some k
        else if m = k then none else s.next m := by
  unfold linkTail; dsimp only
  cases hf : (s.chain q).first <;> cases hla : (s.chain q).last
  · simp [State.next_setNext, hk]
  · simp [State.next_setNext, hk]
  · simp [State.next_setNext, hk]
  · next l =>
    have := hl l hla
    simp [State.next_setNext, hk, this, eq_comm]

theorem linkTail_chain {q k : Nat} {s : State} (hq : q < s.chains.length) (p : Nat) :
    (linkTail q k s).chain p
      = if p = q then ⟨if (s.chain q).first = none then some k else (s.chain q).first, some k⟩ else s.chain p := by
  unfold linkTail; dsimp only
  cases hf : (s.chain q).first <;> cases hla : (s.chain q).last <;> by_cases h : p = q <;>
    simp [State.chain_setFirst, State.chain_setLast, hq, h, hf]

/-- R135: the links after a removal. -/
theorem detach_next {q k : Nat} {prev : NodeRef} {s : State} (hk : k < s.bufs.length)
    (hp : ∀ p, prev = some p → p < s.bufs.length) (m : Nat) :
    (detach q prev k s).next m = if m = k then none else if prev = some m then s.next k else s.next m := by
  unfold detach; dsimp only
  cases prev with
  | none => split <;> simp [State.next_setNext, hk]
  | some p =>
    have := hp p rfl
    split <;> simp [State.next_setNext, hk, this, eq_comm]

theorem detach_chain {q k : Nat} {prev : NodeRef} {s : State} (hq : q < s.chains.length) (p : Nat) :
    (detach q prev k s).chain p
      = if p = q then ⟨if prev = none then s.next k else (s.chain q).first,
          if (s.chain q).last = some k then prev else (s.chain q).last⟩ else s.chain p := by
  unfold detach; dsimp only
  cases prev <;> split <;> by_cases h : p = q <;>
    simp_all [State.chain_setFirst, State.chain_setLast]

/-! ### What the updates do to the sequence (R142) -/

/-- R132: a free node put before the sequence. -/
theorem Represents.linkHead {s : State} {L : List (List Nat)} {q k : Nat} (h : Represents s L) (hs : s.Sized)
    (hq : q < s.cfg.nchain) (hk : k < s.cfg.nbuf) (hf : k ∉ L.flatten) :
    Represents (Machine.linkHead q k s) (L.set q (k :: L.getD q [])) := by
  have hkb : k < s.bufs.length := hs.1 ▸ hk
  have hqc : q < s.chains.length := hs.2 ▸ hq
  have hkq : k ∉ L.getD q [] := fun hm => hf (mem_flatten_iff.mpr ⟨q, hm⟩)
  obtain ⟨hl, hla⟩ := h.2.1 q hq
  refine h.replace hq (by rw [linkHead_frame]) (fun p hp => by rw [linkHead_chain hqc, if_neg hp])
    (fun m _ hm => ?_) ?_ ?_ ?_ ?_ ?_ ?_
  · rw [linkHead_next hkb, if_neg (by rintro rfl; simp at hm)]
  · rw [linkHead_chain hqc, if_pos rfl]
    refine linked_cons.mpr ⟨rfl, ?_⟩
    rw [linkHead_next hkb, if_pos rfl, ← hl]
    exact linked_congr fun m hm => by rw [linkHead_next hkb, if_neg (by rintro rfl; exact hkq hm)]
  · rw [linkHead_chain hqc, if_pos rfl]
    dsimp only
    rw [hla]
    cases e : L.getD q [] with
    | nil => rw [e] at hl; rw [linked_nil.mp hl]; rfl
    | cons a p => rw [e] at hl; rw [(linked_cons.mp hl).1]; simp [List.getLast?_cons]
  · exact List.nodup_cons.mpr ⟨hkq, (nodup_flatten_iff.mp h.2.2.1).1 q⟩
  · intro m hm
    rcases List.mem_cons.mp hm with rfl | hm
    · exact hk
    · exact h.lt hm
  · intro m hm
    rcases List.mem_cons.mp hm with rfl | hm
    · exact .inr hf
    · exact .inl hm
  · intro m hm hm'
    exact absurd (List.mem_cons_of_mem _ hm) hm'

/-- R133: a free node put after the sequence. -/
theorem Represents.linkTail {s : State} {L : List (List Nat)} {q k : Nat} (h : Represents s L) (hs : s.Sized)
    (hq : q < s.cfg.nchain) (hk : k < s.cfg.nbuf) (hf : k ∉ L.flatten) :
    Represents (Machine.linkTail q k s) (L.set q (L.getD q [] ++ [k])) := by
  have hkb : k < s.bufs.length := hs.1 ▸ hk
  have hqc : q < s.chains.length := hs.2 ▸ hq
  have hkq : k ∉ L.getD q [] := fun hm => hf (mem_flatten_iff.mpr ⟨q, hm⟩)
  have hn := (nodup_flatten_iff.mp h.2.2.1).1 q
  obtain ⟨hl, hla⟩ := h.2.1 q hq
  have hlb : ∀ l, (s.chain q).last = some l → l < s.bufs.length := fun l hll => by
    rw [hla] at hll
    exact hs.1 ▸ h.lt (List.mem_of_getLast? hll)
  refine h.replace hq (by rw [linkTail_frame]) (fun p hp => by rw [linkTail_chain hqc, if_neg hp])
    (fun m hm hm' => ?_) ?_ ?_ ?_ ?_ ?_ ?_
  · rw [linkTail_next hkb hlb, if_neg, if_neg (by rintro rfl; simp at hm')]
    rintro ⟨-, e⟩
    rw [hla] at e
    exact hm (List.mem_of_getLast? e)
  · rw [linkTail_chain hqc, if_pos rfl]
    dsimp only
    rcases List.eq_nil_or_concat (L.getD q []) with e | ⟨pre, l, e⟩
    · rw [e] at hl ⊢
      rw [linked_nil.mp hl]
      refine linked_cons.mpr ⟨rfl, ?_⟩
      rw [linkTail_next hkb hlb, linked_nil.mp hl]
      simp [linked]
    · rw [List.concat_eq_append] at e
      rw [e] at hl hla hkq hn ⊢
      have hlast : (s.chain q).last = some l := by simpa using hla
      have hfirst : (s.chain q).first ≠ none := by
        intro e0
        rw [e0] at hl
        cases pre <;> simp [linked] at hl
      rw [if_neg hfirst, List.append_assoc]
      refine linked_join hl (fun m hm => ?_) ?_
      · rw [linkTail_next hkb hlb, if_neg, if_neg (by rintro rfl; simp [hm] at hkq)]
        rintro ⟨-, e⟩
        rw [hlast] at e
        cases e
        exact (List.nodup_append.mp hn).2.2 l hm l (by simp) rfl
      · rw [linkTail_next hkb hlb, if_pos ⟨hfirst, hlast⟩]
        refine linked_cons.mpr ⟨rfl, ?_⟩
        rw [linkTail_next hkb hlb, if_neg, if_pos rfl]
        · rfl
        · rintro ⟨-, e⟩
          rw [hlast] at e
          cases e
          simp at hkq
  · rw [linkTail_chain hqc, if_pos rfl]
    simp
  · exact List.nodup_append.mpr ⟨hn, by simp, fun a ha b hb => by simp at hb; rintro rfl; exact hkq (hb ▸ ha)⟩
  · intro m hm
    rcases List.mem_append.mp hm with hm | hm
    · exact h.lt hm
    · simp at hm; exact hm ▸ hk
  · intro m hm
    rcases List.mem_append.mp hm with hm | hm
    · exact .inl hm
    · simp at hm; exact .inr (hm ▸ hf)
  · intro m hm hm'
    exact absurd (List.mem_append_left _ hm) hm'

/-- R135: one node taken out of the sequence. -/
theorem Represents.detach {s : State} {L : List (List Nat)} {q k : Nat} {pre post : List Nat} (h : Represents s L)
    (hs : s.Sized) (hq : q < s.cfg.nchain) (e : L.getD q [] = pre ++ k :: post) :
    Represents (Machine.detach q pre.getLast? k s) (L.set q (pre ++ post)) := by
  have mem : ∀ m ∈ pre ++ post, m ∈ L.getD q [] := fun m hm => by
    rw [e]
    rcases List.mem_append.mp hm with hm | hm <;> simp [hm]
  have hn := (nodup_flatten_iff.mp h.2.2.1).1 q
  obtain ⟨hl, hla⟩ := h.2.1 q hq
  have hk : k < s.bufs.length := hs.1 ▸ h.lt (q := q) (by rw [e]; simp)
  have hp : ∀ p, pre.getLast? = some p → p < s.bufs.length := fun p hp =>
    hs.1 ▸ h.lt (mem p (List.mem_append_left _ (List.mem_of_getLast? hp)))
  have hqc : q < s.chains.length := hs.2 ▸ hq
  rw [e] at hn hl hla
  have hn' : (pre ++ post).Nodup ∧ k ∉ pre ++ post := by
    have := List.nodup_middle.mp hn
    exact ⟨(List.nodup_cons.mp this).2, (List.nodup_cons.mp this).1⟩
  have hpost := linked_after hl
  have keep : ∀ m ∈ post, (Machine.detach q pre.getLast? k s).next m = s.next m := fun m hm => by
    rw [detach_next hk hp, if_neg (by rintro rfl; exact hn'.2 (List.mem_append_right _ hm)), if_neg]
    intro ep
    exact (List.nodup_append.mp hn'.1).2.2 m (List.mem_of_getLast? ep) m hm rfl
  refine h.replace hq (by rw [detach_frame]) (fun p hp => by rw [detach_chain hqc, if_neg hp])
    (fun m hm hm' => ?_) ?_ ?_ hn'.1 (fun m hm => h.lt (mem m hm)) (fun m hm => .inl (mem m hm)) (fun m hm hm' => ?_)
  · rw [detach_next hk hp, if_neg (by rintro rfl; exact hm (by rw [e]; simp)), if_neg]
    intro ep
    exact hm' (List.mem_append_left _ (List.mem_of_getLast? ep))
  · rw [detach_chain hqc, if_pos rfl]
    dsimp only
    rcases List.eq_nil_or_concat pre with rfl | ⟨pre', p, rfl⟩
    · rw [List.getLast?_nil, if_pos rfl, ← hpost]
      exact linked_congr keep
    · rw [List.concat_eq_append] at *
      rw [List.append_assoc] at hl ⊢
      rw [if_neg (by simp)]
      refine linked_join hl (fun m hm => ?_) ?_
      · rw [detach_next hk hp, if_neg (by rintro rfl; exact hn'.2 (by simp [hm])), if_neg]
        intro ep
        have : p = m := by simpa using ep
        subst this
        exact (List.nodup_append.mp (List.nodup_append.mp hn'.1).1).2.2 p hm p (by simp) rfl
      · rw [detach_next hk hp, if_neg (by rintro rfl; exact hn'.2 (by simp)), if_pos (by simp), ← hpost]
        exact linked_congr keep
  · rw [detach_chain hqc, if_pos rfl]
    dsimp only
    rw [hla]
    cases post with
    | nil => simp
    | cons a post =>
      rw [if_neg]
      · simp [List.getLast?_append, List.getLast?_cons]
      · intro ep
        have : k ∈ a :: post := List.mem_of_getLast? (by simpa [List.getLast?_append, List.getLast?_cons] using ep)
        exact hn'.2 (List.mem_append_right _ this)
  · rw [e] at hm
    have : m = k := by
      rcases List.mem_append.mp hm with h | h
      · exact absurd (List.mem_append_left _ h) hm'
      · rcases List.mem_cons.mp h with h | h
        · exact h
        · exact absurd (List.mem_append_right _ h) hm'
    rw [detach_next hk hp, if_pos this]

/-! ### What no effect writes -/

/-- No command's effect writes the parameters, SRC, the host's actions, the reset count or the `FAULT` register. -/
theorem effect_frame (i : Instr) (s : State) :
    (effect i s).cfg = s.cfg ∧ (effect i s).src = s.src ∧ (effect i s).actions = s.actions
      ∧ (effect i s).epoch = s.epoch ∧ (effect i s).fault = s.fault := by
  have T : ∀ {t : State} {b c}, t = { s with bufs := b, chains := c } →
      t.cfg = s.cfg ∧ t.src = s.src ∧ t.actions = s.actions ∧ t.epoch = s.epoch ∧ t.fault = s.fault := by
    rintro t b c rfl
    exact ⟨rfl, rfl, rfl, rfl, rfl⟩
  have H : ∀ q r, (Option.elim r s (detach q none · s)).cfg = s.cfg
      ∧ (Option.elim r s (detach q none · s)).src = s.src
      ∧ (Option.elim r s (detach q none · s)).actions = s.actions
      ∧ (Option.elim r s (detach q none · s)).epoch = s.epoch
      ∧ (Option.elim r s (detach q none · s)).fault = s.fault := by
    intro q r
    rcases r with _ | k
    · exact ⟨rfl, rfl, rfl, rfl, rfl⟩
    · exact T (t := detach q none k s) (detach_frame q none k s)
  cases i
  case chPrepend q k =>
    cases k
    · exact ⟨rfl, rfl, rfl, rfl, rfl⟩
    · exact T (t := linkHead _ _ s) (linkHead_frame _ _ s)
  case chAppend q k =>
    cases k
    · exact ⟨rfl, rfl, rfl, rfl, rfl⟩
    · exact T (t := linkTail _ _ s) (linkTail_frame _ _ s)
  case chPush q k f =>
    cases k
    · exact ⟨rfl, rfl, rfl, rfl, rfl⟩
    · cases f
      · exact T (t := linkHead _ _ s) (linkHead_frame _ _ s)
      · exact T (t := linkTail _ _ s) (linkTail_frame _ _ s)
  case chFirst q f =>
    cases f
    · exact ⟨rfl, rfl, rfl, rfl, rfl⟩
    · exact H q _
  case chPop q => exact H q _
  case chRemove q k =>
    cases k
    · exact ⟨rfl, rfl, rfl, rfl, rfl⟩
    · exact T (t := detach _ _ _ s) (detach_frame _ _ _ s)
  all_goals exact ⟨rfl, rfl, rfl, rfl, rfl⟩

end Sys2Proof.Machine
end

