-- ==== Sys2Proof/Laws/Decode.lean ====
section
/-! SUPPORT. The decoder and the encoder by their parts: fields and word, each operand kind, each format. -/

namespace Sys2Proof

/-! ### Fields and word (R50) -/

@[simp] theorem fieldsOf_wordOf (f : Fields) : fieldsOf (wordOf f) = f := by
  obtain ⟨opc, a, b, c, dw⟩ := f
  simp only [fieldsOf, wordOf, Fields.mk.injEq]
  refine ⟨?_, ?_, ?_, ?_, ?_⟩ <;>
  · apply BitVec.eq_of_getLsbD_eq
    intro i hi
    simp only [BitVec.getLsbD_extractLsb', BitVec.getLsbD_append, hi, decide_true, Bool.true_and]
    repeat first | rw [if_pos (by omega)] | rw [if_neg (by omega)]
    congr 1
    omega

theorem wordOf_fieldsOf (w : Command) : wordOf (fieldsOf w) = w := by
  apply BitVec.eq_of_getLsbD_eq
  intro i hi
  simp only [fieldsOf, wordOf, BitVec.getLsbD_extractLsb', BitVec.getLsbD_append]
  by_cases h1 : i < 32
  · simp [h1]
  · by_cases h2 : i < 40
    · simp [h1, show i - 32 < 8 by omega, show 32 + (i - 32) = i by omega]
    · by_cases h3 : i < 48
      · simp [h1, show ¬ i - 32 < 8 by omega, show i - 32 - 8 < 8 by omega, show 40 + (i - 32 - 8) = i by omega]
      · by_cases h4 : i < 56
        · simp [h1, show ¬ i - 32 < 8 by omega, show ¬ i - 32 - 8 < 8 by omega,
            show i - 32 - 8 - 8 < 8 by omega, show 48 + (i - 32 - 8 - 8) = i by omega]
        · simp [h1, show ¬ i - 32 < 8 by omega, show ¬ i - 32 - 8 < 8 by omega,
            show ¬ i - 32 - 8 - 8 < 8 by omega, show i - 32 - 8 - 8 - 8 < 8 by omega,
            show 56 + (i - 32 - 8 - 8 - 8) = i by omega]

/-- `IMM16` split into `B` and `Cf` and joined again. -/
@[simp] theorem imm16_split (opc a : Byte) (v : Word16) (dw : Word32) :
    Fields.imm16 ⟨opc, a, v.extractLsb' 8 8, v.extractLsb' 0 8, dw⟩ = v := by
  apply BitVec.eq_of_getLsbD_eq
  intro i hi
  simp only [Fields.imm16, BitVec.getLsbD_append, BitVec.getLsbD_extractLsb']
  by_cases h : i < 8
  · simp [h]
  · simp [h, show i - 8 < 8 by omega, show 8 + (i - 8) = i by omega]

/-- The high byte of `IMM16` is `B`. -/
@[simp] theorem imm16_high (f : Fields) : f.imm16.extractLsb' 8 8 = f.b := by
  apply BitVec.eq_of_getLsbD_eq
  intro i hi
  simp only [Fields.imm16, BitVec.getLsbD_extractLsb', BitVec.getLsbD_append, hi, decide_true, Bool.true_and]
  rw [if_neg (by omega), show 8 + i - 8 = i by omega]

/-- The low byte of `IMM16` is `Cf`. -/
@[simp] theorem imm16_low (f : Fields) : f.imm16.extractLsb' 0 8 = f.c := by
  apply BitVec.eq_of_getLsbD_eq
  intro i hi
  simp only [Fields.imm16, BitVec.getLsbD_extractLsb', BitVec.getLsbD_append, hi, decide_true, Bool.true_and]
  rw [if_pos (by omega), Nat.zero_add]

/-! ### Operand kinds (R52): what is written is read back, and only what is legal is read -/

@[simp] theorem readReg_putReg (r : Reg) : readReg (putReg r) = some r := by revert r; decide

@[simp] theorem readHalfReg_putHalfReg (r : HalfReg) : readHalfReg (putHalfReg r) = some r := by
  obtain ⟨i, h⟩ := r
  cases h <;> (revert i; decide)

@[simp] theorem readCur_putCur (c : Cur) : readCur (putCur c) = some c := by revert c; decide

@[simp] theorem readCsr_putCsr (c : Csr) : readCsr (putCsr c) = some c := by cases c <;> decide

@[simp] theorem readFlag_putFlag (f : Bool) : readFlag (putFlag f) = some f := by cases f <;> decide

theorem readNumber_putNumber {n : Nat} (h : n < 256) : readNumber (putNumber n) = some n := by
  simp [readNumber, putNumber, Nat.mod_eq_of_lt h]

theorem readNode_putNode {k : NodeRef} (h : ∀ n, k = some n → n < 255) : readNode (putNode k) = some k := by
  cases k with
  | none => simp [readNode, putNode]
  | some n =>
    have hn := h n rfl
    have : BitVec.ofNat 8 n ≠ 0xFF#8 := fun e => by
      have := congrArg BitVec.toNat e
      simp [Nat.mod_eq_of_lt (show n < 256 by omega)] at this
      omega
    simp [readNode, putNode, this, Nat.mod_eq_of_lt (show n < 256 by omega)]

theorem readReg_some {x : Byte} {r : Reg} : readReg x = some r ↔ x = putReg r := by
  revert x r; decide

theorem readHalfReg_some {x : Byte} {r : HalfReg} : readHalfReg x = some r ↔ x = putHalfReg r := by
  obtain ⟨i, h⟩ := r
  cases h <;> (revert x i; decide)

theorem readCur_some {x : Byte} {c : Cur} : readCur x = some c ↔ x = putCur c := by
  revert x c; decide

theorem readCsr_some {x : Byte} {c : Csr} : readCsr x = some c ↔ x = putCsr c := by
  cases c <;> (revert x; decide)

theorem readFlag_some {x : Byte} {f : Bool} : readFlag x = some f ↔ x = putFlag f := by
  cases f <;> (revert x; decide)

theorem putNumber_of_readNumber {x : Byte} {n : Nat} (h : readNumber x = some n) : putNumber n = x := by
  simp only [readNumber, Option.some.injEq] at h
  simp [putNumber, ← h]

theorem putNode_of_readNode {x : Byte} {k : NodeRef} (h : readNode x = some k) : putNode k = x := by
  simp only [readNode, Option.some.injEq] at h
  by_cases hx : x = 0xFF#8
  · simp [hx] at h; simp [← h, hx, putNode]
  · simp [hx] at h; simp [← h, putNode]

/-! ### Formats (R51): what each reader of a format accepts -/

theorem unusedZero_ok {z : Bool} {r : Except Reject Instr} {i : Instr} :
    unusedZero z r = .ok i ↔ z = true ∧ r = .ok i := by
  cases z <;> simp [unusedZero]

theorem operand1_ok {α : Type} {x : Option α} {mk : α → Instr} {i : Instr} :
    operand1 x mk = .ok i ↔ ∃ v, x = some v ∧ mk v = i := by
  cases x <;> simp [operand1]

theorem operand2_ok {α β : Type} {x : Option α} {y : Option β} {mk : α → β → Instr} {i : Instr} :
    operand2 x y mk = .ok i ↔ ∃ v u, x = some v ∧ y = some u ∧ mk v u = i := by
  cases x <;> cases y <;> simp [operand2]

theorem operand3_ok {α β γ : Type} {x : Option α} {y : Option β} {z : Option γ} {mk : α → β → γ → Instr}
    {i : Instr} :
    operand3 x y z mk = .ok i ↔ ∃ v u t, x = some v ∧ y = some u ∧ z = some t ∧ mk v u t = i := by
  cases x <;> cases y <;> cases z <;> simp [operand3]

/-- Format `Z`: the word is the opcode alone. -/
theorem asZ_ok {f : Fields} {i j : Instr} (h : asZ f i = .ok j) : i = j ∧ wordOf f = wordZ f.opc := by
  obtain ⟨opc, a, b, c, dw⟩ := f
  simp only [asZ, unusedZero_ok, Bool.and_eq_true, beq_iff_eq, Except.ok.injEq] at h
  obtain ⟨⟨⟨⟨rfl, rfl⟩, rfl⟩, rfl⟩, rfl⟩ := h
  exact ⟨rfl, rfl⟩

/-- Format `A1`: the operand was read from `A`, and the word is opcode and `A`. -/
theorem asA1_ok {α : Type} {f : Fields} {x : Byte → Option α} {mk : α → Instr} {i : Instr}
    (h : asA1 f x mk = .ok i) : ∃ v, x f.a = some v ∧ mk v = i ∧ wordOf f = wordA1 f.opc f.a := by
  obtain ⟨opc, a, b, c, dw⟩ := f
  simp only [asA1, unusedZero_ok, operand1_ok, Bool.and_eq_true, beq_iff_eq] at h
  obtain ⟨⟨⟨rfl, rfl⟩, rfl⟩, v, hv, rfl⟩ := h
  exact ⟨v, hv, rfl, rfl⟩

/-- Format `A2`. -/
theorem asA2_ok {α β : Type} {f : Fields} {x : Byte → Option α} {y : Byte → Option β} {mk : α → β → Instr}
    {i : Instr} (h : asA2 f x y mk = .ok i) :
    ∃ v u, x f.a = some v ∧ y f.b = some u ∧ mk v u = i ∧ wordOf f = wordA2 f.opc f.a f.b := by
  obtain ⟨opc, a, b, c, dw⟩ := f
  simp only [asA2, unusedZero_ok, operand2_ok, Bool.and_eq_true, beq_iff_eq] at h
  obtain ⟨⟨rfl, rfl⟩, v, u, hv, hu, rfl⟩ := h
  exact ⟨v, u, hv, hu, rfl, rfl⟩

/-- Format `A3`. -/
theorem asA3_ok {α β γ : Type} {f : Fields} {x : Byte → Option α} {y : Byte → Option β} {z : Byte → Option γ}
    {mk : α → β → γ → Instr} {i : Instr} (h : asA3 f x y z mk = .ok i) :
    ∃ v u t, x f.a = some v ∧ y f.b = some u ∧ z f.c = some t ∧ mk v u t = i
      ∧ wordOf f = wordA3 f.opc f.a f.b f.c := by
  obtain ⟨opc, a, b, c, dw⟩ := f
  simp only [asA3, unusedZero_ok, operand3_ok, beq_iff_eq] at h
  obtain ⟨rfl, v, u, t, hv, hu, ht, rfl⟩ := h
  exact ⟨v, u, t, hv, hu, ht, rfl, rfl⟩

/-- Format `AI`. -/
theorem asAI_ok {α : Type} {f : Fields} {x : Byte → Option α} {mk : α → Word16 → Instr} {i : Instr}
    (h : asAI f x mk = .ok i) :
    ∃ v, x f.a = some v ∧ mk v f.imm16 = i ∧ wordOf f = wordAI f.opc f.a f.imm16 := by
  simp only [asAI, unusedZero_ok, operand1_ok, beq_iff_eq] at h
  obtain ⟨hd, v, hv, rfl⟩ := h
  refine ⟨v, hv, rfl, ?_⟩
  rw [wordAI, imm16_high, imm16_low, ← hd]

/-- Format `I`. -/
theorem asI_ok {f : Fields} {mk : Word16 → Instr} {i : Instr} (h : asI f mk = .ok i) :
    mk f.imm16 = i ∧ wordOf f = wordI f.opc f.imm16 := by
  obtain ⟨opc, a, b, c, dw⟩ := f
  simp only [asI, unusedZero_ok, Bool.and_eq_true, beq_iff_eq, Except.ok.injEq] at h
  obtain ⟨⟨rfl, rfl⟩, rfl⟩ := h
  refine ⟨rfl, ?_⟩
  rw [wordI, imm16_high, imm16_low]

/-- Format `AD`. -/
theorem asAD_ok {α : Type} {f : Fields} {x : Byte → Option α} {mk : α → Word32 → Instr} {i : Instr}
    (h : asAD f x mk = .ok i) : ∃ v, x f.a = some v ∧ mk v f.dw = i ∧ wordOf f = wordAD f.opc f.a f.dw := by
  obtain ⟨opc, a, b, c, dw⟩ := f
  simp only [asAD, unusedZero_ok, operand1_ok, Bool.and_eq_true, beq_iff_eq] at h
  obtain ⟨⟨rfl, rfl⟩, v, hv, rfl⟩ := h
  exact ⟨v, hv, rfl, rfl⟩

/-- Format `AID`. -/
theorem asAID_ok {α : Type} {f : Fields} {x : Byte → Option α} {mk : α → Word16 → Word32 → Instr} {i : Instr}
    (h : asAID f x mk = .ok i) :
    ∃ v, x f.a = some v ∧ mk v f.imm16 f.dw = i ∧ wordOf f = wordAID f.opc f.a f.imm16 f.dw := by
  simp only [asAID, operand1_ok] at h
  obtain ⟨v, hv, rfl⟩ := h
  refine ⟨v, hv, rfl, ?_⟩
  rw [wordAID, imm16_high, imm16_low]

/-- The decoder on a word given by its fields. -/
theorem decode_wordOf (f : Fields) : decode (wordOf f) = decodeFields f := by
  rw [decode, fieldsOf_wordOf]

/-! ### The words by their fields (R51) -/

/-- The number of two bit vectors joined. -/
theorem toNat_join {m n : Nat} (x : BitVec m) (y : BitVec n) : (x ++ y).toNat = x.toNat * 2 ^ n + y.toNat := by
  rw [BitVec.toNat_append, ← Nat.shiftLeft_add_eq_or_of_lt y.isLt, Nat.shiftLeft_eq]

/-- R51, each format's word as its fields joined. -/
theorem wordZ_eq (opc : Byte) : wordZ opc = opc ++ 0#56 := by
  apply BitVec.eq_of_toNat_eq
  simp only [wordZ, wordOf, toNat_join, BitVec.ofNat_eq_ofNat, BitVec.toNat_ofNat]
  omega

theorem wordA1_eq (opc a : Byte) : wordA1 opc a = opc ++ a ++ 0#48 := by
  apply BitVec.eq_of_toNat_eq
  simp only [wordA1, wordOf, toNat_join, BitVec.ofNat_eq_ofNat, BitVec.toNat_ofNat]
  omega

theorem wordA2_eq (opc a b : Byte) : wordA2 opc a b = opc ++ a ++ b ++ 0#40 := by
  apply BitVec.eq_of_toNat_eq
  simp only [wordA2, wordOf, toNat_join, BitVec.ofNat_eq_ofNat, BitVec.toNat_ofNat]
  omega

theorem wordA3_eq (opc a b c : Byte) : wordA3 opc a b c = opc ++ a ++ b ++ c ++ 0#32 := rfl

/-- The two bytes of an `IMM16` joined. -/
theorem imm16_join (v : Word16) : v.extractLsb' 8 8 ++ v.extractLsb' 0 8 = v := by
  apply BitVec.eq_of_toNat_eq
  have := v.isLt
  simp only [toNat_join, BitVec.extractLsb'_toNat, Nat.shiftRight_eq_div_pow]
  omega

theorem wordAID_eq (opc a : Byte) (v : Word16) (dw : Word32) : wordAID opc a v dw = opc ++ a ++ v ++ dw := by
  apply BitVec.eq_of_toNat_eq
  have := v.isLt
  simp only [wordAID, wordOf, toNat_join, BitVec.extractLsb'_toNat, Nat.shiftRight_eq_div_pow]
  omega

theorem wordAI_eq (opc a : Byte) (v : Word16) : wordAI opc a v = opc ++ a ++ v ++ 0#32 := wordAID_eq opc a v 0

theorem wordI_eq (opc : Byte) (v : Word16) : wordI opc v = opc ++ 0#8 ++ v ++ 0#32 := wordAID_eq opc 0 v 0

theorem wordAD_eq (opc a : Byte) (dw : Word32) : wordAD opc a dw = opc ++ a ++ 0#16 ++ dw := wordAID_eq opc a 0 dw

end Sys2Proof
end

