-- ==== Sys2Proof/Laws/NetInt.lean ====
section
/-! SUPPORT. Network integers as numbers (R33 to R36): packing, unpacking, the byte loops of R85 and R86, the byte-wise
order of R87 and the byte-wise equalities. -/

namespace Sys2Proof.Machine

/-! ### Packing and unpacking -/

theorem NetInt.value_lt (n : NetInt) : n.value < 2 ^ 32 := by
  have := n.b0.isLt; have := n.b1.isLt; have := n.b2.isLt; have := n.b3.isLt
  unfold NetInt.value; omega

theorem pairValue_lt (x : Byte × Byte) : pairValue x < 2 ^ 16 := by
  have := x.1.isLt; have := x.2.isLt
  unfold pairValue; omega

/-- R34: the unpacked integer is the number the four bytes hold. -/
theorem unpack32_toNat (n : NetInt) : (unpack32 n).toNat = n.value := by
  simp only [unpack32, toNat_join, NetInt.value]
  omega

/-- R33: the unpacked integer is the number the two bytes hold. -/
theorem unpack16_toNat (x : Byte × Byte) : (unpack16 x).toNat = pairValue x := by
  simp only [unpack16, toNat_join, pairValue]
  omega

/-- R34: packing keeps the number. -/
theorem pack32_value (v : Word32) : (pack32 v).value = v.toNat := by
  have := v.isLt
  simp only [pack32, NetInt.value, BitVec.extractLsb'_toNat, Nat.shiftRight_eq_div_pow]
  omega

/-- R33: packing keeps the number. -/
theorem pack16_value (v : Word16) : pairValue (pack16 v) = v.toNat := by
  have := v.isLt
  simp only [pack16, pairValue, BitVec.extractLsb'_toNat, Nat.shiftRight_eq_div_pow]
  omega

/-- Four bytes are determined by their number. -/
theorem NetInt.value_inj {p q : NetInt} (h : p.value = q.value) : p = q := by
  obtain ⟨a, b, c, d⟩ := p
  obtain ⟨a', b', c', d'⟩ := q
  simp only [NetInt.value] at h
  have := a.isLt; have := b.isLt; have := c.isLt; have := d.isLt
  have := a'.isLt; have := b'.isLt; have := c'.isLt; have := d'.isLt
  simp only [NetInt.mk.injEq, ← BitVec.toNat_inj]
  omega

/-- Two bytes are determined by their number. -/
theorem pairValue_inj {x y : Byte × Byte} (h : pairValue x = pairValue y) : x = y := by
  obtain ⟨a, b⟩ := x
  obtain ⟨a', b'⟩ := y
  simp only [pairValue] at h
  have := a.isLt; have := b.isLt; have := a'.isLt; have := b'.isLt
  simp only [Prod.mk.injEq, ← BitVec.toNat_inj]
  omega

/-- R88: packing and unpacking are inverse. -/
theorem unpack32_pack32 (v : Word32) : unpack32 (pack32 v) = v :=
  BitVec.eq_of_toNat_eq (by rw [unpack32_toNat, pack32_value])

theorem unpack16_pack16 (v : Word16) : unpack16 (pack16 v) = v :=
  BitVec.eq_of_toNat_eq (by rw [unpack16_toNat, pack16_value])

/-! ### Arithmetic and order -/

/-- R85, R86: the byte loop adds the numbers and the carry modulo `2^32`. -/
theorem NetInt.addCarry_value (p q : NetInt) (carry : Nat) :
    (p.addCarry q carry).value = (p.value + q.value + carry) % 2 ^ 32 := by
  simp only [NetInt.addCarry, NetInt.value, BitVec.toNat_ofNat]
  omega

/-- R87: the byte-wise order is the order of the numbers. -/
theorem NetInt.lessThan_eq (p q : NetInt) : p.lessThan q = decide (p.value < q.value) := by
  have := p.b1.isLt; have := p.b2.isLt; have := p.b3.isLt
  have := q.b1.isLt; have := q.b2.isLt; have := q.b3.isLt
  unfold NetInt.lessThan NetInt.value
  repeat' split
  all_goals first | (symm; rw [decide_eq_true_eq]; omega) | (symm; rw [decide_eq_false_iff_not]; omega)

/-! ### Equality -/

theorem NetInt.equals_eq (p q : NetInt) : p.equals q = decide (p = q) := by
  obtain ⟨a, b, c, d⟩ := p
  obtain ⟨a', b', c', d'⟩ := q
  simp only [NetInt.equals, NetInt.mk.injEq, Bool.decide_and, Bool.and_assoc]
  rfl

/-- R83: equality with a packed native integer is equality of numbers. -/
theorem NetInt.equals_pack32 (p : NetInt) (v : Word32) : p.equals (pack32 v) = decide (p.value = v.toNat) := by
  rw [NetInt.equals_eq, ← pack32_value v]
  exact decide_eq_decide.mpr ⟨fun h => h ▸ rfl, NetInt.value_inj⟩

/-- Two byte pairs compared byte by byte. -/
theorem pairs_equal (x y : Byte × Byte) : (x.1 == y.1 && x.2 == y.2) = decide (x = y) := by
  obtain ⟨a, b⟩ := x
  obtain ⟨a', b'⟩ := y
  by_cases h : a = a' <;> by_cases h' : b = b' <;> simp [h, h']

/-- R74: byte-wise equality of two halves. -/
theorem State.halvesEqual_eq (s : State) (r q : HalfReg) : s.halvesEqual r q = decide (s.half r = s.half q) :=
  pairs_equal _ _

/-- R76: equality of a half with a native integer is equality of numbers. -/
theorem State.halfEquals_eq (s : State) (r : HalfReg) (v : Word16) :
    s.halfEquals r v = decide (pairValue (s.half r) = v.toNat) := by
  rw [show s.halfEquals r v = decide (s.half r = pack16 v) from pairs_equal _ _, ← pack16_value v]
  exact decide_eq_decide.mpr ⟨fun h => h ▸ rfl, pairValue_inj⟩

end Sys2Proof.Machine
end

