-- ==== Sys2Proof/Laws/Checksum.lean ====
section
/-! SUPPORT. Accumulation and summing as arithmetic on numbers (R116, R118, R120). -/

namespace Sys2Proof.Machine

/-- R116: accumulation adds the numbers modulo `2^32`. -/
theorem accumulate_eq (sum : Word32) (w : Word16) : accumulate sum w = BitVec.ofNat 32 (sum.toNat + w.toNat) := by
  apply BitVec.eq_of_toNat_eq
  simp [accumulate, BitVec.toNat_add]

/-- R118: one pass adds the two halves, without a carry out of 17 bits. -/
theorem foldPass_toNat (s : Word32) : (foldPass s).toNat = s.toNat % 65536 + s.toNat / 65536 := by
  have := s.isLt
  simp only [foldPass, BitVec.toNat_add, BitVec.toNat_setWidth, BitVec.extractLsb'_toNat, Nat.shiftRight_eq_div_pow,
    Nat.pow_zero, Nat.div_one, Nat.reducePow]
  rw [Nat.mod_eq_of_lt (a := s.toNat / 65536) (by omega), Nat.mod_eq_of_lt (a := s.toNat / 65536) (by omega),
    Nat.mod_eq_of_lt (a := s.toNat % 65536) (by omega), Nat.mod_eq_of_lt (by omega)]

/-- The loop condition of R118 on the number. -/
theorem upperHalf_zero (s : Word32) : s.extractLsb' 16 16 = 0 ↔ s.toNat < 65536 := by
  have := s.isLt
  rw [← BitVec.toNat_inj, BitVec.extractLsb'_toNat, Nat.shiftRight_eq_div_pow]
  simp only [BitVec.ofNat_eq_ofNat, BitVec.toNat_ofNat]
  omega

/-- The big-endian words of a byte list added as numbers, a last single byte being the high byte of its word. -/
def wordsValue : List Byte → Nat
  | [] => 0
  | [x] => x.toNat * 256
  | x :: y :: rest => x.toNat * 256 + y.toNat + wordsValue rest

/-- R120: the summing loop adds the words modulo `2^32`. -/
theorem sumBytes_eq (sum : Word32) (d : List Byte) :
    sumBytes sum d = BitVec.ofNat 32 (sum.toNat + wordsValue d) := by
  induction d using wordsValue.induct generalizing sum with
  | case1 => simp [sumBytes, wordsValue]
  | case2 x => simp [sumBytes, wordsValue, accumulate_eq, unpack16_toNat, pairValue]
  | case3 x y rest ih =>
    rw [sumBytes, ih, accumulate_eq, unpack16_toNat]
    apply BitVec.eq_of_toNat_eq
    simp only [BitVec.toNat_ofNat, wordsValue, pairValue]
    omega

/-- The words of a whole list, by index. -/
theorem wordsValue_eq (d : List Byte) : wordsValue d = rangeWords d 0 d.length := by
  induction d using wordsValue.induct with
  | case1 => rfl
  | case2 x => simp [wordsValue, rangeWords]
  | case3 x y rest ih =>
    rw [wordsValue, ih]
    simp only [rangeWords, List.length_cons, Nat.sub_zero]
    rw [show (rest.length + 1 + 1 + 1) / 2 = (rest.length + 1) / 2 + 1 by omega, List.range_succ_eq_map]
    rw [List.map_cons, List.map_map, List.sum_cons]
    refine congrArg₂ (· + ·) (by simp) (congrArg List.sum (List.map_congr_left fun j _ => ?_))
    simp only [Function.comp, show 0 + 2 * j.succ = 0 + 2 * j + 1 + 1 by omega, List.getD_cons_succ]
    refine congrArg₂ (· + ·) rfl ?_
    by_cases h : 0 + 2 * j + 1 < rest.length
    · rw [if_pos h, if_pos (by omega)]
    · rw [if_neg h, if_neg (by omega)]

/-- The words of a part of a list are those of the range. -/
theorem wordsValue_part (d : List Byte) (lo stop : Nat) (h : stop ≤ d.length) :
    wordsValue ((d.drop lo).take (stop - lo)) = rangeWords d lo stop := by
  have hlen : ((d.drop lo).take (stop - lo)).length = stop - lo := by
    rw [List.length_take, List.length_drop]; omega
  rw [wordsValue_eq, hlen]
  unfold rangeWords
  refine congrArg List.sum (List.map_congr_left fun j hj => ?_)
  rw [List.mem_range] at hj
  have get : ∀ i, i < stop - lo → ((d.drop lo).take (stop - lo)).getD i 0 = d.getD (lo + i) 0 := by
    intro i hi
    simp [List.getD_eq_getElem?_getD, hi]
  rw [Nat.zero_add, get _ (by omega)]
  refine congrArg₂ (· + ·) rfl ?_
  by_cases h2 : 2 * j + 1 < stop - lo
  · rw [if_pos h2, if_pos (by omega), get _ h2, Nat.add_assoc]
  · rw [if_neg h2, if_neg (by omega)]

/-- A bound on the sum of the words. -/
theorem wordsValue_le (d : List Byte) : wordsValue d ≤ 65535 * ((d.length + 1) / 2) := by
  induction d using wordsValue.induct with
  | case1 => simp [wordsValue]
  | case2 x => have := x.isLt; simp only [wordsValue, List.length_singleton]; omega
  | case3 x y rest ih =>
    have := x.isLt; have := y.isLt
    simp only [wordsValue, List.length_cons]
    omega

/-- A word written over a zero word of the list adds its number to the sum. -/
theorem wordsValue_patch (d : List Byte) (j : Nat) (a b : Byte) (h0 : d[2 * j]? = some 0)
    (h1 : d[2 * j + 1]? = some 0) :
    wordsValue ((d.set (2 * j) a).set (2 * j + 1) b) = wordsValue d + (a.toNat * 256 + b.toNat) := by
  induction d using wordsValue.induct generalizing j with
  | case1 => simp at h0
  | case2 x => simp at h1
  | case3 x y rest ih =>
    cases j with
    | zero =>
      simp only [Nat.mul_zero, List.getElem?_cons_zero, Option.some.injEq, Nat.zero_add, List.getElem?_cons_succ] at h0 h1
      subst h0 h1
      simp [wordsValue]
      omega
    | succ j =>
      rw [show 2 * (j + 1) = 2 * j + 1 + 1 by omega] at *
      simp only [List.getElem?_cons_succ] at h0 h1
      simp only [List.set_cons_succ, wordsValue]
      rw [ih j h0 h1]
      omega

end Sys2Proof.Machine
end

