-- ==== Sys2Proof/Laws/PerInstr.lean ====
section
/-! SUPPORT. The per-instruction family `OnMap`: the word the encoder writes for a command carries the opcode of its row
of R54 and zeros in the fields that the row's format leaves unused (R51). One lemma per constructor of `Instr`. -/

namespace Sys2Proof.Laws.OnMap

/-- The command's word lies on a row of the opcode map: its opcode, its format's unused fields zero. -/
def Statement (i : Instr) : Prop :=
  ∃ r ∈ opcodeMap, r.opc = (fieldsOf (encode i)).opc ∧ r.fmt.unusedAreZero (fieldsOf (encode i)) = true

/-- From the row and the fields the encoder joins. -/
theorem of_row {i : Instr} {f : Fields} (r : MapRow) (hr : r ∈ opcodeMap) (he : encode i = wordOf f)
    (ho : r.opc = f.opc) (hz : r.fmt.unusedAreZero f = true) : Statement i := by
  refine ⟨r, hr, ?_⟩
  rw [he, fieldsOf_wordOf]
  exact ⟨ho, hz⟩

theorem nop : Statement .nop :=
  of_row ⟨0x00, .z, []⟩ (by decide) rfl rfl rfl

theorem rdcsr (csr : Csr) : Statement (.rdcsr csr) :=
  of_row ⟨0x01, .a1, [.csr]⟩ (by decide) rfl rfl rfl

theorem ni16Set (r : HalfReg) (v : Word16) : Statement (.ni16Set r v) :=
  of_row ⟨0x10, .ai, [.r16]⟩ (by decide) rfl rfl rfl

theorem ni16Get (r : HalfReg) : Statement (.ni16Get r) :=
  of_row ⟨0x11, .a1, [.r16]⟩ (by decide) rfl rfl rfl

theorem ni16Ld (r : HalfReg) (c : Cur) : Statement (.ni16Ld r c) :=
  of_row ⟨0x12, .a2, [.r16, .cur]⟩ (by decide) rfl rfl rfl

theorem ni16Eq (r q : HalfReg) : Statement (.ni16Eq r q) :=
  of_row ⟨0x13, .a2, [.r16, .r16]⟩ (by decide) rfl rfl rfl

theorem ni16Ne (r q : HalfReg) : Statement (.ni16Ne r q) :=
  of_row ⟨0x14, .a2, [.r16, .r16]⟩ (by decide) rfl rfl rfl

theorem ni16Eqi (r : HalfReg) (v : Word16) : Statement (.ni16Eqi r v) :=
  of_row ⟨0x15, .ai, [.r16]⟩ (by decide) rfl rfl rfl

theorem ni16Nei (r : HalfReg) (v : Word16) : Statement (.ni16Nei r v) :=
  of_row ⟨0x16, .ai, [.r16]⟩ (by decide) rfl rfl rfl

theorem ni32Set (r : Reg) (v : Word32) : Statement (.ni32Set r v) :=
  of_row ⟨0x20, .ad, [.r32]⟩ (by decide) rfl rfl rfl

theorem ni32Get (r : Reg) : Statement (.ni32Get r) :=
  of_row ⟨0x21, .a1, [.r32]⟩ (by decide) rfl rfl rfl

theorem ni32Ld (r : Reg) (c : Cur) : Statement (.ni32Ld r c) :=
  of_row ⟨0x22, .a2, [.r32, .cur]⟩ (by decide) rfl rfl rfl

theorem ni32Eq (r q : Reg) : Statement (.ni32Eq r q) :=
  of_row ⟨0x23, .a2, [.r32, .r32]⟩ (by decide) rfl rfl rfl

theorem ni32Ne (r q : Reg) : Statement (.ni32Ne r q) :=
  of_row ⟨0x24, .a2, [.r32, .r32]⟩ (by decide) rfl rfl rfl

theorem ni32Eqi (r : Reg) (v : Word32) : Statement (.ni32Eqi r v) :=
  of_row ⟨0x25, .ad, [.r32]⟩ (by decide) rfl rfl rfl

theorem ni32Nei (r : Reg) (v : Word32) : Statement (.ni32Nei r v) :=
  of_row ⟨0x26, .ad, [.r32]⟩ (by decide) rfl rfl rfl

theorem ni32Inc (r : Reg) : Statement (.ni32Inc r) :=
  of_row ⟨0x27, .a1, [.r32]⟩ (by decide) rfl rfl rfl

theorem ni32Add (r q : Reg) : Statement (.ni32Add r q) :=
  of_row ⟨0x28, .a2, [.r32, .r32]⟩ (by decide) rfl rfl rfl

theorem ni32Lt (r q : Reg) : Statement (.ni32Lt r q) :=
  of_row ⟨0x29, .a2, [.r32, .r32]⟩ (by decide) rfl rfl rfl

theorem curOpen (c : Cur) (b : Nat) : Statement (.curOpen c b) :=
  of_row ⟨0x30, .a2, [.cur, .buf]⟩ (by decide) rfl rfl rfl

theorem curRem (c : Cur) : Statement (.curRem c) :=
  of_row ⟨0x31, .a1, [.cur]⟩ (by decide) rfl rfl rfl

theorem curPeek (c : Cur) : Statement (.curPeek c) :=
  of_row ⟨0x32, .a1, [.cur]⟩ (by decide) rfl rfl rfl

theorem curInc (c : Cur) : Statement (.curInc c) :=
  of_row ⟨0x33, .a1, [.cur]⟩ (by decide) rfl rfl rfl

theorem curAdv (c : Cur) (n : Word16) : Statement (.curAdv c n) :=
  of_row ⟨0x34, .ai, [.cur]⟩ (by decide) rfl rfl rfl

theorem bufAppend (b : Nat) (length : Word16) (src : Word32) : Statement (.bufAppend b length src) :=
  of_row ⟨0x40, .aid, [.buf]⟩ (by decide) rfl rfl rfl

theorem bufClear (b : Nat) : Statement (.bufClear b) :=
  of_row ⟨0x41, .a1, [.buf]⟩ (by decide) rfl rfl rfl

theorem bufLen (b : Nat) : Statement (.bufLen b) :=
  of_row ⟨0x42, .a1, [.buf]⟩ (by decide) rfl rfl rfl

theorem bufRdb (b : Nat) (idx : Word16) : Statement (.bufRdb b idx) :=
  of_row ⟨0x43, .ai, [.buf]⟩ (by decide) rfl rfl rfl

theorem csClear : Statement .csClear :=
  of_row ⟨0x50, .z, []⟩ (by decide) rfl rfl rfl

theorem csAcc (r : HalfReg) : Statement (.csAcc r) :=
  of_row ⟨0x51, .a1, [.r16]⟩ (by decide) rfl rfl rfl

theorem csAcci (w : Word16) : Statement (.csAcci w) :=
  of_row ⟨0x52, .i, []⟩ (by decide) rfl rfl rfl

theorem csSum : Statement .csSum :=
  of_row ⟨0x53, .z, []⟩ (by decide) rfl rfl rfl

theorem csRange (b : Nat) (off : Word16) (n : Word32) : Statement (.csRange b off n) :=
  of_row ⟨0x54, .aid, [.buf]⟩ (by decide) rfl rfl rfl

theorem csRangec (c : Cur) (off : Word16) (n : Word32) : Statement (.csRangec c off n) :=
  of_row ⟨0x55, .aid, [.cur]⟩ (by decide) rfl rfl rfl

theorem chPrepend (q : Nat) (k : NodeRef) : Statement (.chPrepend q k) :=
  of_row ⟨0x60, .a2, [.chain, .node]⟩ (by decide) rfl rfl rfl

theorem chAppend (q : Nat) (k : NodeRef) : Statement (.chAppend q k) :=
  of_row ⟨0x61, .a2, [.chain, .node]⟩ (by decide) rfl rfl rfl

theorem chPush (q : Nat) (k : NodeRef) (useFifo : Bool) : Statement (.chPush q k useFifo) :=
  of_row ⟨0x62, .a3, [.chain, .node, .flag]⟩ (by decide) rfl rfl rfl

theorem chFirst (q : Nat) (remove : Bool) : Statement (.chFirst q remove) :=
  of_row ⟨0x63, .a2, [.chain, .flag]⟩ (by decide) rfl rfl rfl

theorem chPop (q : Nat) : Statement (.chPop q) :=
  of_row ⟨0x64, .a1, [.chain]⟩ (by decide) rfl rfl rfl

theorem chRemove (q : Nat) (k : NodeRef) : Statement (.chRemove q k) :=
  of_row ⟨0x65, .a2, [.chain, .node]⟩ (by decide) rfl rfl rfl

theorem chHas (q : Nat) (k : NodeRef) : Statement (.chHas q k) :=
  of_row ⟨0x66, .a2, [.chain, .node]⟩ (by decide) rfl rfl rfl

theorem chNext (k : NodeRef) : Statement (.chNext k) :=
  of_row ⟨0x67, .a1, [.node]⟩ (by decide) rfl rfl rfl

theorem chLast (q : Nat) : Statement (.chLast q) :=
  of_row ⟨0x68, .a1, [.chain]⟩ (by decide) rfl rfl rfl

end Sys2Proof.Laws.OnMap
end

