-- ==== Sys2Proof/Tests/Slice0.lean ====
section
/-! SUPPORT. The model's own tests. Expected values are from the spec: the vectors of 95_test_vectors.md (named V<n>, S<n>
or P<n>), or worked by hand from the rule named. -/

namespace Sys2Proof.Tests

open Sys2Proof.Machine

/-- The reference configuration of R5, for the test vectors only. -/
def reference : Config := { capWords := 32, nbuf := 8, nchain := 4 }

/-! ### WellFormed (R52, R55 (c)): an ill-formed term for each check, under the reference configuration -/

theorem test_wf_curOpen : Instr.wellFormed reference (.curOpen 0 8) = false := by decide
theorem test_wf_bufAppend : Instr.wellFormed reference (.bufAppend 8 4 0x1000) = false := by decide
theorem test_wf_bufClear : Instr.wellFormed reference (.bufClear 8) = false := by decide
theorem test_wf_bufLen : Instr.wellFormed reference (.bufLen 8) = false := by decide
theorem test_wf_bufRdb : Instr.wellFormed reference (.bufRdb 8 0) = false := by decide
theorem test_wf_csRange : Instr.wellFormed reference (.csRange 8 0 0) = false := by decide
theorem test_wf_chPrepend_chain : Instr.wellFormed reference (.chPrepend 4 (some 1)) = false := by decide
theorem test_wf_chPrepend_node : Instr.wellFormed reference (.chPrepend 0 (some 8)) = false := by decide
theorem test_wf_chAppend_chain : Instr.wellFormed reference (.chAppend 4 none) = false := by decide
theorem test_wf_chAppend_node : Instr.wellFormed reference (.chAppend 3 (some 8)) = false := by decide
theorem test_wf_chPush_chain : Instr.wellFormed reference (.chPush 4 (some 1) true) = false := by decide
theorem test_wf_chPush_node : Instr.wellFormed reference (.chPush 0 (some 254) false) = false := by decide
theorem test_wf_chFirst : Instr.wellFormed reference (.chFirst 4 false) = false := by decide
theorem test_wf_chPop : Instr.wellFormed reference (.chPop 4) = false := by decide
theorem test_wf_chRemove_chain : Instr.wellFormed reference (.chRemove 4 none) = false := by decide
theorem test_wf_chRemove_node : Instr.wellFormed reference (.chRemove 0 (some 8)) = false := by decide
theorem test_wf_chHas_chain : Instr.wellFormed reference (.chHas 4 none) = false := by decide
theorem test_wf_chHas_node : Instr.wellFormed reference (.chHas 0 (some 8)) = false := by decide
theorem test_wf_chNext : Instr.wellFormed reference (.chNext (some 8)) = false := by decide
theorem test_wf_chLast : Instr.wellFormed reference (.chLast 4) = false := by decide
theorem test_wf_null_is_legal : Instr.wellFormed reference (.chNext none) = true := by decide

/-! ### Decode: one word of every command, from the tables of 95_test_vectors.md -/

theorem test_decode_nop : decode 0x0000000000000000 = .ok .nop := rfl
theorem test_decode_rdcsr : decode 0x0101000000000000 = .ok (.rdcsr .config) := rfl
theorem test_decode_ni16Set : decode 0x1008800100000000 = .ok (.ni16Set ⟨0, .lo⟩ 0x8001) := rfl
theorem test_decode_ni16Get : decode 0x110B000000000000 = .ok (.ni16Get ⟨3, .lo⟩) := rfl
theorem test_decode_ni16Ld : decode 0x1208000000000000 = .ok (.ni16Ld ⟨0, .lo⟩ 0) := rfl
theorem test_decode_ni16Eq : decode 0x1300080000000000 = .ok (.ni16Eq ⟨0, .hi⟩ ⟨0, .lo⟩) := rfl
theorem test_decode_ni16Ne : decode 0x1400010000000000 = .ok (.ni16Ne ⟨0, .hi⟩ ⟨1, .hi⟩) := rfl
theorem test_decode_ni16Eqi : decode 0x1500123400000000 = .ok (.ni16Eqi ⟨0, .hi⟩ 0x1234) := rfl
theorem test_decode_ni16Nei : decode 0x1609123400000000 = .ok (.ni16Nei ⟨1, .lo⟩ 0x1234) := rfl
theorem test_decode_ni32Set : decode 0x20030000C0A80001 = .ok (.ni32Set 3 0xC0A80001) := rfl
theorem test_decode_ni32Get : decode 0x2107000000000000 = .ok (.ni32Get 7) := rfl
theorem test_decode_ni32Ld : decode 0x2202000000000000 = .ok (.ni32Ld 2 0) := rfl
theorem test_decode_ni32Eq : decode 0x2300010000000000 = .ok (.ni32Eq 0 1) := rfl
theorem test_decode_ni32Ne : decode 0x2400010000000000 = .ok (.ni32Ne 0 1) := rfl
theorem test_decode_ni32Eqi : decode 0x2502000012345678 = .ok (.ni32Eqi 2 0x12345678) := rfl
theorem test_decode_ni32Nei : decode 0x2602000012345678 = .ok (.ni32Nei 2 0x12345678) := rfl
theorem test_decode_ni32Inc : decode 0x2701000000000000 = .ok (.ni32Inc 1) := rfl
theorem test_decode_ni32Add : decode 0x2801020000000000 = .ok (.ni32Add 1 2) := rfl
theorem test_decode_ni32Lt : decode 0x2901020000000000 = .ok (.ni32Lt 1 2) := rfl
theorem test_decode_curOpen : decode 0x3000010000000000 = .ok (.curOpen 0 1) := rfl
theorem test_decode_curRem : decode 0x3100000000000000 = .ok (.curRem 0) := rfl
theorem test_decode_curPeek : decode 0x3203000000000000 = .ok (.curPeek 3) := rfl
theorem test_decode_curInc : decode 0x3300000000000000 = .ok (.curInc 0) := rfl
theorem test_decode_curAdv : decode 0x3400000600000000 = .ok (.curAdv 0 6) := rfl
theorem test_decode_bufAppend : decode 0x4001000E00002000 = .ok (.bufAppend 1 14 0x2000) := rfl
theorem test_decode_bufClear : decode 0x4103000000000000 = .ok (.bufClear 3) := rfl
theorem test_decode_bufLen : decode 0x4201000000000000 = .ok (.bufLen 1) := rfl
theorem test_decode_bufRdb : decode 0x4300003F00000000 = .ok (.bufRdb 0 63) := rfl
theorem test_decode_csClear : decode 0x5000000000000000 = .ok .csClear := rfl
theorem test_decode_csAcc : decode 0x510B000000000000 = .ok (.csAcc ⟨3, .lo⟩) := rfl
theorem test_decode_csAcci : decode 0x5200F4F500000000 = .ok (.csAcci 0xF4F5) := rfl
theorem test_decode_csSum : decode 0x5300000000000000 = .ok .csSum := rfl
theorem test_decode_csRange : decode 0x5400000200010000 = .ok (.csRange 0 2 0x10000) := rfl
theorem test_decode_csRangec : decode 0x5500000100000002 = .ok (.csRangec 0 1 2) := rfl
theorem test_decode_chPrepend : decode 0x6000030000000000 = .ok (.chPrepend 0 (some 3)) := rfl
theorem test_decode_chAppend : decode 0x6101FF0000000000 = .ok (.chAppend 1 none) := rfl
theorem test_decode_chPush : decode 0x6201030100000000 = .ok (.chPush 1 (some 3) true) := rfl
theorem test_decode_chFirst : decode 0x6300010000000000 = .ok (.chFirst 0 true) := rfl
theorem test_decode_chPop : decode 0x6402000000000000 = .ok (.chPop 2) := rfl
theorem test_decode_chRemove : decode 0x6501030000000000 = .ok (.chRemove 1 (some 3)) := rfl
theorem test_decode_chHas : decode 0x6601010000000000 = .ok (.chHas 1 (some 1)) := rfl
theorem test_decode_chNext : decode 0x67FF000000000000 = .ok (.chNext none) := rfl
theorem test_decode_chLast : decode 0x6802000000000000 = .ok (.chLast 2) := rfl

/-- V23, rows 1 to 4: opcodes that are not assigned. -/
theorem test_reject_opcode :
    decode 0x0200000000000000 = .error .unknownOpcode ∧ decode 0xFF00000000000000 = .error .unknownOpcode
      ∧ decode 0x1700000000000000 = .error .unknownOpcode ∧ decode 0x6900000000000000 = .error .unknownOpcode :=
  ⟨rfl, rfl, rfl, rfl⟩

/-- V23, rows 5, 6, 7, 9, 12, 13, 17, 22: an unused field that is not zero, one for each format but `AID`, which has no
unused field (A3: rule R51). -/
theorem test_reject_unused :
    decode 0x0000000000000001 = .error .unusedFieldNonzero ∧ decode 0x0001000000000000 = .error .unusedFieldNonzero
      ∧ decode 0x5000000100000000 = .error .unusedFieldNonzero ∧ decode 0x0100010000000000 = .error .unusedFieldNonzero
      ∧ decode 0x2000000100000005 = .error .unusedFieldNonzero ∧ decode 0x1001123400000001 = .error .unusedFieldNonzero
      ∧ decode 0x5201000100000000 = .error .unusedFieldNonzero ∧ decode 0x6400010000000000 = .error .unusedFieldNonzero
      ∧ decode 0x1300000100000000 = .error .unusedFieldNonzero ∧ decode 0x6201030100000001 = .error .unusedFieldNonzero :=
  ⟨rfl, rfl, rfl, rfl, rfl, rfl, rfl, rfl, rfl, rfl⟩

/-- V23, rows 8, 10, 11, 14, 20, 21: an operand field outside its kind, whatever the configuration. -/
theorem test_reject_operand :
    decode 0x0104000000000000 = .error .badOperand ∧ decode 0x1110000000000000 = .error .badOperand
      ∧ decode 0x2108000000000000 = .error .badOperand ∧ decode 0x1200040000000000 = .error .badOperand
      ∧ decode 0x6200010200000000 = .error .badOperand ∧ decode 0x6300020000000000 = .error .badOperand :=
  ⟨rfl, rfl, rfl, rfl, rfl, rfl⟩

/-- V23, rows 15, 16, 18, 19, 23, 24: an object the reference configuration does not have, and `NULL`. -/
theorem test_reject_object :
    legal reference 0x3000080000000000 = false ∧ legal reference 0x4008000400001000 = false
      ∧ legal reference 0x6004010000000000 = false ∧ legal reference 0x6000080000000000 = false
      ∧ legal reference 0x67FE000000000000 = false ∧ legal reference 0x67FF000000000000 = true :=
  ⟨rfl, rfl, rfl, rfl, rfl, rfl⟩

/-- R54: the 43 rows have 43 opcodes. -/
theorem test_opcodes_distinct : (opcodeMap.map MapRow.opc).Nodup ∧ opcodeMap.length = 43 := by decide

/-! ### One step on a small state -/

/-- The registers of the test state: `n0` = 12 34 56 78, `n1` = FF FF FF FF, `n2` = 80 00 00 01, the others 0. -/
def regs : Vector NetInt 8 :=
  #v[⟨0x12, 0x34, 0x56, 0x78⟩, ⟨0xFF, 0xFF, 0xFF, 0xFF⟩, ⟨0x80, 0, 0, 1⟩, ⟨0, 0, 0, 0⟩, ⟨0, 0, 0, 0⟩, ⟨0, 0, 0, 0⟩,
    ⟨0, 0, 0, 0⟩, ⟨0, 0, 0, 0⟩]

/-- The bytes of V16. -/
def nine : List Byte := [0x00, 0x01, 0xF2, 0x03, 0xF4, 0xF5, 0xF6, 0xF7, 0x80]

/-- The buffers of the test state: buffer 0 holds `nine`, buffer 1 holds 3 bytes, buffer 7 is full (64 bytes); the links
make the chain `b3 -> b1 -> b2` of V18. -/
def bufs : List Buffer :=
  [⟨nine, none⟩, ⟨[0xAA, 0xBB, 0xCC], some 2⟩, ⟨[], none⟩, ⟨[], some 1⟩, ⟨[], none⟩, ⟨[], none⟩, ⟨[], none⟩,
    ⟨List.replicate 64 0x55, none⟩]

/-- The test state: cursor 0 inside buffer 0, cursor 1 stale, cursor 2 at its end, cursor 3 as reset leaves it; chain 0
is `b3 -> b1 -> b2`; SRC holds bytes across its wrap (V13). -/
def s0 : State :=
  { State.resetOf reference 0 [] [] with
    regs := regs
    bufs := bufs
    curs := #v[⟨0, 0, 2, 9⟩, ⟨1, 0, 0, 8⟩, ⟨1, 0, 3, 3⟩, ⟨0, 0, 0, 0⟩]
    sum := 0x2DDF0
    chains := [⟨some 3, some 2⟩, ⟨none, none⟩, ⟨none, none⟩, ⟨none, none⟩]
    src := [(0, 0xE3), (1, 0xE4), (0xFFFFFFFE, 0xE1), (0xFFFFFFFF, 0xE2)] }

/-- The state after one command. -/
def after (i : Instr) (s : State) : Option State :=
  match exec i s with
  | .next t => some t
  | .fault _ => none
  | .refused _ => none

/-- The answer to one command on the test state. -/
def answer (i : Instr) : Option Response := (after i s0).bind State.resp

/-- Register `r` after one command on the test state. -/
def regAfter (i : Instr) (r : Reg) : Option NetInt := (after i s0).map (·.reg r)

-- V22
theorem test_nop : answer .nop = some ⟨0x00, 0⟩ := by decide
theorem test_rdcsr_config : answer (.rdcsr .config) = some ⟨0x00, 0x08040408⟩ := by decide
theorem test_rdcsr_in_fault : (after (.rdcsr .fault) (s0.setFault 2)).bind State.resp = some ⟨0x00, 2⟩ := by decide
-- V24: refused in the fault state; the state is kept
theorem test_nop_faulted : (after .nop (s0.setFault 2)).bind State.resp = some ⟨0xF1, 0⟩ := by decide
-- S2 and S3: the other half is kept
theorem test_ni16Set : regAfter (.ni16Set ⟨0, .hi⟩ 0xABCD) 0 = some ⟨0xAB, 0xCD, 0x56, 0x78⟩ := by decide
theorem test_ni16Set_lo : regAfter (.ni16Set ⟨0, .lo⟩ 0xABCD) 0 = some ⟨0x12, 0x34, 0xAB, 0xCD⟩ := by decide
theorem test_ni16Get : answer (.ni16Get ⟨0, .lo⟩) = some ⟨0x00, 0x5678⟩ := by decide
-- R73: bytes at the cursor position 2 of `nine`; a cursor at its end has too few
theorem test_ni16Ld : regAfter (.ni16Ld ⟨0, .lo⟩ 0) 0 = some ⟨0x12, 0x34, 0xF2, 0x03⟩ := by decide
theorem test_ni16Ld_short : answer (.ni16Ld ⟨0, .lo⟩ 2) = some ⟨0xF0, 3⟩ := by decide
theorem test_ni16Eq : answer (.ni16Eq ⟨1, .hi⟩ ⟨1, .lo⟩) = some ⟨0x00, 1⟩ := by decide
theorem test_ni16Ne : answer (.ni16Ne ⟨0, .hi⟩ ⟨0, .lo⟩) = some ⟨0x00, 1⟩ := by decide
theorem test_ni16Eqi : answer (.ni16Eqi ⟨0, .hi⟩ 0x3412) = some ⟨0x00, 0⟩ := by decide
theorem test_ni16Nei : answer (.ni16Nei ⟨0, .lo⟩ 0x5678) = some ⟨0x00, 0⟩ := by decide
theorem test_ni32Set : regAfter (.ni32Set 3 0xC0A80001) 3 = some ⟨0xC0, 0xA8, 0x00, 0x01⟩ := by decide
theorem test_ni32Get : answer (.ni32Get 2) = some ⟨0x00, 0x80000001⟩ := by decide
theorem test_ni32Ld : regAfter (.ni32Ld 7 0) 7 = some ⟨0xF2, 0x03, 0xF4, 0xF5⟩ := by decide
-- R96: 8 bytes remain by the cursor, 3 in the buffer
theorem test_ni32Ld_stale : answer (.ni32Ld 7 1) = some ⟨0xF0, 4⟩ := by decide
theorem test_ni32Eq : answer (.ni32Eq 3 4) = some ⟨0x00, 1⟩ := by decide
theorem test_ni32Ne : answer (.ni32Ne 0 1) = some ⟨0x00, 1⟩ := by decide
theorem test_ni32Eqi : answer (.ni32Eqi 0 0x78563412) = some ⟨0x00, 0⟩ := by decide
theorem test_ni32Nei : answer (.ni32Nei 0 0x12345678) = some ⟨0x00, 0⟩ := by decide
-- S12
theorem test_ni32Inc_wraps : regAfter (.ni32Inc 1) 1 = some ⟨0, 0, 0, 0⟩ := by decide
-- V5, the register added to itself
theorem test_ni32Add_self : regAfter (.ni32Add 2 2) 2 = some ⟨0, 0, 0, 2⟩ := by decide
-- 0x12345678 + 0xFFFFFFFF = 0x12345677 modulo 2^32
theorem test_ni32Add : regAfter (.ni32Add 0 1) 0 = some ⟨0x12, 0x34, 0x56, 0x77⟩ := by decide
-- V6: not a signed comparison
theorem test_ni32Lt : answer (.ni32Lt 2 0) = some ⟨0x00, 0⟩ := by decide
theorem test_ni32Lt_true : answer (.ni32Lt 0 2) = some ⟨0x00, 1⟩ := by decide
-- V10, V11, V12
theorem test_curOpen : (after (.curOpen 3 1) s0).map (·.cur 3) = some ⟨1, 0, 0, 3⟩ := by decide
theorem test_curRem : answer (.curRem 0) = some ⟨0x00, 7⟩ := by decide
theorem test_curPeek : answer (.curPeek 0) = some ⟨0x00, 0xF2⟩ := by decide
theorem test_curPeek_empty : answer (.curPeek 3) = some ⟨0xF0, 2⟩ := by decide
theorem test_curInc : (after (.curInc 0) s0).map (·.cur 0) = some ⟨0, 0, 3, 9⟩ := by decide
theorem test_curInc_overrun : answer (.curInc 2) = some ⟨0xF0, 1⟩ := by decide
theorem test_curAdv_to_end : (after (.curAdv 0 7) s0).map (·.cur 0) = some ⟨0, 0, 9, 9⟩ := by decide
theorem test_curAdv_overrun : answer (.curAdv 0 0xFFFF) = some ⟨0xF0, 1⟩ := by decide
-- V13: the source address wraps; the bytes go after the ones already there
theorem test_bufAppend_wraps :
    (after (.bufAppend 1 4 0xFFFFFFFE) s0).map (fun t => (t.buffer 1).data)
      = some [0xAA, 0xBB, 0xCC, 0xE1, 0xE2, 0xE3, 0xE4] := by decide
-- S6: a full buffer refuses one byte
theorem test_bufAppend_full : answer (.bufAppend 7 1 0x1000) = some ⟨0x03, 0⟩ := by decide
theorem test_bufClear_keeps_link : (after (.bufClear 1) s0).map (·.buffer 1) = some ⟨[], some 2⟩ := by decide
theorem test_bufLen : answer (.bufLen 7) = some ⟨0x00, 64⟩ := by decide
theorem test_bufRdb : answer (.bufRdb 0 8) = some ⟨0x00, 0x80⟩ := by decide
theorem test_bufRdb_range : answer (.bufRdb 0 9) = some ⟨0x04, 0⟩ := by decide
theorem test_csClear : (after .csClear s0).map State.sum = some 0 := by decide
theorem test_csAcc : (after (.csAcc ⟨0, .lo⟩) s0).map State.sum = some 0x33468 := by decide
theorem test_csAcci : (after (.csAcci 0x0001) (s0.setSum 0xFFFFFFFF)).map State.sum = some 0 := by decide
-- S4, rows 7 and 8
theorem test_csSum : (after .csSum s0).map (fun t => (t.sum, t.resp)) = some (0xDDF2, some ⟨0x00, 0x220D⟩) := by decide
-- V14: two passes
theorem test_csSum_two_passes : (after .csSum (s0.setSum 0x1FFFF)).map State.sum = some 1 := by decide
-- V16, rows 6 and 11: the padded last byte; an odd offset at the end
theorem test_csRange_padded : (after (.csRange 0 0 0) (s0.setSum 0)).map State.sum = some 0x35DF0 := by decide
theorem test_csRange_odd : answer (.csRange 0 9 0) = some ⟨0x05, 0⟩ := by decide
-- offsets count from the cursor position 2: F4 F5 + F6 F7
theorem test_csRangec : (after (.csRangec 0 2 4) (s0.setSum 0)).map State.sum = some 0x1EBEC := by decide
theorem test_csRangec_stale : answer (.csRangec 1 0 4) = some ⟨0xF0, 4⟩ := by decide
-- V18, V20: insertion at both ends
theorem test_chPrepend :
    (after (.chPrepend 0 (some 4)) s0).map (fun t => (t.chain 0, t.next 4)) = some (⟨some 4, some 2⟩, some 3) := by decide
theorem test_chPrepend_other : answer (.chPrepend 1 (some 1)) = some ⟨0xF0, 5⟩ := by decide
theorem test_chAppend :
    (after (.chAppend 0 (some 4)) s0).map (fun t => (t.chain 0, t.next 2, t.next 4))
      = some (⟨some 3, some 4⟩, some 4, none) := by decide
theorem test_chAppend_present : answer (.chAppend 0 (some 2)) = some ⟨0x06, 0⟩ := by decide
theorem test_chPush_empty : (after (.chPush 1 (some 6) false) s0).map (·.chain 1) = some ⟨some 6, some 6⟩ := by decide
theorem test_chPush_null : answer (.chPush 1 none true) = some ⟨0x01, 0⟩ := by decide
theorem test_chFirst : answer (.chFirst 0 false) = some ⟨0x00, 3⟩ := by decide
theorem test_chFirst_removes :
    (after (.chFirst 0 true) s0).map (fun t => (t.chain 0, t.next 3)) = some (⟨some 1, some 2⟩, none) := by decide
theorem test_chPop : (after (.chPop 0) s0).map (fun t => (t.chain 0, t.resp)) = some (⟨some 1, some 2⟩, some ⟨0x00, 3⟩) := by
  decide
theorem test_chPop_empty : answer (.chPop 1) = some ⟨0x08, 0xFF⟩ := by decide
-- V19, rows 5 and 6: the middle, then the tail of `b3 -> b1 -> b2`
theorem test_chRemove_middle :
    (after (.chRemove 0 (some 1)) s0).map (fun t => (t.chain 0, t.next 3, t.next 1))
      = some (⟨some 3, some 2⟩, some 2, none) := by decide
theorem test_chRemove_tail :
    (after (.chRemove 0 (some 2)) s0).map (fun t => (t.chain 0, t.next 1)) = some (⟨some 3, some 1⟩, none) := by decide
theorem test_chHas : answer (.chHas 0 (some 2)) = some ⟨0x00, 1⟩ := by decide
theorem test_chHas_other : answer (.chHas 1 (some 2)) = some ⟨0x00, 0⟩ := by decide
theorem test_chNext : answer (.chNext (some 3)) = some ⟨0x00, 1⟩ := by decide
theorem test_chNext_null : answer (.chNext none) = some ⟨0x01, 0xFF⟩ := by decide
theorem test_chLast : answer (.chLast 0) = some ⟨0x00, 2⟩ := by decide
theorem test_chLast_empty : answer (.chLast 3) = some ⟨0x08, 0xFF⟩ := by decide

/-! ### The step -/

/-- A word placed by `withFetchWord` is the next command. -/
theorem test_step_runs_word :
    (match step (s0.withFetchWord 64 0x3300000000000000) with
      | .next t => some (t.cur 0, t.actions)
      | .fault _ => none
      | .refused _ => none) = some (⟨0, 0, 3, 9⟩, []) := by decide

/-- V24, rows 5 and 6: an illegal word is refused with `FAULTED` in the fault state. -/
theorem test_step_illegal_in_fault :
    (match step ((s0.setFault 2).withFetchWord 64 0x0104000000000000) with
      | .next t => t.resp
      | .fault _ => none
      | .refused _ => none) = some ⟨0xF1, 0⟩ := by decide

/-- V21, row 6: reset leaves the fault state and empties the chains. -/
theorem test_step_reset :
    (match step ((s0.setFault 5).setActions [.reset]) with
      | .next t => some (t.fault, t.chain 0, t.len 0, t.sum)
      | .fault _ => none
      | .refused _ => none) = some (0, ⟨none, none⟩, 0, 0) := by decide

end Sys2Proof.Tests
end

