-- ==== Sys2Proof/Tests/Witnesses.lean ====
section
/-! SUPPORT. For each statement of Certificates/Slice0/Obligations.lean that has hypotheses, a concrete state and operands
that meet them together, one for each clause, at the boundary where the clause has one. -/

namespace Sys2Proof.Tests

open Sys2Proof.Machine

/-- The largest legal configuration (R5). -/
def largest : Config := { capWords := 32767, nbuf := 255, nchain := 255 }

/-- The sequences of the test state's chains. -/
def L0 : List (List Nat) := [[3, 1, 2], [], [], []]

theorem witness_EncodedCommandDecodesToItself :
    largest.Ok ∧ Instr.wellFormed largest (.chPush 254 (some 254) true) = true := by decide

theorem witness_DecodedWordIsItsEncoding :
    decode 0x55030002FFFFFFFF = .ok (.csRangec 3 2 0xFFFFFFFF) ∧ decode 0x67FF000000000000 = .ok (.chNext none) :=
  ⟨rfl, rfl⟩

theorem witness_IllegalWordsAreThoseOffTheMap :
    s0.fault = 0 ∧ legal s0.cfg 0x3000080000000000 = false := ⟨rfl, rfl⟩

theorem witness_StepRunsTheDecodedCommand :
    (s0.setActions [.command 0x3300000000000000]).actions = [.command 0x3300000000000000]
      ∧ decode 0x3300000000000000 = .ok (.curInc 0)
      ∧ decodeTableWord 64 0x3300000000000000 = some (.curInc 0) :=
  ⟨rfl, rfl, rfl⟩

/-- Refused (a command and an illegal `RDCSR`), illegal, executed, and `RDCSR` executed in the fault state. -/
theorem witness_CommandsAreProcessedInOrder :
    ((s0.setFault 2).fault ≠ 0 ∧ (∀ csr, decode 0x5000000000000000 ≠ .ok (.rdcsr csr))
        ∧ ∀ csr, decode 0x0104000000000000 ≠ .ok (.rdcsr csr))
      ∧ (s0.fault = 0 ∧ legal s0.cfg 0x0200000000000000 = false)
      ∧ (decode 0x5000000000000000 = .ok .csClear ∧ legal s0.cfg 0x5000000000000000 = true)
      ∧ decode 0x0102000000000000 = .ok (.rdcsr .fault) ∧ legal (s0.setFault 2).cfg 0x0102000000000000 = true := by
  refine ⟨⟨by decide, fun csr h => ?_, fun csr h => ?_⟩, ⟨rfl, rfl⟩, ⟨rfl, rfl⟩, rfl, rfl⟩
  · have : (Except.ok Instr.csClear : Except Reject Instr) = .ok (.rdcsr csr) := h
    cases this
  · have : (Except.error Reject.badOperand : Except Reject Instr) = .ok (.rdcsr csr) := h
    cases this

theorem witness_HostActsBetweenCommands :
    s0.actions = [] ∧ s0.src.wf
      ∧ (s0.setActions [.setSrc 0xFFFFFFFF 0]).actions = [.setSrc 0xFFFFFFFF 0]
      ∧ (s0.setActions [.reset]).actions = [.reset] := by decide

theorem witness_ResetIsTheOnlyExitFromAFault :
    runWord 0x5000000000000000 (s0.setFault 2) = .next ((s0.setFault 2).respond .faulted 0)
      ∧ step (s0.setFault 2) = .next (s0.setFault 2) ∧ (s0.setFault 2).fault ≠ 0 :=
  ⟨rfl, rfl, by decide⟩

theorem witness_ResetValuesOfTheBlock : 254 < largest.nbuf ∧ 254 < largest.nchain := by decide

theorem witness_NopAndCsrReads : s0.fault = 0 ∧ (s0.setFault 1).fault ≠ 0 ∧ 3 < (4 : Byte).toNat := by decide

/-- The first and the last of the no-op statuses. -/
theorem witness_NoOpAnswersChangeNothing :
    (exec (.chNext none) s0 = .next (s0.respond .noopNull 0xFF) ∧ (s0.respond .noopNull 0xFF).resp = some ⟨1, 0xFF⟩)
      ∧ (exec (.chPop 1) s0 = .next (s0.respond .empty 0xFF) ∧ (s0.respond .empty 0xFF).resp = some ⟨8, 0xFF⟩) :=
  ⟨⟨rfl, rfl⟩, rfl, rfl⟩

theorem witness_AFaultWritesOnlyTheFaultRegister :
    (exec (.curPeek 3) s0 = .next (s0.raise .curEmptyDeref) ∧ (s0.raise .curEmptyDeref).resp = some ⟨0xF0, 2⟩
        ∧ (s0.raise .curEmptyDeref).fault ≠ s0.fault)
      ∧ (s0.setFault 2).fault ≠ 0 ∧ ∀ csr, Instr.nop ≠ .rdcsr csr :=
  ⟨⟨rfl, rfl, by decide⟩, by decide, by simp⟩

/-- One command for each clause of each cause, and a stale cursor whose range is empty or beyond what it has left. -/
theorem witness_FaultCausesAndTheirCommands :
    (exec (.curInc 2) s0 = .next (s0.raise .curOverrun) ∧ exec (.curAdv 0 8) s0 = .next (s0.raise .curOverrun)
      ∧ exec (.curPeek 2) s0 = .next (s0.raise .curEmptyDeref)
      ∧ exec (.ni16Ld ⟨0, .hi⟩ 2) s0 = .next (s0.raise .curShortRead)
      ∧ exec (.ni32Ld 0 1) s0 = .next (s0.raise .curStale) ∧ exec (.csRangec 1 0 0) s0 = .next (s0.raise .curStale)
      ∧ exec (.csRangec 1 8 0) s0 = .next ((s0.setSum s0.sum).respond .ok 0)
      ∧ exec (.csRangec 1 8 2) s0 = .next (s0.respond .noopRange 0)
      ∧ exec (.chAppend 1 (some 3)) s0 = .next (s0.raise .chainConvention))
    ∧ s0.fault = 0 ∧ Instr.wellFormed s0.cfg (.chAppend 1 (some 3)) = true
    ∧ exec .csClear (s0.setFault 2) = .next ((s0.setFault 2).respond .faulted 0) ∧ (s0.setFault 2).fault ≠ 0
    ∧ exec (.bufClear 8) s0 = .next (s0.respond .illegal 0) ∧ Instr.wellFormed s0.cfg (.bufClear 8) = false := by
  refine ⟨⟨rfl, rfl, rfl, rfl, rfl, rfl, rfl, rfl, rfl⟩, rfl, rfl, rfl, by decide, rfl, rfl⟩

theorem witness_EveryAnswerIsInTheStatusTable : exec .nop s0 = .next (s0.respond .ok 0) := rfl

theorem witness_NoCommandWritesParametersOrSource : exec (.bufClear 0) s0 = .next ((s0.setData 0 []).respond .ok 0) := rfl

theorem witness_OnlyAppendReadsSourceMemory :
    (∀ b n a, Instr.bufLen 0 ≠ .bufAppend b n a) ∧ exec (.bufLen 0) s0 = .next (s0.respond .ok 9) :=
  ⟨by simp, rfl⟩

theorem witness_OnlyNetIntCommandsWriteRegisters :
    (after (.ni32Inc 1) s0).map (·.reg 1) = some ⟨0, 0, 0, 0⟩ ∧ s0.reg 1 ≠ ⟨0, 0, 0, 0⟩ := by decide

theorem witness_OnlyCursorCommandsWriteCursors :
    (after (.curAdv 0 1) s0).map (·.cur 0) = some ⟨0, 0, 3, 9⟩ ∧ s0.cur 0 ≠ ⟨0, 0, 3, 9⟩
      ∧ (after (.curOpen 0 1) s0).map (·.cur 0) = some ⟨1, 0, 0, 3⟩ := by decide

theorem witness_OnlyChecksumCommandsWriteTheSum : (after .csClear s0).map State.sum = some 0 ∧ s0.sum ≠ 0 := by decide

theorem witness_OnlyChainCommandsWriteLinks :
    (after (.chPop 0) s0).map (·.next 3) = some none ∧ s0.next 3 ≠ none
      ∧ (after (.chPush 1 (some 5) true) s0).map State.chains ≠ some s0.chains := by decide

theorem witness_OnlyAppendAndClearChangeBufferContents :
    (after (.bufAppend 1 1 0xFFFFFFFF) s0).map (fun t => (t.buffer 1).data) = some [0xAA, 0xBB, 0xCC, 0xE2]
      ∧ (s0.buffer 1).data = [0xAA, 0xBB, 0xCC]
      ∧ (after (.bufClear 1) s0).map (fun t => (t.buffer 1).data) = some [] := by decide

/-- The hypothesis `s.fault = 0` alone: R71, R72, R74 to R79, R81 to R88, R115 to R119. -/
theorem witness_fault_free : s0.fault = 0 := by decide

/-- R73: at one byte short, at one byte stale, and exactly at the last two bytes. -/
theorem witness_Ni16LdCopiesTwoBytes :
    ((s0.setCur 0 ⟨0, 0, 8, 9⟩).cur 0).pos + 2 > ((s0.setCur 0 ⟨0, 0, 8, 9⟩).cur 0).stop
      ∧ ((s0.setCur 0 ⟨1, 0, 2, 4⟩).cur 0).pos + 2 ≤ ((s0.setCur 0 ⟨1, 0, 2, 4⟩).cur 0).stop
      ∧ ((s0.setCur 0 ⟨1, 0, 2, 4⟩).cur 0).pos + 2 > (s0.setCur 0 ⟨1, 0, 2, 4⟩).len 1
      ∧ ((s0.setCur 0 ⟨0, 0, 7, 9⟩).cur 0).pos + 2 ≤ ((s0.setCur 0 ⟨0, 0, 7, 9⟩).cur 0).stop
      ∧ ((s0.setCur 0 ⟨0, 0, 7, 9⟩).cur 0).pos + 2 ≤ (s0.setCur 0 ⟨0, 0, 7, 9⟩).len 0 := by decide

/-- R80: at one byte short, at one byte stale, and exactly at the last four bytes. -/
theorem witness_Ni32LdCopiesFourBytes :
    ((s0.setCur 0 ⟨0, 0, 6, 9⟩).cur 0).pos + 4 > ((s0.setCur 0 ⟨0, 0, 6, 9⟩).cur 0).stop
      ∧ ((s0.setCur 0 ⟨1, 0, 0, 4⟩).cur 0).pos + 4 ≤ ((s0.setCur 0 ⟨1, 0, 0, 4⟩).cur 0).stop
      ∧ ((s0.setCur 0 ⟨1, 0, 0, 4⟩).cur 0).pos + 4 > (s0.setCur 0 ⟨1, 0, 0, 4⟩).len 1
      ∧ ((s0.setCur 0 ⟨0, 0, 5, 9⟩).cur 0).pos + 4 ≤ ((s0.setCur 0 ⟨0, 0, 5, 9⟩).cur 0).stop
      ∧ ((s0.setCur 0 ⟨0, 0, 5, 9⟩).cur 0).pos + 4 ≤ (s0.setCur 0 ⟨0, 0, 5, 9⟩).len 0 := by decide

theorem witness_CurOpenSpansTheBufferAndCurRemCounts : s0.fault = 0 ∧ 7 < s0.cfg.nbuf := by decide

/-- R99: an empty cursor, a stale byte, and the last byte. -/
theorem witness_CurPeekReturnsTheByteOrFaults :
    (s0.cur 2).pos + 1 > (s0.cur 2).stop
      ∧ ((s0.setCur 0 ⟨1, 0, 3, 4⟩).cur 0).pos + 1 ≤ ((s0.setCur 0 ⟨1, 0, 3, 4⟩).cur 0).stop
      ∧ ((s0.setCur 0 ⟨1, 0, 3, 4⟩).cur 0).pos ≥ (s0.setCur 0 ⟨1, 0, 3, 4⟩).len 1
      ∧ ((s0.setCur 0 ⟨0, 0, 8, 9⟩).cur 0).pos + 1 ≤ ((s0.setCur 0 ⟨0, 0, 8, 9⟩).cur 0).stop
      ∧ ((s0.setCur 0 ⟨0, 0, 8, 9⟩).cur 0).pos < (s0.setCur 0 ⟨0, 0, 8, 9⟩).len 0 := by decide

/-- R100, R101: one beyond the end, and exactly to the end. -/
theorem witness_CurIncAndAdvMoveForward :
    (s0.cur 2).pos + 1 > (s0.cur 2).stop ∧ (s0.cur 0).pos + 1 ≤ (s0.cur 0).stop
      ∧ (s0.cur 0).pos + (8 : Word16).toNat > (s0.cur 0).stop
      ∧ (s0.cur 0).pos + (7 : Word16).toNat ≤ (s0.cur 0).stop := by decide

/-- R105: null source, zero length, one byte too many, exact fill. -/
theorem witness_BufAppendCopiesOrChangesNothing :
    s0.fault = 0 ∧ 1 < s0.cfg.nbuf ∧ s0.bufs[1]? = some ⟨[0xAA, 0xBB, 0xCC], some 2⟩
      ∧ (1 : Word32) ≠ 0 ∧ (1 : Word16) ≠ 0 ∧ 3 + (62 : Word16).toNat > 2 * s0.cfg.capWords
      ∧ 3 + (61 : Word16).toNat ≤ 2 * s0.cfg.capWords := by decide

theorem witness_BufClearEmptiesAndBufLenCounts :
    s0.fault = 0 ∧ 7 < s0.cfg.nbuf ∧ s0.bufs[7]? = some ⟨List.replicate 64 0x55, none⟩ := by decide

/-- R108: the first index beyond the prefix and the last inside. -/
theorem witness_BufRdbReadsTheValidPrefix :
    s0.fault = 0 ∧ 0 < s0.cfg.nbuf ∧ s0.bufs[0]? = some ⟨nine, none⟩ ∧ nine.length ≤ (9 : Word16).toNat
      ∧ (8 : Word16).toNat < nine.length := by decide

/-- R119: an accumulation that does not wrap. -/
theorem witness_CsSumFoldsAndComplements :
    s0.fault = 0 ∧ s0.sum.toNat + (([0xFFFF, 1] : List Word16).map BitVec.toNat).sum < 2 ^ 32 := by decide

theorem witness_FoldIsTheResidueModulo65535 : (0xFFFF : Word32).toNat ≤ 0xFFFF ∧ 0xFFFF < (0x10000 : Word32).toNat := by
  decide

/-- R120: one byte too far, odd offset at the end, odd length, and the even ranges with and without a length. -/
theorem witness_CsRangeSumsTheWordsOfARange :
    s0.fault = 0 ∧ 0 < s0.cfg.nbuf ∧ s0.bufs[0]? = some ⟨nine, none⟩
      ∧ (8 : Word16).toNat + (2 : Word32).toNat > nine.length
      ∧ ((9 : Word16).toNat + (0 : Word32).toNat ≤ nine.length ∧ (9 : Word16).toNat % 2 = 1)
      ∧ ((0 : Word16).toNat + (9 : Word32).toNat ≤ nine.length ∧ (9 : Word32).toNat % 2 = 1)
      ∧ ((0 : Word16).toNat + (8 : Word32).toNat ≤ nine.length ∧ (0 : Word16).toNat % 2 = 0 ∧ (8 : Word32).toNat % 2 = 0)
      ∧ ((8 : Word16).toNat + (0 : Word32).toNat ≤ nine.length ∧ (8 : Word16).toNat % 2 = 0 ∧ (0 : Word32).toNat % 2 = 0) := by
  decide

/-- R121: cursor 0 has 7 bytes left from position 2 of 9, cursor 1 has 8 bytes of a buffer of 3. -/
theorem witness_CsRangecSumsFromTheCursor :
    s0.fault = 0 ∧ 7 = (s0.cur 0).stop - (s0.cur 0).pos ∧ 2 = (s0.cur 0).pos
      ∧ (2 : Word16).toNat + (6 : Word32).toNat > 7
      ∧ ((1 : Word16).toNat + (2 : Word32).toNat ≤ 7 ∧ (1 : Word16).toNat % 2 = 1)
      ∧ ((2 : Word16).toNat + (4 : Word32).toNat ≤ 7 ∧ (2 : Word16).toNat % 2 = 0 ∧ (4 : Word32).toNat % 2 = 0
        ∧ 2 + 6 ≤ s0.len (s0.cur 0).buf)
      ∧ 8 = (s0.cur 1).stop - (s0.cur 1).pos ∧ 0 = (s0.cur 1).pos
      ∧ ((0 : Word16).toNat + (4 : Word32).toNat ≤ 8 ∧ (0 : Word16).toNat < 4 ∧ s0.len (s0.cur 1).buf < 0 + 4)
      ∧ ((8 : Word16).toNat + (0 : Word32).toNat ≤ 8 ∧ 8 ≤ (8 : Word16).toNat) := by decide

/-- R121, the fresh cursor. -/
theorem witness_CsRangec_fresh :
    (s0.setCur 3 ⟨0, 0, 0, 9⟩).fault = 0 ∧ 0 < s0.cfg.nbuf
      ∧ (s0.setCur 3 ⟨0, 0, 0, 9⟩).cur 3 = ⟨0, 0, 0, (s0.setCur 3 ⟨0, 0, 0, 9⟩).len 0⟩ := by decide

theorem witness_AccumulationIsOrderIndependent :
    s0.fault = 0 ∧ ([1, 0xFFFF] : List Word16) ≠ [] ∧ ([1, 0xFFFF] : List Word16).Perm [0xFFFF, 1] := by decide

/-- The bytes of S5 with the checksum field zero, and with the checksum in it. -/
def unchecked : List Byte := [0x00, 0x01, 0xF2, 0x03, 0xF4, 0xF5, 0xF6, 0xF7, 0x00, 0x00]

def checked : List Byte := [0x00, 0x01, 0xF2, 0x03, 0xF4, 0xF5, 0xF6, 0xF7, 0x22, 0x0D]

/-- S5: the field at distance 8, to the end of the buffer. -/
theorem witness_ChecksumVerifiesItself :
    (s0.setData 0 unchecked).fault = 0 ∧ (s0.setData 0 checked).fault = 0 ∧ 0 < s0.cfg.nbuf ∧ s0.cfg.Ok
      ∧ (s0.setData 0 unchecked).bufs[0]? = some ⟨unchecked, none⟩
      ∧ (s0.setData 0 checked).bufs[0]? = some ⟨checked, none⟩ ∧ unchecked.length ≤ s0.cfg.capacity
      ∧ (0 : Word16).toNat + (0 : Word32).toNat ≤ unchecked.length ∧ 0 + 8 + 2 ≤ unchecked.length
      ∧ unchecked[0 + 8]? = some 0 ∧ unchecked[0 + 8 + 1]? = some 0
      ∧ (commands [.csClear, .csRange 0 0 0, .csSum] (s0.setData 0 unchecked)).bind State.resp = some ⟨0x00, 0x220D⟩
      ∧ checked = (unchecked.set (0 + 8) ((0x220D : Word32).extractLsb' 8 8)).set (0 + 8 + 1)
          ((0x220D : Word32).extractLsb' 0 8) := by decide

/-- The hypotheses of the chain statements on the test state. -/
theorem witness_Represents : s0.fault = 0 ∧ s0.Sized ∧ Represents s0 L0 ∧ 3 < s0.cfg.nchain := by decide

/-- R130: a node not in the chain, and the last one of it. -/
theorem witness_WalkDecidesMembership : 4 ∉ L0.getD 0 [] ∧ L0.getD 0 [] = [3, 1] ++ 2 :: [] := by decide

/-- R131: a member of the chain, a member of another, and a free node. -/
theorem witness_InsertionIsAdmittedInOrder :
    2 ∈ L0.getD 0 [] ∧ (0 ≠ 3 ∧ 3 ∈ L0.getD 0 []) ∧ 7 < s0.cfg.nbuf ∧ 7 ∉ L0.flatten := by decide

/-- R132, R133, R142: a member of the chain, a member of another, the head, and a free node. -/
theorem witness_InsertionExtendsTheSequence :
    2 ∈ L0.getD 0 [] ∧ (0 ≠ 3 ∧ 3 ∈ L0.getD 0 []) ∧ L0.getD 0 [] = 3 :: [1, 2] ∧ 7 < s0.cfg.nbuf ∧ 7 ∉ L0.flatten := by
  decide

theorem witness_FirstAndPopTakeTheHead : L0.getD 3 [] = [] ∧ L0.getD 0 [] = 3 :: [1, 2] := by decide

theorem witness_RemoveDeletesTheOneOccurrence : (7 < s0.cfg.nbuf ∧ 7 ∉ L0.getD 0 []) ∧ 1 ∈ L0.getD 0 [] := by decide

theorem witness_HasNextAndLastReportTheLinks :
    7 < s0.cfg.nbuf ∧ L0.getD 3 [] = [] ∧ L0.getD 0 [] = [3, 1] ++ [2] := by decide

theorem witness_PushThenPopIsLifoOrFifo :
    L0.getD 3 [] = [] ∧ [4, 5, 7].Nodup ∧ ∀ k ∈ [4, 5, 7], k < s0.cfg.nbuf ∧ k ∉ L0.flatten := by decide

/-- The invariant holds of the test state, and a step leads on from it. -/
theorem witness_EveryStepKeepsTheInvariant : s0.Inv ∧ step s0 = .next s0 :=
  ⟨⟨by decide, by decide, by decide, by decide, by decide, by decide, L0, by decide⟩, rfl⟩

theorem witness_TheInvariantHoldsAtReset : largest.Ok ∧ Memory.wf [(0, 1), (0xFFFFFFFF, 0xFF)] := by decide

theorem witness_ChainInvariantsHoldInEveryReachableState :
    reference.Ok ∧ Memory.wf []
      ∧ ∃ s, steps 2 (State.resetOf reference 0 [] [.command 0x6100010000000000, .command 0x6000030000000000]) = some s
        ∧ s.chain 0 = ⟨some 3, some 1⟩ :=
  ⟨by decide, by decide, _, rfl, rfl⟩

end Sys2Proof.Tests
end

section
/-! PROOFS of the statements of 00_scope.md: the step is total and takes the host's actions in their order (R6, R7), and
no command writes what is the host's (R5, R30). -/

namespace Sys2Proof.Machine

/-! ### Every command and every step has an answer (R7) -/

/-- `obey` decides which next state it answers, never whether it answers one. -/
theorem obey_total (i : Instr) (rule : State → State) (s : State) : ∃ t, obey i rule s = .next t := ⟨_, rfl⟩

theorem exec_total (i : Instr) (s : State) : ∃ t, exec i s = .next t := by
  by_cases h : ∃ csr, i = .rdcsr csr
  · obtain ⟨csr, rfl⟩ := h
    exact ⟨s.respond .ok (s.csr csr), rfl⟩
  · rw [exec_eq_obey i s fun csr e => h ⟨csr, e⟩]
    exact obey_total i (ownRule i) s

/-- R57: a command never leaves the response port empty. -/
theorem exec_responds {i : Instr} {s t : State} (h : exec i s = .next t) : t.resp ≠ none := by
  rcases exec_ends h with ⟨st, res, -, rfl⟩ | ⟨-, c, rfl⟩ | ⟨res, -, -, rfl⟩
  · simp
  · simp
  · simp

theorem runWord_total (w : Command) (s : State) : ∃ t, runWord w s = .next t := by
  rcases hd : decode w with e | i
  · exact ⟨s.refuseWord, runWord_error hd s⟩
  · rw [runWord_ok hd]
    exact exec_total i s

theorem step_total (s : State) : ∃ t, step s = .next t := by
  rcases ha : s.actions with _ | ⟨w | ⟨a, v⟩ | _, rest⟩
  · exact ⟨s, step_idle ha⟩
  · rw [step_command ha]
    exact runWord_total w (s.setActions rest)
  · exact ⟨_, step_setSrc ha⟩
  · exact ⟨_, step_reset ha⟩

/-- Settles O15: totality split by the host's next action, the response read off the three ways a command ends. -/
theorem everyStepAnswersANextState : Obligations.EveryStepAnswersANextState := by
  refine ⟨step_total, fun i s => ?_⟩
  obtain ⟨t, ht⟩ := exec_total i s
  exact ⟨t, ht, exec_responds ht⟩

/-! ### What a command leaves to the host (R5, R6, R30) -/

/-- Settles O16: a command ends in a response, a fault or its effect (`exec_ends`), and no effect writes these fields
(`effect_frame`). -/
theorem noCommandWritesParametersOrSource : Obligations.NoCommandWritesParametersOrSource := by
  intro i s t h
  rcases exec_ends h with ⟨st, res, -, rfl⟩ | ⟨-, c, rfl⟩ | ⟨res, -, -, rfl⟩
  · simp
  · simp
  · obtain ⟨hcfg, hsrc, hactions, hepoch, -⟩ := effect_frame i s
    simp [hcfg, hsrc, hactions, hepoch]

/-! ### The host's next action (R6) -/

theorem decodeTableWord_eq_some {nbits w : Nat} {i : Instr} :
    decodeTableWord nbits w = some i ↔ decode (BitVec.ofNat 64 (w % 2 ^ nbits)) = .ok i := by
  rw [decodeTableWord]
  cases decode (BitVec.ofNat 64 (w % 2 ^ nbits)) <;> simp

/-- A word placed by `withFetchWord` is taken by the next step, which leaves the host's own actions as they were. -/
theorem step_withFetchWord (s : State) (nbits w : Nat) :
    step (s.withFetchWord nbits w) = runWord (BitVec.ofNat 64 (w % 2 ^ nbits)) s :=
  step_command (s := s.withFetchWord nbits w) (rest := s.actions) rfl

/-- Settles O5: the step on a command word is `runWord`, which runs the decoded command. -/
theorem stepRunsTheDecodedCommand : Obligations.StepRunsTheDecodedCommand := by
  refine ⟨fun s w i rest ha hd => ?_, fun s w rest ha => step_command ha, fun s w i hi => ?_⟩
  · exact (step_command ha).trans (runWord_ok hd _)
  · rw [step_withFetchWord, runWord_ok (decodeTableWord_eq_some.mp hi)]

/-- Settles O7: one equation of `step` per action, and `Memory.read_write` for the byte of SRC that the host writes. -/
theorem hostActsBetweenCommands : Obligations.HostActsBetweenCommands := by
  refine ⟨fun s ha => step_idle ha, fun s a v rest hwf ha => ?_, fun s rest ha => step_reset ha⟩
  refine ⟨s.src.write a.toNat v, step_setSrc ha, ?_, fun b hb => ?_⟩
  · rw [Memory.read_write _ _ _ hwf, if_pos rfl]
  · rw [Memory.read_write _ _ _ hwf, if_neg hb]

end Sys2Proof.Machine
end

section
/-! PROOFS of the statements of 10_state.md on writes: which commands write each piece of state (R10, R13 to R16). -/

namespace Sys2Proof.Machine

/-! ### A write of links and descriptors -/

/-- `t` is `s` with links and descriptors written: the buffers keep their bytes, the block its object counts. -/
structure Relinked (s t : State) : Prop where
  frame : t = { s with bufs := t.bufs, chains := t.chains }
  data : ∀ b, (t.buffer b).data = (s.buffer b).data
  sized : s.Sized → t.Sized

theorem Relinked.refl (s : State) : Relinked s s := ⟨rfl, fun _ => rfl, id⟩

theorem relinked_linkHead (q k : Nat) (s : State) : Relinked s (linkHead q k s) :=
  ⟨linkHead_frame q k s, fun b => linkHead_data q k b s, linkHead_sized⟩

theorem relinked_linkTail (q k : Nat) (s : State) : Relinked s (linkTail q k s) :=
  ⟨linkTail_frame q k s, fun b => linkTail_data q k b s, linkTail_sized⟩

theorem relinked_detach (q : Nat) (prev : NodeRef) (k : Nat) (s : State) : Relinked s (detach q prev k s) :=
  ⟨detach_frame q prev k s, fun b => detach_data q prev k b s, detach_sized⟩

theorem Relinked.cfg {s t : State} (h : Relinked s t) : t.cfg = s.cfg := by rw [h.frame]

theorem Relinked.reg {s t : State} (h : Relinked s t) (j : Reg) : t.reg j = s.reg j := by rw [h.frame]; rfl

theorem Relinked.cur {s t : State} (h : Relinked s t) (c : Cur) : t.cur c = s.cur c := by rw [h.frame]; rfl

theorem Relinked.sum {s t : State} (h : Relinked s t) : t.sum = s.sum := by rw [h.frame]

theorem Relinked.len {s t : State} (h : Relinked s t) (b : Nat) : t.len b = s.len b := by
  rw [State.len, h.data, State.len]

/-! ### The commands that write each piece of state -/

/-- R10: the commands that write NI register `j`. -/
def WritesReg (j : Reg) (i : Instr) : Prop :=
  (∃ h v, i = .ni16Set ⟨j, h⟩ v) ∨ (∃ h c, i = .ni16Ld ⟨j, h⟩ c) ∨ (∃ v, i = .ni32Set j v) ∨ (∃ c, i = .ni32Ld j c)
    ∨ i = .ni32Inc j ∨ ∃ q, i = .ni32Add j q

/-- R13, R95: the commands that write cursor `c` of `s`, with the value `v` that they give it. -/
def WritesCur (s : State) (c : Cur) (v : Cursor) (i : Instr) : Prop :=
  (∃ b, i = .curOpen c b ∧ v = ⟨b, 0, 0, s.len b⟩)
    ∨ ∃ n, (i = .curInc c ∨ ∃ m, i = .curAdv c m) ∧ v = { s.cur c with pos := (s.cur c).pos + n }

/-- R14: the commands that write `SUM`. -/
def WritesSum (i : Instr) : Prop :=
  i = .csClear ∨ (∃ r, i = .csAcc r) ∨ (∃ w, i = .csAcci w) ∨ i = .csSum ∨ (∃ b off n, i = .csRange b off n)
    ∨ ∃ c off n, i = .csRangec c off n

/-- R109: the commands that write the bytes of buffer `b` of `s`, with the bytes `d` that they leave there. -/
def WritesData (s : State) (b : Nat) (d : List Byte) (i : Instr) : Prop :=
  (∃ n a, i = .bufAppend b n a ∧ d = (s.buffer b).data ++ s.readSrc a n.toNat) ∨ (i = .bufClear b ∧ d = [])

/-- R15, R16: the commands that write links and descriptors. -/
def WritesLinks (i : Instr) : Prop :=
  ∃ q, (∃ k, i = .chPrepend q k) ∨ (∃ k, i = .chAppend q k) ∨ (∃ k f, i = .chPush q k f) ∨ i = .chFirst q true
    ∨ i = .chPop q ∨ ∃ k, i = .chRemove q k

/-- An update made only where there is a node writes links and descriptors alone if the update does. -/
theorem relinked_elim {s : State} {r : NodeRef} {f : Nat → State} (h : ∀ k, Relinked s (f k)) :
    Relinked s (r.elim s f) := by
  cases r with
  | none => exact Relinked.refl s
  | some k => exact h k

/-- The effect of a command that writes links and descriptors is such a write. -/
theorem effect_relinks {i : Instr} (h : WritesLinks i) (s : State) : Relinked s (effect i s) := by
  obtain ⟨q, ⟨k, rfl⟩ | ⟨k, rfl⟩ | ⟨k, f, rfl⟩ | rfl | rfl | ⟨k, rfl⟩⟩ := h
  · exact relinked_elim fun k => relinked_linkHead q k s
  · exact relinked_elim fun k => relinked_linkTail q k s
  · cases f
    · exact relinked_elim fun k => relinked_linkHead q k s
    · exact relinked_elim fun k => relinked_linkTail q k s
  · exact relinked_elim fun k => relinked_detach q none k s
  · exact relinked_elim fun k => relinked_detach q none k s
  · exact relinked_elim fun k => relinked_detach q (s.walk q k).2 k s

/-- What a command's effect can be: nothing, or one piece of state written by a command that writes that piece. -/
inductive EffectOf (i : Instr) (s : State) : State → Prop where
  | nothing : EffectOf i s s
  | reg (j : Reg) (v : NetInt) (w : WritesReg j i) : EffectOf i s (s.setReg j v)
  | cur (c : Cur) (v : Cursor) (w : WritesCur s c v i) : EffectOf i s (s.setCur c v)
  | sum (v : Word32) (w : WritesSum i) : EffectOf i s (s.setSum v)
  | data (b : Nat) (d : List Byte) (w : WritesData s b d i) : EffectOf i s (s.setData b d)
  | links {t : State} (w : WritesLinks i) (r : Relinked s t) : EffectOf i s t

/-- Everything the effect of a command can be. -/
theorem effect_cases (i : Instr) (s : State) : EffectOf i s (effect i s) := by
  have links : WritesLinks i → EffectOf i s (effect i s) := fun w => .links w (effect_relinks w s)
  cases i
  case ni16Set r v => exact .reg _ _ (.inl ⟨r.half, v, rfl⟩)
  case ni16Ld r c => exact .reg _ _ (.inr (.inl ⟨r.half, c, rfl⟩))
  case ni32Set r v => exact .reg _ _ (.inr (.inr (.inl ⟨v, rfl⟩)))
  case ni32Ld r c => exact .reg _ _ (.inr (.inr (.inr (.inl ⟨c, rfl⟩))))
  case ni32Inc r => exact .reg _ _ (.inr (.inr (.inr (.inr (.inl rfl)))))
  case ni32Add r q => exact .reg _ _ (.inr (.inr (.inr (.inr (.inr ⟨q, rfl⟩)))))
  case curOpen c b => exact .cur _ _ (.inl ⟨b, rfl, rfl⟩)
  case curInc c => exact .cur _ _ (.inr ⟨1, .inl rfl, rfl⟩)
  case curAdv c n => exact .cur _ _ (.inr ⟨n.toNat, .inr ⟨n, rfl⟩, rfl⟩)
  case bufAppend b n a => exact .data _ _ (.inl ⟨n, a, rfl, rfl⟩)
  case bufClear b => exact .data _ _ (.inr ⟨rfl, rfl⟩)
  case csClear => exact .sum _ (.inl rfl)
  case csAcc r => exact .sum _ (.inr (.inl ⟨r, rfl⟩))
  case csAcci w => exact .sum _ (.inr (.inr (.inl ⟨w, rfl⟩)))
  case csSum => exact .sum _ (.inr (.inr (.inr (.inl rfl))))
  case csRange b off n => exact .sum _ (.inr (.inr (.inr (.inr (.inl ⟨b, off, n, rfl⟩)))))
  case csRangec c off n => exact .sum _ (.inr (.inr (.inr (.inr (.inr ⟨c, off, n, rfl⟩)))))
  case chPrepend q k => exact links ⟨q, .inl ⟨k, rfl⟩⟩
  case chAppend q k => exact links ⟨q, .inr (.inl ⟨k, rfl⟩)⟩
  case chPush q k f => exact links ⟨q, .inr (.inr (.inl ⟨k, f, rfl⟩))⟩
  case chFirst q f =>
    cases f
    · exact .nothing
    · exact links ⟨q, .inr (.inr (.inr (.inl rfl)))⟩
  case chPop q => exact links ⟨q, .inr (.inr (.inr (.inr (.inl rfl))))⟩
  case chRemove q k => exact links ⟨q, .inr (.inr (.inr (.inr (.inr ⟨k, rfl⟩))))⟩
  all_goals exact .nothing

/-- An observation `f` of the state that no response and no fault changes is changed by the command's effect or not at
all. -/
theorem exec_observed {α : Type} (f : State → α) (hrespond : ∀ s st res, f (State.respond s st res) = f s)
    (hraise : ∀ s c, f (State.raise s c) = f s) {i : Instr} {s t : State} (h : exec i s = .next t) :
    f t = f s ∨ ∃ u, EffectOf i s u ∧ f t = f u := by
  rcases exec_ends h with ⟨st, res, -, rfl⟩ | ⟨-, c, rfl⟩ | ⟨res, -, -, rfl⟩
  · exact .inl (hrespond s st res)
  · exact .inl (hraise s c)
  · exact .inr ⟨effect i s, effect_cases i s, hrespond _ _ _⟩

/-! ### Only these commands write it -/

/-- Settles O18: of the pieces an effect can write only the register file holds the registers, and a write of one
register leaves the others. -/
theorem onlyNetIntCommandsWriteRegisters : Obligations.OnlyNetIntCommandsWriteRegisters := by
  intro i s t j h hne
  rcases exec_observed (·.reg j) (fun _ _ _ => rfl) (fun _ _ => rfl) h with e | ⟨u, hu, e⟩
  · exact absurd e hne
  · rw [show t.reg j = u.reg j from e] at hne
    cases hu with
    | reg j' v w =>
      by_cases hj : j = j'
      · exact hj ▸ w
      · exact absurd (by rw [State.reg_setReg, if_neg hj]) hne
    | links w r => exact absurd (r.reg j) hne
    | nothing | cur | sum | data => exact absurd rfl hne

/-- Settles O19: of the pieces an effect can write only the cursor file holds the cursors; the moving commands add a
number to `pos`, which is positive where the cursor changes. -/
theorem onlyCursorCommandsWriteCursors : Obligations.OnlyCursorCommandsWriteCursors := by
  intro i s t c h hne
  rcases exec_observed (·.cur c) (fun _ _ _ => rfl) (fun _ _ => rfl) h with e | ⟨u, hu, e⟩
  · exact absurd e hne
  · rw [show t.cur c = u.cur c from e] at hne ⊢
    cases hu with
    | cur c' v w =>
      by_cases hc : c = c'
      · subst hc
        rw [State.cur_setCur, if_pos rfl] at hne ⊢
        obtain ⟨b, hi, -⟩ | ⟨n, hi, rfl⟩ := w
        · exact .inl ⟨b, hi⟩
        · have hn : 0 < n := Nat.pos_of_ne_zero fun h0 => hne (by rw [h0]; rfl)
          exact .inr ⟨hi, rfl, Nat.lt_add_of_pos_right hn⟩
      · exact absurd (by rw [State.cur_setCur, if_neg hc]) hne
    | links w r => exact absurd (r.cur c) hne
    | nothing | reg | sum | data => exact absurd rfl hne

/-- Settles O20: of the pieces an effect can write only one is `SUM`. -/
theorem onlyChecksumCommandsWriteTheSum : Obligations.OnlyChecksumCommandsWriteTheSum := by
  intro i s t h hne
  rcases exec_observed (·.sum) (fun _ _ _ => rfl) (fun _ _ => rfl) h with e | ⟨u, hu, e⟩
  · exact absurd e hne
  · rw [show t.sum = u.sum from e] at hne
    cases hu with
    | sum v w => exact w
    | links w r => exact absurd r.sum hne
    | nothing | reg | cur | data => exact absurd rfl hne

/-- Settles O21: of the pieces an effect can write the links and descriptors are one, and a write of a buffer's bytes
keeps its link. -/
theorem onlyChainCommandsWriteLinks : Obligations.OnlyChainCommandsWriteLinks := by
  intro i s t h hne
  have hne' : (t.chains, t.next) ≠ (s.chains, s.next) := fun e => by
    obtain ⟨hc, hn⟩ := Prod.mk.inj e
    exact hne.elim (· hc) fun ⟨k, hk⟩ => hk (congrFun hn k)
  rcases exec_observed (fun s => (s.chains, s.next)) (fun _ _ _ => rfl) (fun _ _ => rfl) h with e | ⟨u, hu, e⟩
  · exact absurd e hne'
  · rw [show (t.chains, t.next) = (u.chains, u.next) from e] at hne'
    cases hu with
    | links w r => exact w
    | data b d w => exact (hne' (Prod.ext rfl (funext fun k => s.setData_next b k d))).elim
    | nothing | reg | cur | sum => exact absurd rfl hne'

end Sys2Proof.Machine
end

section
/-! PROOFS of the statements of 10_state.md on the invariant (R11, R13, R17) and on the values of reset (R20). -/

namespace Sys2Proof.Machine

/-! ### The values of reset (R20) -/

section Reset

variable (cfg : Config) (epoch : Nat) (src : Memory) (actions : List HostAction)

theorem State.resetOf_buffer (b : Nat) : (State.resetOf cfg epoch src actions).buffer b = ⟨[], none⟩ := by
  by_cases hb : b < cfg.nbuf <;> simp [State.buffer, State.resetOf, hb]

theorem State.resetOf_len (b : Nat) : (State.resetOf cfg epoch src actions).len b = 0 := by
  rw [State.len, State.resetOf_buffer, List.length_nil]

theorem State.resetOf_next (k : Nat) : (State.resetOf cfg epoch src actions).next k = none := by
  rw [State.next, State.resetOf_buffer]

theorem State.resetOf_chain (q : Nat) : (State.resetOf cfg epoch src actions).chain q = ⟨none, none⟩ := by
  by_cases hq : q < cfg.nchain <;> simp [State.chain, State.resetOf, hq]

theorem State.resetOf_cur (c : Cur) : (State.resetOf cfg epoch src actions).cur c = ⟨0, 0, 0, 0⟩ := by
  fin_cases c <;> rfl

theorem State.resetOf_sized : (State.resetOf cfg epoch src actions).Sized :=
  ⟨List.length_replicate, List.length_replicate⟩

/-- After reset every chain is the empty sequence. -/
theorem represents_resetOf : Represents (State.resetOf cfg epoch src actions) (List.replicate cfg.nchain []) := by
  refine ⟨List.length_replicate, fun q hq => ?_, by simp, by simp,
    fun k _ _ => State.resetOf_next cfg epoch src actions k⟩
  have hnil : (List.replicate cfg.nchain []).getD q ([] : List Nat) = [] := List.getD_replicate _ hq
  rw [State.resetOf_chain, hnil]
  exact ⟨rfl, rfl⟩

end Reset

/-- Settles O9: one lemma for each accessor of the state after reset. -/
theorem resetValuesOfTheBlock : Obligations.ResetValuesOfTheBlock := by
  intro cfg epoch src actions
  exact ⟨fun b _ => State.resetOf_len cfg epoch src actions b, fun k _ => State.resetOf_next cfg epoch src actions k,
    State.resetOf_cur cfg epoch src actions, rfl, fun q _ => State.resetOf_chain cfg epoch src actions q, rfl, rfl, rfl⟩

/-! ### The invariant, piece by piece -/

/-- R11: the buffers of the block hold at most `n` bytes each exactly when every buffer number does, those outside the
block holding none. -/
theorem forall_bufs_length_le_iff {s : State} {n : Nat} :
    (∀ B ∈ s.bufs, B.data.length ≤ n) ↔ ∀ b, s.len b ≤ n := by
  constructor
  · intro h b
    by_cases hb : b < s.bufs.length
    · simpa [State.len, State.buffer, hb] using h s.bufs[b] (List.getElem_mem hb)
    · simp [State.len, State.buffer, hb]
  · intro h B hB
    obtain ⟨b, hb, rfl⟩ := List.getElem_of_mem hB
    simpa [State.len, State.buffer, hb] using h b

/-- R13: a cursor inside the block, its indices in order. -/
def CursorOk (cfg : Config) (v : Cursor) : Prop :=
  v.buf < cfg.nbuf ∧ v.start ≤ v.pos ∧ v.pos ≤ v.stop ∧ v.stop ≤ cfg.capacity

theorem State.Inv.cursorOk {s : State} (h : s.Inv) (c : Cur) : CursorOk s.cfg (s.cur c) := h.cursors c

theorem State.Inv.len_le {s : State} (h : s.Inv) (b : Nat) : s.len b ≤ s.cfg.capacity :=
  forall_bufs_length_le_iff.mp h.lens b

/-- The invariant holds after reset of a legal configuration. -/
theorem inv_resetOf {cfg : Config} {src : Memory} (hcfg : cfg.Ok) (hsrc : src.wf) (epoch : Nat)
    (actions : List HostAction) : (State.resetOf cfg epoch src actions).Inv where
  cfgOk := hcfg
  sized := State.resetOf_sized cfg epoch src actions
  lens := forall_bufs_length_le_iff.mpr fun b => by rw [State.resetOf_len]; exact Nat.zero_le _
  cursors c := by
    obtain ⟨-, -, hnbuf, -⟩ := hcfg
    rw [State.resetOf_cur]
    exact ⟨hnbuf, le_rfl, le_rfl, Nat.zero_le _⟩
  faultCode := Nat.zero_le 5
  srcWf := hsrc
  chained := ⟨_, represents_resetOf cfg epoch src actions⟩

/-- Settles O59: `inv_resetOf`, the configuration and SRC of `State.reset` being legal. -/
theorem theInvariantHoldsAtReset : Obligations.TheInvariantHoldsAtReset :=
  ⟨fun _ epoch _ actions hcfg hsrc => inv_resetOf hcfg hsrc epoch actions,
    inv_resetOf State.reset_cfg_ok State.reset_src_wf 0 []⟩

/-! ### The operations keep the invariant -/

section Keep

variable {s t : State}

/-- The invariant reads neither the registers, `SUM`, the response port nor the host's actions. -/
theorem State.Inv.congr (h : s.Inv) (hcfg : t.cfg = s.cfg) (hbufs : t.bufs = s.bufs) (hcurs : t.curs = s.curs)
    (hchains : t.chains = s.chains) (hfault : t.fault.toNat ≤ 5) (hsrc : t.src.wf) : t.Inv where
  cfgOk := hcfg ▸ h.cfgOk
  sized := by rw [State.Sized, hcfg, hbufs, hchains]; exact h.sized
  lens := by rw [hcfg, hbufs]; exact h.lens
  cursors c := by rw [State.cur, hcfg, hcurs]; exact h.cursors c
  faultCode := hfault
  srcWf := hsrc
  chained := by
    obtain ⟨L, hL⟩ := h.chained
    exact ⟨L, hL.congr hcfg (fun q => by rw [State.chain, State.chain, hchains])
      fun k => by rw [State.next, State.next, State.buffer, State.buffer, hbufs]⟩

theorem State.Inv.respond (h : s.Inv) (st : Status) (res : Word32) : (s.respond st res).Inv :=
  h.congr rfl rfl rfl rfl h.faultCode h.srcWf

theorem Cause.code_le (c : Cause) : c.code.toNat ≤ 5 := by cases c <;> decide

theorem State.Inv.raise (h : s.Inv) (c : Cause) : (s.raise c).Inv :=
  h.congr rfl rfl rfl rfl c.code_le h.srcWf

theorem State.Inv.setReg (h : s.Inv) (j : Reg) (v : NetInt) : (s.setReg j v).Inv :=
  h.congr rfl rfl rfl rfl h.faultCode h.srcWf

theorem State.Inv.setSum (h : s.Inv) (v : Word32) : (s.setSum v).Inv :=
  h.congr rfl rfl rfl rfl h.faultCode h.srcWf

theorem State.Inv.setActions (h : s.Inv) (l : List HostAction) : (s.setActions l).Inv :=
  h.congr rfl rfl rfl rfl h.faultCode h.srcWf

theorem State.Inv.hostWrites (h : s.Inv) (a : Word32) (v : Byte) : (s.hostWrites a v).Inv :=
  h.congr rfl rfl rfl rfl h.faultCode (Memory.write_wf s.src a.toNat v h.srcWf a.isLt)

theorem State.Inv.assertReset (h : s.Inv) : s.assertReset.Inv :=
  inv_resetOf h.cfgOk h.srcWf (s.epoch + 1) s.actions

theorem State.Inv.refuseWord (h : s.Inv) : s.refuseWord.Inv := by
  unfold State.refuseWord
  split
  · exact h.respond .faulted 0
  · exact h.respond .illegal 0

/-- R13: a cursor replaced by one inside the block. -/
theorem State.Inv.setCur (h : s.Inv) (c : Cur) {v : Cursor} (hv : CursorOk s.cfg v) : (s.setCur c v).Inv where
  cfgOk := h.cfgOk
  sized := h.sized
  lens := h.lens
  cursors d := by
    rw [State.cur_setCur]
    split
    · exact hv
    · exact h.cursorOk d
  faultCode := h.faultCode
  srcWf := h.srcWf
  chained := by
    obtain ⟨L, hL⟩ := h.chained
    exact ⟨L, hL.congr rfl (fun _ => rfl) fun _ => rfl⟩

/-- R11: the bytes of a buffer replaced by no more than the capacity. -/
theorem State.Inv.setData (h : s.Inv) (b : Nat) {d : List Byte} (hd : d.length ≤ s.cfg.capacity) :
    (s.setData b d).Inv where
  cfgOk := h.cfgOk
  sized := by simpa [State.Sized] using h.sized
  lens := forall_bufs_length_le_iff.mpr fun m => by
    rw [State.len, State.setData_data]
    split
    · exact hd
    · exact h.len_le m
  cursors := h.cursors
  faultCode := h.faultCode
  srcWf := h.srcWf
  chained := by
    obtain ⟨L, hL⟩ := h.chained
    exact ⟨L, hL.congr rfl (fun _ => rfl) fun k => s.setData_next b k d⟩

/-- R15, R16: links and descriptors written so that the chains are sequences again. -/
theorem State.Inv.relink (h : s.Inv) (r : Relinked s t) (hL : ∃ L, Represents t L) : t.Inv where
  cfgOk := r.cfg ▸ h.cfgOk
  sized := r.sized h.sized
  lens := forall_bufs_length_le_iff.mpr fun b => by rw [r.len, r.cfg]; exact h.len_le b
  cursors c := by rw [r.cur, r.cfg]; exact h.cursorOk c
  faultCode := by rw [r.frame]; exact h.faultCode
  srcWf := by rw [r.frame]; exact h.srcWf
  chained := hL

end Keep

/-! ### The sequence a chain command works on -/

/-- A linked sequence starts with the reference that it is linked from. -/
theorem linked_head {s : State} {r : NodeRef} {p : List Nat} (h : linked s r p = true) : r = p.head? := by
  cases p with
  | nil => exact linked_nil.mp h
  | cons k p => exact (linked_cons.mp h).1

/-- R130: the walk answers the node before the one it finds. -/
theorem Represents.walk_eq {s : State} {L : List (List Nat)} (h : Represents s L) {q k : Nat} {pre post : List Nat}
    (hq : q < s.cfg.nchain) (e : L.getD q [] = pre ++ k :: post) : s.walk q k = (true, pre.getLast?) := by
  have hn := (nodup_flatten_iff.mp h.2.2.1).1 q
  have hlen := h.length_le q
  rw [e] at hn hlen
  have hk : k ∉ pre := fun hp => List.disjoint_of_nodup_append hn hp List.mem_cons_self
  rw [State.walk, walkFrom_found (e ▸ (h.2.1 q hq).1) hk (by simp at hlen; omega), Option.or_none]

/-- R131: a node that passes the three tests is free. -/
theorem Represents.free_of_admitted {s : State} {L : List (List Nat)} (h : Represents s L) {q k : Nat}
    (hq : q < s.cfg.nchain) (hr : s.reach q k = false) (ho : s.inOtherChain q k = false) : k ∉ L.flatten := by
  intro hk
  obtain ⟨p, hp⟩ := mem_flatten_iff.mp hk
  by_cases hpq : p = q
  · rw [(h.reach_iff hq k).mpr (hpq ▸ hp)] at hr
    cases hr
  · rw [(h.inOtherChain_iff q k).mpr ⟨p, hpq, hp⟩] at ho
    cases ho

/-! ### Every command and every step keeps the invariant -/

section Commands

variable {s t : State}

/-- A rule that may respond, raise a fault or write its effect keeps the invariant if its effect does. -/
theorem ownRule_inv_of_effect (h : s.Inv) {i : Instr} (he : (effect i s).Inv) : (ownRule i s).Inv := by
  rcases ownRule_ends i s with ⟨st, res, -, e⟩ | ⟨c, e⟩ | ⟨res, e⟩
  · exact e ▸ h.respond st res
  · exact e ▸ h.raise c
  · exact e ▸ he.respond .ok res

theorem advance_inv (h : s.Inv) (c : Cur) (n : Nat) : (advance c n s).Inv := by
  obtain ⟨hbuf, hstart, -, hstop⟩ := h.cursorOk c
  rcases advance_cases c n s with ⟨-, e⟩ | ⟨hpos, e⟩
  · exact e ▸ h.raise .curOverrun
  · exact e ▸ (h.setCur c (v := { s.cur c with pos := (s.cur c).pos + n })
      ⟨hbuf, Nat.le_add_right_of_le hstart, hpos, hstop⟩).respond .ok 0

theorem appendBytes_inv (h : s.Inv) (b : Nat) (n : Word16) (a : Word32) : (appendBytes b n a s).Inv := by
  rcases appendBytes_cases b n a s with ⟨-, e⟩ | ⟨-, -, e⟩ | ⟨-, -, -, e⟩ | ⟨-, -, hfit, e⟩
  · exact e ▸ h.respond .noopNull 0
  · exact e ▸ h.respond .noopZero 0
  · exact e ▸ h.respond .noopOverflow 0
  · have hlen : ((s.buffer b).data ++ s.readSrc a n.toNat).length ≤ s.cfg.capacity := by
      rw [List.length_append, readSrc_length]
      exact hfit
    exact e ▸ (h.setData b hlen).respond .ok 0

/-- An insertion keeps the invariant if its link updates do for a free node. -/
theorem insertNode_inv (h : s.Inv) {update : Nat → Nat → State → State} {q : Nat} {node : NodeRef}
    (hu : ∀ L k, Represents s L → q < s.cfg.nchain → k < s.cfg.nbuf → k ∉ L.flatten → (update q k s).Inv)
    (hw : (decide (q < s.cfg.nchain) && NodeRef.legal s.cfg node) = true) : (insertNode update q node s).Inv := by
  obtain ⟨hq, hnode⟩ := Bool.and_eq_true_iff.mp hw
  rcases insertNode_cases update q node s with ⟨-, e⟩ | ⟨k, -, -, e⟩ | ⟨k, -, -, -, e⟩ | ⟨k, rfl, hr, ho, e⟩
  · exact e ▸ h.respond .noopNull 0
  · exact e ▸ h.respond .noopPresent 0
  · exact e ▸ h.raise .chainConvention
  · obtain ⟨L, hL⟩ := h.chained
    have hq := of_decide_eq_true hq
    exact e ▸ (hu L k hL hq (of_decide_eq_true hnode) (hL.free_of_admitted hq hr ho)).respond .ok 0

theorem insertHead_inv (h : s.Inv) {q : Nat} {node : NodeRef}
    (hw : (decide (q < s.cfg.nchain) && NodeRef.legal s.cfg node) = true) : (insertNode linkHead q node s).Inv :=
  insertNode_inv h (fun _ k hL hq hk hf => h.relink (relinked_linkHead q k s) ⟨_, hL.linkHead h.sized hq hk hf⟩) hw

theorem insertTail_inv (h : s.Inv) {q : Nat} {node : NodeRef}
    (hw : (decide (q < s.cfg.nchain) && NodeRef.legal s.cfg node) = true) : (insertNode linkTail q node s).Inv :=
  insertNode_inv h (fun _ k hL hq hk hf => h.relink (relinked_linkTail q k s) ⟨_, hL.linkTail h.sized hq hk hf⟩) hw

/-- R135: taking out a member keeps the invariant. -/
theorem detach_inv (h : s.Inv) {L : List (List Nat)} (hL : Represents s L) {q k : Nat} {pre post : List Nat}
    (hq : q < s.cfg.nchain) (e : L.getD q [] = pre ++ k :: post) : (detach q pre.getLast? k s).Inv :=
  h.relink (relinked_detach q _ k s) ⟨_, hL.detach h.sized hq e⟩

theorem takeFirst_inv (h : s.Inv) {q : Nat} (hq : q < s.cfg.nchain) (remove : Bool) : (takeFirst q remove s).Inv := by
  rcases takeFirst_cases q remove s with ⟨-, e⟩ | ⟨k, -, -, e⟩ | ⟨k, hfirst, -, e⟩
  · exact e ▸ h.respond .empty 0x000000FF
  · exact e ▸ h.respond .ok _
  · obtain ⟨L, hL⟩ := h.chained
    obtain ⟨post, hpost⟩ : ∃ post, L.getD q [] = [] ++ k :: post :=
      List.head?_eq_some_iff.mp ((linked_head (hL.2.1 q hq).1).symm.trans hfirst)
    exact e ▸ (detach_inv h hL hq hpost).respond .ok _

theorem removeNode_inv (h : s.Inv) {q : Nat} (hq : q < s.cfg.nchain) (node : NodeRef) : (removeNode q node s).Inv := by
  rcases removeNode_cases q node s with ⟨-, e⟩ | ⟨k, -, -, e⟩ | ⟨k, -, hfound, e⟩
  · exact e ▸ h.respond .noopNull 0
  · exact e ▸ h.respond .noopAbsent 0
  · obtain ⟨L, hL⟩ := h.chained
    obtain ⟨pre, post, hk⟩ := List.append_of_mem ((hL.reach_iff hq k).mp hfound)
    rw [hL.walk_eq hq hk] at e
    exact e ▸ (detach_inv h hL hq hk).respond .ok 0

/-- R13: a cursor opened over a buffer of the block is inside the block. -/
theorem curOpen_inv (h : s.Inv) (c : Cur) {b : Nat} (hb : b < s.cfg.nbuf) :
    (s.setCur c { buf := b, start := 0, pos := 0, stop := s.len b }).Inv :=
  h.setCur c ⟨hb, le_rfl, Nat.zero_le _, h.len_le b⟩

/-- The rule of a well-formed command keeps the invariant: the commands that test before they write by the lemma of
their rule, the others by their effect. -/
theorem ownRule_inv (h : s.Inv) {i : Instr} (hw : i.wellFormed s.cfg = true) : (ownRule i s).Inv := by
  cases i
  case curInc c => exact advance_inv h c 1
  case curAdv c n => exact advance_inv h c n.toNat
  case bufAppend b n a => exact appendBytes_inv h b n a
  case chPrepend q k => exact insertHead_inv h hw
  case chAppend q k => exact insertTail_inv h hw
  case chPush q k useFifo =>
    cases useFifo
    · exact insertHead_inv h hw
    · exact insertTail_inv h hw
  case chFirst q remove => exact takeFirst_inv h (of_decide_eq_true hw) remove
  case chPop q => exact takeFirst_inv h (of_decide_eq_true hw) true
  case chRemove q k => exact removeNode_inv h (of_decide_eq_true (Bool.and_eq_true_iff.mp hw).1) k
  case curOpen c b => exact ownRule_inv_of_effect h (curOpen_inv h c (of_decide_eq_true hw))
  case bufClear b => exact ownRule_inv_of_effect h (h.setData b (Nat.zero_le _))
  case ni16Set | ni16Ld | ni32Set | ni32Ld | ni32Inc | ni32Add => exact ownRule_inv_of_effect h (h.setReg _ _)
  case csClear | csAcc | csAcci | csSum | csRange | csRangec => exact ownRule_inv_of_effect h (h.setSum _)
  all_goals exact ownRule_inv_of_effect h h

/-- Every command keeps the invariant. -/
theorem exec_inv (h : s.Inv) {i : Instr} (he : exec i s = .next t) : t.Inv := by
  rcases exec_next he with ⟨-, -, rfl⟩ | ⟨-, -, rfl⟩ | ⟨hw, -, rfl⟩
  · exact h.respond .faulted 0
  · exact h.respond .illegal 0
  · exact ownRule_inv h hw

theorem step_inv (h : s.Inv) (hs : step s = .next t) : t.Inv := by
  rcases step_cases hs with ⟨-, rfl⟩ | ⟨w, rest, i, -, -, he⟩ |
    ⟨w, rest, e, -, -, rfl⟩ | ⟨a, v, rest, -, rfl⟩ | ⟨rest, -, rfl⟩
  · exact h
  · exact exec_inv (h.setActions rest) he
  · exact (h.setActions rest).refuseWord
  · exact (h.setActions rest).hostWrites a v
  · exact (h.setActions rest).assertReset

end Commands

/-- Settles O58: `step_inv`, the host's own actions beside the commands, whose rules keep the invariant by
`ownRule_inv`. -/
theorem everyStepKeepsTheInvariant : Obligations.EveryStepKeepsTheInvariant := fun _ _ h hs => step_inv h hs

/-! ### Every reachable state (R17) -/

/-- What every step keeps holds after any number of steps. -/
theorem steps_induction {P : State → Prop} (hstep : ∀ s t, P s → step s = .next t → P t) {n : Nat} {s t : State}
    (hs : P s) (h : steps n s = some t) : P t := by
  induction n generalizing s with
  | zero => cases h; exact hs
  | succ n ih =>
    obtain ⟨u, hu⟩ := step_total s
    simp only [steps, hu] at h
    exact ih (hstep s u hs hu) h

/-- R5: no step changes the parameters. -/
theorem step_cfg {s t : State} (h : step s = .next t) : t.cfg = s.cfg := by
  rcases step_cases h with ⟨-, rfl⟩ | ⟨w, rest, i, -, -, he⟩ |
    ⟨w, rest, e, -, -, rfl⟩ | ⟨a, v, rest, -, rfl⟩ | ⟨rest, -, rfl⟩
  · rfl
  · obtain ⟨hcfg, -⟩ := noCommandWritesParametersOrSource i (s.setActions rest) t he
    exact hcfg
  · unfold State.refuseWord; split <;> rfl
  · rfl
  · rfl

section Chains

variable {s : State} {L : List (List Nat)} (h : Represents s L)
include h

/-- I1: `first` and `last` are `NULL` together. -/
theorem Represents.first_eq_none_iff {q : Nat} (hq : q < s.cfg.nchain) :
    (s.chain q).first = none ↔ (s.chain q).last = none := by
  obtain ⟨hl, hla⟩ := h.2.1 q hq
  rw [linked_head hl, hla, List.head?_eq_none_iff, List.getLast?_eq_none_iff]

/-- I2: the tail has no successor. -/
theorem Represents.next_last {q l : Nat} (hq : q < s.cfg.nchain) (hlast : (s.chain q).last = some l) :
    s.next l = none := by
  obtain ⟨hl, hla⟩ := h.2.1 q hq
  obtain ⟨pre, hpre⟩ := List.getLast?_eq_some_iff.mp (hla.symm.trans hlast)
  rw [hpre] at hl
  exact linked_nil.mp (linked_after hl)

/-- I4: no node is in two chains. -/
theorem Represents.chain_unique {q p k : Nat} (hq : q < s.cfg.nchain) (hp : p < s.cfg.nchain)
    (hkq : s.reach q k = true) (hkp : s.reach p k = true) : q = p := by
  by_contra hqp
  exact (nodup_flatten_iff.mp h.2.2.1).2 q p k hqp ((h.reach_iff hq k).mp hkq) ((h.reach_iff hp k).mp hkp)

/-- I5: a node in no chain has no successor. -/
theorem Represents.next_free {k : Nat} (hk : k < s.cfg.nbuf) (hfree : ∀ q, q < s.cfg.nchain → s.reach q k = false) :
    s.next k = none := by
  have hk' : k ∉ L.flatten := fun hm => by
    obtain ⟨q, hkq⟩ := mem_flatten_iff.mp hm
    have hq : q < s.cfg.nchain := h.1 ▸ lt_of_mem_getD hkq
    exact Bool.false_ne_true ((hfree q hq).symm.trans ((h.reach_iff hq k).mpr hkq))
  obtain ⟨-, -, -, -, hnone⟩ := h
  exact hnone k hk hk'

end Chains

/-- Settles O57: every state reached from reset meets the invariant, so its chains are sequences; I1 to I5 are facts
about such chains. -/
theorem chainInvariantsHoldInEveryReachableState : Obligations.ChainInvariantsHoldInEveryReachableState := by
  intro cfg epoch src actions n s hcfg hsrc hs
  obtain ⟨hinv, rfl⟩ : s.Inv ∧ s.cfg = cfg :=
    steps_induction (P := fun s => s.Inv ∧ s.cfg = cfg)
      (fun _ _ ⟨hi, hc⟩ hst => ⟨step_inv hi hst, (step_cfg hst).trans hc⟩) ⟨inv_resetOf hcfg hsrc epoch actions, rfl⟩ hs
  obtain ⟨L, hL⟩ := hinv.chained
  refine ⟨fun q hq => ⟨hL.first_eq_none_iff hq, fun l => hL.next_last hq, L.getD q [], ?_⟩,
    fun q p k hq hp => hL.chain_unique hq hp, fun k hk => hL.next_free hk⟩
  obtain ⟨hl, hla⟩ := hL.2.1 q hq
  exact ⟨hl, hla.symm, (nodup_flatten_iff.mp hL.2.2.1).1 q, hL.length_le q⟩

end Sys2Proof.Machine
end

section
/-! PROOFS of the statements of 20_memory.md: SRC is read by `BUF.APPEND` alone (R30). -/

namespace Sys2Proof.Machine

/-! ### The same state over another SRC -/

/-- The state with another content of SRC. -/
def State.withSrc (m : Memory) (s : State) : State := { s with src := m }

/-- A rule that neither reads nor writes SRC: replacing its content before or after the rule is the same. -/
def IgnoresSrc (rule : State → State) : Prop := ∀ (m : Memory) (s : State), rule (s.withSrc m) = (rule s).withSrc m

section Reads

variable (m : Memory) (s : State)

@[simp] theorem State.withSrc_cfg : (s.withSrc m).cfg = s.cfg := rfl
@[simp] theorem State.withSrc_len (b : Nat) : (s.withSrc m).len b = s.len b := rfl
@[simp] theorem State.withSrc_next (k : Nat) : (s.withSrc m).next k = s.next k := rfl
@[simp] theorem State.withSrc_chain (q : Nat) : (s.withSrc m).chain q = s.chain q := rfl
@[simp] theorem State.withSrc_remaining (c : Cur) : (s.withSrc m).remaining c = s.remaining c := rfl
@[simp] theorem State.withSrc_curRead (c : Cur) (off k : Nat) (cause : Cause) :
    (s.withSrc m).curRead c off k cause = s.curRead c off k cause := rfl

@[simp] theorem State.withSrc_walkFrom (k fuel : Nat) (prev r : NodeRef) :
    (s.withSrc m).walkFrom k fuel prev r = s.walkFrom k fuel prev r := by
  induction fuel generalizing prev r with
  | zero => rfl
  | succ fuel ih =>
    cases r with
    | none => rfl
    | some p => simp only [State.walkFrom, State.withSrc_next, ih]

@[simp] theorem State.withSrc_walk (q k : Nat) : (s.withSrc m).walk q k = s.walk q k :=
  s.withSrc_walkFrom m k s.cfg.nbuf none (s.chain q).first

@[simp] theorem State.withSrc_reach (q k : Nat) : (s.withSrc m).reach q k = s.reach q k :=
  congrArg Prod.fst (s.withSrc_walk m q k)

@[simp] theorem State.withSrc_inOtherChain (q k : Nat) : (s.withSrc m).inOtherChain q k = s.inOtherChain q k := by
  simp only [State.inOtherChain, State.withSrc_cfg, State.withSrc_reach]

end Reads

/-! ### The rules with branches: the tests do not read SRC, and neither branch does -/

theorem ignoresSrc_loadHalf (r : HalfReg) (c : Cur) : IgnoresSrc (loadHalf r c) := by
  intro m s
  rw [loadHalf, loadHalf, State.withSrc_curRead]
  cases s.curRead c 0 2 .curShortRead <;> rfl

theorem ignoresSrc_loadReg (r : Reg) (c : Cur) : IgnoresSrc (loadReg r c) := by
  intro m s
  rw [loadReg, loadReg, State.withSrc_curRead]
  cases s.curRead c 0 4 .curShortRead <;> rfl

theorem ignoresSrc_peek (c : Cur) : IgnoresSrc (peek c) := by
  intro m s
  rw [peek, peek, State.withSrc_curRead]
  cases s.curRead c 0 1 .curEmptyDeref <;> rfl

theorem ignoresSrc_advance (c : Cur) (n : Nat) : IgnoresSrc (advance c n) := by
  intro m s
  rw [advance, advance, apply_ite (State.withSrc m)]
  rfl

theorem ignoresSrc_readByteAt (b : Nat) (idx : Word16) : IgnoresSrc (readByteAt b idx) := by
  intro m s
  rw [readByteAt, readByteAt, apply_ite (State.withSrc m)]
  rfl

theorem ignoresSrc_sumRange (b off n : Nat) : IgnoresSrc (sumRange b off n) := by
  intro m s
  rw [sumRange, sumRange, State.withSrc_len]
  cases rangeTest (s.len b) off n <;> rfl

theorem ignoresSrc_sumCursorRange (c : Cur) (off n : Nat) : IgnoresSrc (sumCursorRange c off n) := by
  intro m s
  rw [sumCursorRange, sumCursorRange, State.withSrc_remaining]
  cases rangeTest (s.remaining c) off n with
  | some st => rfl
  | none =>
    simp only [apply_ite (State.withSrc m)]
    rfl

theorem ignoresSrc_linkHead (q k : Nat) : IgnoresSrc (linkHead q k) := by
  intro m s
  rw [linkHead, linkHead, apply_ite (State.withSrc m)]
  rfl

theorem ignoresSrc_linkTail (q k : Nat) : IgnoresSrc (linkTail q k) := by
  intro m s
  rw [linkTail, linkTail, State.withSrc_chain]
  cases (s.chain q).first with
  | none => rfl
  | some f => cases (s.chain q).last <;> rfl

theorem ignoresSrc_detach (q : Nat) (prev : NodeRef) (k : Nat) : IgnoresSrc (detach q prev k) := by
  intro m s
  by_cases hlast : (s.chain q).last = some k
  · simp only [detach, State.withSrc_chain, hlast, if_true]
    cases prev <;> rfl
  · simp only [detach, State.withSrc_chain, hlast, if_false]
    cases prev <;> rfl

theorem ignoresSrc_insertNode {update : Nat → Nat → State → State} (hu : ∀ q k, IgnoresSrc (update q k)) (q : Nat)
    (node : NodeRef) : IgnoresSrc (insertNode update q node) := by
  intro m s
  cases node with
  | none => rfl
  | some k =>
    simp only [insertNode, State.withSrc_reach, State.withSrc_inOtherChain, hu q k m s, apply_ite (State.withSrc m)]
    rfl

theorem ignoresSrc_takeFirst (q : Nat) (remove : Bool) : IgnoresSrc (takeFirst q remove) := by
  intro m s
  rw [takeFirst, takeFirst, State.withSrc_chain]
  cases (s.chain q).first with
  | none => rfl
  | some k =>
    cases remove with
    | false => rfl
    | true => exact congrArg (State.respond · .ok (nodeResult (some k))) (ignoresSrc_detach q none k m s)

theorem ignoresSrc_removeNode (q : Nat) (node : NodeRef) : IgnoresSrc (removeNode q node) := by
  intro m s
  cases node with
  | none => rfl
  | some k =>
    simp only [removeNode, State.withSrc_walk, ignoresSrc_detach q _ k m s, apply_ite (State.withSrc m)]
    rfl

theorem ignoresSrc_hasNode (q : Nat) (node : NodeRef) : IgnoresSrc (hasNode q node) := by
  intro m s
  cases node with
  | none => rfl
  | some k => rw [hasNode, State.withSrc_reach]; rfl

theorem ignoresSrc_nextNode (node : NodeRef) : IgnoresSrc (nextNode node) := by
  intro m s
  cases node <;> rfl

theorem ignoresSrc_lastNode (q : Nat) : IgnoresSrc (lastNode q) := by
  intro m s
  rw [lastNode, lastNode, State.withSrc_chain]
  cases (s.chain q).last <;> rfl

/-! ### Every command -/

/-- R30: the rule of every command other than `BUF.APPEND` ignores SRC. -/
theorem ignoresSrc_ownRule {i : Instr} (hi : ∀ b n a, i ≠ .bufAppend b n a) : IgnoresSrc (ownRule i) := by
  cases i
  case bufAppend b n a => exact absurd rfl (hi b n a)
  case ni16Ld r c => exact ignoresSrc_loadHalf r c
  case ni32Ld r c => exact ignoresSrc_loadReg r c
  case curPeek c => exact ignoresSrc_peek c
  case curInc c => exact ignoresSrc_advance c 1
  case curAdv c n => exact ignoresSrc_advance c n.toNat
  case bufRdb b idx => exact ignoresSrc_readByteAt b idx
  case csRange b off n => exact ignoresSrc_sumRange b off.toNat n.toNat
  case csRangec c off n => exact ignoresSrc_sumCursorRange c off.toNat n.toNat
  case chPrepend q k => exact ignoresSrc_insertNode ignoresSrc_linkHead q k
  case chAppend q k => exact ignoresSrc_insertNode ignoresSrc_linkTail q k
  case chPush q k useFifo =>
    cases useFifo
    · exact ignoresSrc_insertNode ignoresSrc_linkHead q k
    · exact ignoresSrc_insertNode ignoresSrc_linkTail q k
  case chFirst q remove => exact ignoresSrc_takeFirst q remove
  case chPop q => exact ignoresSrc_takeFirst q true
  case chRemove q k => exact ignoresSrc_removeNode q k
  case chHas q k => exact ignoresSrc_hasNode q k
  case chNext k => exact ignoresSrc_nextNode k
  case chLast q => exact ignoresSrc_lastNode q
  all_goals exact fun _ _ => rfl

/-- Settles O17: the tests of R161 read the fault and the configuration alone (`exec_next`), and the rule that an
admitted command runs ignores SRC. -/
theorem onlyAppendReadsSourceMemory : Obligations.OnlyAppendReadsSourceMemory := by
  intro i s t m hi h
  rcases exec_next h with ⟨hf, hr, rfl⟩ | ⟨hf, hw, rfl⟩ | ⟨hw, hf | ⟨csr, rfl⟩, rfl⟩
  · exact exec_faulted (s := s.withSrc m) hf hr
  · exact exec_illegal (s := s.withSrc m) hf hw
  · calc exec i (s.withSrc m) = .next (ownRule i (s.withSrc m)) := exec_run hf hw
      _ = .next ((ownRule i s).withSrc m) := by rw [ignoresSrc_ownRule hi]
  · rfl

end Sys2Proof.Machine
end

section
/-! PROOFS of the statements of 30_encoding.md: decode and encode are inverse to each other, and a word is legal exactly
when the opcode map admits its fields (R50 to R55). -/

namespace Sys2Proof

/-! ### Operand kinds (R52): reader, writer and legal values of one kind agree -/

/-- An operand kind as the decoder reads it, the encoder writes it, and `Instr.wellFormed` and the opcode map admit
it. -/
structure Operand (α : Type) where
  kind : Kind
  read : Byte → Option α
  put : α → Byte
  legal : Config → α → Bool
  read_put : ∀ {cfg : Config} {v : α}, cfg.Ok → legal cfg v = true → read (put v) = some v
  put_read : ∀ {x : Byte} {v : α}, read x = some v → put v = x
  admits_eq : ∀ (cfg : Config) (x : Byte), kind.admits cfg x = (read x).any (legal cfg)

theorem Config.Ok.nbuf_le {cfg : Config} (h : cfg.Ok) : cfg.nbuf ≤ 255 := by
  obtain ⟨-, -, -, hnbuf, -, -⟩ := h
  exact hnbuf

theorem Config.Ok.nchain_le {cfg : Config} (h : cfg.Ok) : cfg.nchain ≤ 255 := by
  obtain ⟨-, -, -, -, -, hnchain⟩ := h
  exact hnchain

/-- A number below a bound of the configuration that is at most 255 is read back from its byte. -/
theorem readNumber_putNumber_of_lt {n bound : Nat} (hb : bound ≤ 255) (h : decide (n < bound) = true) :
    readNumber (putNumber n) = some n := by
  have hn : n < bound := of_decide_eq_true h
  exact readNumber_putNumber (by omega)

/-- `NBUF` is at most 255, so no node number is taken for `NULL`. -/
theorem readNode_putNode_of_legal {cfg : Config} {k : NodeRef} (hcfg : cfg.Ok) (h : NodeRef.legal cfg k = true) :
    readNode (putNode k) = some k := by
  apply readNode_putNode
  rintro n rfl
  have hn : n < cfg.nbuf := of_decide_eq_true h
  have hnbuf := hcfg.nbuf_le
  omega

theorem admits_node (cfg : Config) (x : Byte) : Kind.node.admits cfg x = (readNode x).any (NodeRef.legal cfg) := by
  by_cases hx : x = 0xFF#8
  · simp [Kind.admits, readNode, hx, NodeRef.legal]
  · simp [Kind.admits, readNode, hx, NodeRef.legal]

namespace Operand

/-- Kind `r32`. -/
def reg : Operand Reg where
  kind := .r32
  read := readReg
  put := putReg
  legal _ _ := true
  read_put _ _ := readReg_putReg _
  put_read h := (readReg_some.mp h).symm
  admits_eq _ := by simp only [Kind.admits]; decide

/-- Kind `r16`. -/
def halfReg : Operand HalfReg where
  kind := .r16
  read := readHalfReg
  put := putHalfReg
  legal _ _ := true
  read_put _ _ := readHalfReg_putHalfReg _
  put_read h := (readHalfReg_some.mp h).symm
  admits_eq _ := by simp only [Kind.admits]; decide

/-- Kind `cur`. -/
def cur : Operand Cur where
  kind := .cur
  read := readCur
  put := putCur
  legal _ _ := true
  read_put _ _ := readCur_putCur _
  put_read h := (readCur_some.mp h).symm
  admits_eq _ := by simp only [Kind.admits]; decide

/-- Kind `csr`. -/
def csr : Operand Csr where
  kind := .csr
  read := readCsr
  put := putCsr
  legal _ _ := true
  read_put _ _ := readCsr_putCsr _
  put_read h := (readCsr_some.mp h).symm
  admits_eq _ := by simp only [Kind.admits]; decide

/-- Kind `flag`. -/
def flag : Operand Bool where
  kind := .flag
  read := readFlag
  put := putFlag
  legal _ _ := true
  read_put _ _ := readFlag_putFlag _
  put_read h := (readFlag_some.mp h).symm
  admits_eq _ := by simp only [Kind.admits]; decide

/-- Kind `buf`: a number below `NBUF`. -/
def buf : Operand Nat where
  kind := .buf
  read := readNumber
  put := putNumber
  legal cfg b := decide (b < cfg.nbuf)
  read_put hcfg := readNumber_putNumber_of_lt hcfg.nbuf_le
  put_read := putNumber_of_readNumber
  admits_eq _ _ := rfl

/-- Kind `chain`: a number below `NCHAIN`. -/
def chain : Operand Nat where
  kind := .chain
  read := readNumber
  put := putNumber
  legal cfg q := decide (q < cfg.nchain)
  read_put hcfg := readNumber_putNumber_of_lt hcfg.nchain_le
  put_read := putNumber_of_readNumber
  admits_eq _ _ := rfl

/-- Kind `node`: a number below `NBUF`, or `NULL`. -/
def node : Operand NodeRef where
  kind := .node
  read := readNode
  put := putNode
  legal := NodeRef.legal
  read_put := readNode_putNode_of_legal
  put_read := putNode_of_readNode
  admits_eq := admits_node

end Operand

/-! ### Decode after encode: each format gives back the operands that its writer joined (R51) -/

section Formats

variable {cfg : Config} {opc : Byte} {v : Word16} {dw : Word32} {α β γ : Type} {t : α} {u : β} {w : γ}

theorem decode_wordZ {i : Instr} (hd : decodeFields ⟨opc, 0, 0, 0, 0⟩ = asZ ⟨opc, 0, 0, 0, 0⟩ i) :
    decode (wordZ opc) = .ok i := by
  rw [wordZ, decode_wordOf, hd]
  rfl

theorem decode_wordA1 (k : Operand α) {mk : α → Instr}
    (hd : decodeFields ⟨opc, k.put t, 0, 0, 0⟩ = asA1 ⟨opc, k.put t, 0, 0, 0⟩ k.read mk) (hcfg : cfg.Ok)
    (ht : k.legal cfg t = true) : decode (wordA1 opc (k.put t)) = .ok (mk t) := by
  rw [wordA1, decode_wordOf, hd, asA1, k.read_put hcfg ht]
  rfl

theorem decode_wordA2 (k : Operand α) (l : Operand β) {mk : α → β → Instr}
    (hd : decodeFields ⟨opc, k.put t, l.put u, 0, 0⟩ = asA2 ⟨opc, k.put t, l.put u, 0, 0⟩ k.read l.read mk)
    (hcfg : cfg.Ok) (h : (k.legal cfg t && l.legal cfg u) = true) :
    decode (wordA2 opc (k.put t) (l.put u)) = .ok (mk t u) := by
  obtain ⟨ht, hu⟩ := Bool.and_eq_true_iff.mp h
  rw [wordA2, decode_wordOf, hd, asA2, k.read_put hcfg ht, l.read_put hcfg hu]
  rfl

theorem decode_wordA3 (k : Operand α) (l : Operand β) (m : Operand γ) {mk : α → β → γ → Instr}
    (hd : decodeFields ⟨opc, k.put t, l.put u, m.put w, 0⟩
      = asA3 ⟨opc, k.put t, l.put u, m.put w, 0⟩ k.read l.read m.read mk)
    (hcfg : cfg.Ok) (h : (k.legal cfg t && l.legal cfg u && m.legal cfg w) = true) :
    decode (wordA3 opc (k.put t) (l.put u) (m.put w)) = .ok (mk t u w) := by
  obtain ⟨htu, hw⟩ := Bool.and_eq_true_iff.mp h
  obtain ⟨ht, hu⟩ := Bool.and_eq_true_iff.mp htu
  rw [wordA3, decode_wordOf, hd, asA3, k.read_put hcfg ht, l.read_put hcfg hu, m.read_put hcfg hw]
  rfl

theorem decode_wordAI (k : Operand α) {mk : α → Word16 → Instr}
    (hd : ∀ b c, decodeFields ⟨opc, k.put t, b, c, 0⟩ = asAI ⟨opc, k.put t, b, c, 0⟩ k.read mk) (hcfg : cfg.Ok)
    (ht : k.legal cfg t = true) : decode (wordAI opc (k.put t) v) = .ok (mk t v) := by
  rw [wordAI, decode_wordOf, hd, asAI, k.read_put hcfg ht, imm16_split]
  rfl

theorem decode_wordI {mk : Word16 → Instr}
    (hd : ∀ b c, decodeFields ⟨opc, 0, b, c, 0⟩ = asI ⟨opc, 0, b, c, 0⟩ mk) : decode (wordI opc v) = .ok (mk v) := by
  rw [wordI, decode_wordOf, hd, asI, imm16_split]
  rfl

theorem decode_wordAD (k : Operand α) {mk : α → Word32 → Instr}
    (hd : decodeFields ⟨opc, k.put t, 0, 0, dw⟩ = asAD ⟨opc, k.put t, 0, 0, dw⟩ k.read mk) (hcfg : cfg.Ok)
    (ht : k.legal cfg t = true) : decode (wordAD opc (k.put t) dw) = .ok (mk t dw) := by
  rw [wordAD, decode_wordOf, hd, asAD, k.read_put hcfg ht]
  rfl

theorem decode_wordAID (k : Operand α) {mk : α → Word16 → Word32 → Instr}
    (hd : ∀ b c, decodeFields ⟨opc, k.put t, b, c, dw⟩ = asAID ⟨opc, k.put t, b, c, dw⟩ k.read mk) (hcfg : cfg.Ok)
    (ht : k.legal cfg t = true) : decode (wordAID opc (k.put t) v dw) = .ok (mk t v dw) := by
  rw [wordAID, decode_wordOf, hd, asAID, k.read_put hcfg ht, imm16_split]
  rfl

end Formats

/-- Settles O2: every constructor of `Instr` by the lemma of its format, with the kinds of its operands. -/
theorem encodedCommandDecodesToItself : Obligations.EncodedCommandDecodesToItself := by
  intro cfg i hcfg h
  cases i
  case nop | csClear | csSum => exact decode_wordZ rfl
  case rdcsr => exact decode_wordA1 .csr rfl hcfg h
  case ni16Get | csAcc => exact decode_wordA1 .halfReg rfl hcfg h
  case ni32Get | ni32Inc => exact decode_wordA1 .reg rfl hcfg h
  case curRem | curPeek | curInc => exact decode_wordA1 .cur rfl hcfg h
  case bufClear | bufLen => exact decode_wordA1 .buf rfl hcfg h
  case chPop | chLast => exact decode_wordA1 .chain rfl hcfg h
  case chNext => exact decode_wordA1 .node rfl hcfg h
  case ni16Ld => exact decode_wordA2 .halfReg .cur rfl hcfg h
  case ni16Eq | ni16Ne => exact decode_wordA2 .halfReg .halfReg rfl hcfg h
  case ni32Ld => exact decode_wordA2 .reg .cur rfl hcfg h
  case ni32Eq | ni32Ne | ni32Add | ni32Lt => exact decode_wordA2 .reg .reg rfl hcfg h
  case curOpen => exact decode_wordA2 .cur .buf rfl hcfg h
  case chPrepend | chAppend | chRemove | chHas => exact decode_wordA2 .chain .node rfl hcfg h
  case chFirst => exact decode_wordA2 .chain .flag rfl hcfg ((Bool.and_true _).trans h)
  case chPush => exact decode_wordA3 .chain .node .flag rfl hcfg ((Bool.and_true _).trans h)
  case ni16Set | ni16Eqi | ni16Nei => exact decode_wordAI .halfReg (fun _ _ => rfl) hcfg h
  case curAdv => exact decode_wordAI .cur (fun _ _ => rfl) hcfg h
  case bufRdb => exact decode_wordAI .buf (fun _ _ => rfl) hcfg h
  case csAcci => exact decode_wordI fun _ _ => rfl
  case ni32Set | ni32Eqi | ni32Nei => exact decode_wordAD .reg rfl hcfg h
  case bufAppend | csRange => exact decode_wordAID .buf (fun _ _ => rfl) hcfg h
  case csRangec => exact decode_wordAID .cur (fun _ _ => rfl) hcfg h

/-! ### The rows of the opcode map (R54) -/

/-- A row's own part of `legalByMap`: the unused fields are zero and the operand fields are legal. -/
def MapRow.admits (cfg : Config) (f : Fields) (r : MapRow) : Bool :=
  r.fmt.unusedAreZero f && (r.kinds.zip [f.a, f.b, f.c]).all fun p => p.1.admits cfg p.2

/-- An opcode selects at most one row. -/
theorem opcodeMap_unique {r r' : MapRow} (hr : r ∈ opcodeMap) (hr' : r' ∈ opcodeMap) (h : r.opc = r'.opc) : r = r' :=
  List.inj_on_of_nodup_map (f := MapRow.opc) (by decide) hr hr' h

theorem legalByMap_of_row {r : MapRow} {f : Fields} (hr : r ∈ opcodeMap) (ho : r.opc = f.opc) (cfg : Config) :
    legalByMap cfg f = r.admits cfg f := by
  rw [Bool.eq_iff_iff, legalByMap, List.any_eq_true]
  constructor
  · rintro ⟨r', hr', h⟩
    simp only [Bool.and_eq_true, beq_iff_eq] at h
    obtain ⟨⟨ho', hz⟩, hk⟩ := h
    obtain rfl := opcodeMap_unique hr hr' (ho.trans ho'.symm)
    rw [MapRow.admits, hz, hk, Bool.and_self]
  · intro h
    obtain ⟨hz, hk⟩ := Bool.and_eq_true_iff.mp h
    exact ⟨r, hr, by simp only [ho, hz, hk, beq_self_eq_true, Bool.and_self]⟩

theorem legalByMap_of_no_row {f : Fields} (h : ∀ r ∈ opcodeMap, r.opc ≠ f.opc) (cfg : Config) :
    legalByMap cfg f = false := by
  rw [legalByMap, List.any_eq_false]
  intro r hr
  simp [h r hr]

/-! ### Encode after decode, and legality: what each format's reader answers is what the row says (R51, R55) -/

/-- The decoder's answer is a command of the block. -/
def accepted (cfg : Config) : Except Reject Instr → Bool
  | .ok i => i.wellFormed cfg
  | .error _ => false

theorem legal_eq_accepted (cfg : Config) (w : Command) : legal cfg w = accepted cfg (decode w) := by
  rw [legal]
  cases decode w <;> rfl

/-- The decoder's answer `d` to the fields `f` is what the row of the opcode map says: a command answered is written
back as these fields, and a command of the block is answered exactly when the row admits them. -/
structure FollowsRow (r : MapRow) (f : Fields) (d : Except Reject Instr) : Prop where
  opc_eq : r.opc = f.opc
  encode_eq : ∀ {i : Instr}, d = .ok i → encode i = wordOf f
  accepted_eq : ∀ cfg : Config, accepted cfg d = r.admits cfg f

theorem accepted_unusedZero (cfg : Config) (z : Bool) (d : Except Reject Instr) :
    accepted cfg (unusedZero z d) = (z && accepted cfg d) := by
  cases z <;> rfl

section Rows

variable {cfg : Config} {opc : Byte} {f : Fields} {α β γ : Type}

theorem accepted_operand1 (k : Operand α) {mk : α → Instr} (hw : ∀ t, (mk t).wellFormed cfg = k.legal cfg t)
    (x : Byte) : accepted cfg (operand1 (k.read x) mk) = k.kind.admits cfg x := by
  rw [k.admits_eq]
  cases k.read x with
  | none => rfl
  | some t => exact hw t

theorem accepted_operand2 (k : Operand α) (l : Operand β) {mk : α → β → Instr}
    (hw : ∀ t u, (mk t u).wellFormed cfg = (k.legal cfg t && l.legal cfg u)) (x y : Byte) :
    accepted cfg (operand2 (k.read x) (l.read y) mk) = (k.kind.admits cfg x && l.kind.admits cfg y) := by
  rw [k.admits_eq, l.admits_eq]
  cases k.read x with
  | none => rfl
  | some t =>
    cases l.read y with
    | none => exact (Bool.and_false _).symm
    | some u => exact hw t u

theorem accepted_operand3 (k : Operand α) (l : Operand β) (m : Operand γ) {mk : α → β → γ → Instr}
    (hw : ∀ t u w, (mk t u w).wellFormed cfg = (k.legal cfg t && l.legal cfg u && m.legal cfg w)) (x y z : Byte) :
    accepted cfg (operand3 (k.read x) (l.read y) (m.read z) mk)
      = (k.kind.admits cfg x && l.kind.admits cfg y && m.kind.admits cfg z) := by
  rw [k.admits_eq, l.admits_eq, m.admits_eq]
  cases k.read x with
  | none => rfl
  | some t =>
    cases l.read y with
    | none => simp [operand3, accepted]
    | some u =>
      cases m.read z with
      | none => exact (Bool.and_false _).symm
      | some w => exact hw t u w

/-! A lemma per format. What it asks of the constructor, `he` of the encoder and `hw` of `Instr.wellFormed`, holds by
their definitions for nearly every command. -/

theorem followsRow_asZ {i : Instr} (ho : f.opc = opc) (he : encode i = wordZ opc := by intros; rfl)
    (hw : ∀ cfg, i.wellFormed cfg = true := by intros; rfl) : FollowsRow ⟨opc, .z, []⟩ f (asZ f i) where
  opc_eq := ho.symm
  encode_eq h := by
    obtain ⟨rfl, hf⟩ := asZ_ok h
    rw [he, hf, ho]
  accepted_eq cfg := by
    rw [asZ, accepted_unusedZero, accepted, hw]
    rfl

theorem followsRow_asA1 (k : Operand α) {mk : α → Instr} (ho : f.opc = opc)
    (he : ∀ t, encode (mk t) = wordA1 opc (k.put t) := by intros; rfl)
    (hw : ∀ cfg t, (mk t).wellFormed cfg = k.legal cfg t := by intros; rfl) :
    FollowsRow ⟨opc, .a1, [k.kind]⟩ f (asA1 f k.read mk) where
  opc_eq := ho.symm
  encode_eq h := by
    obtain ⟨t, ht, rfl, hf⟩ := asA1_ok h
    rw [he, hf, ho, k.put_read ht]
  accepted_eq cfg := by
    rw [asA1, accepted_unusedZero, accepted_operand1 k (hw cfg)]
    simp [MapRow.admits, Format.unusedAreZero]

theorem followsRow_asA2 (k : Operand α) (l : Operand β) {mk : α → β → Instr} (ho : f.opc = opc)
    (he : ∀ t u, encode (mk t u) = wordA2 opc (k.put t) (l.put u) := by intros; rfl)
    (hw : ∀ cfg t u, (mk t u).wellFormed cfg = (k.legal cfg t && l.legal cfg u) := by intros; rfl) :
    FollowsRow ⟨opc, .a2, [k.kind, l.kind]⟩ f (asA2 f k.read l.read mk) where
  opc_eq := ho.symm
  encode_eq h := by
    obtain ⟨t, u, ht, hu, rfl, hf⟩ := asA2_ok h
    rw [he, hf, ho, k.put_read ht, l.put_read hu]
  accepted_eq cfg := by
    rw [asA2, accepted_unusedZero, accepted_operand2 k l (hw cfg)]
    simp [MapRow.admits, Format.unusedAreZero]

theorem followsRow_asA3 (k : Operand α) (l : Operand β) (m : Operand γ) {mk : α → β → γ → Instr} (ho : f.opc = opc)
    (he : ∀ t u w, encode (mk t u w) = wordA3 opc (k.put t) (l.put u) (m.put w) := by intros; rfl)
    (hw : ∀ cfg t u w, (mk t u w).wellFormed cfg = (k.legal cfg t && l.legal cfg u && m.legal cfg w) := by
      intros; rfl) :
    FollowsRow ⟨opc, .a3, [k.kind, l.kind, m.kind]⟩ f (asA3 f k.read l.read m.read mk) where
  opc_eq := ho.symm
  encode_eq h := by
    obtain ⟨t, u, w, ht, hu, hv, rfl, hf⟩ := asA3_ok h
    rw [he, hf, ho, k.put_read ht, l.put_read hu, m.put_read hv]
  accepted_eq cfg := by
    rw [asA3, accepted_unusedZero, accepted_operand3 k l m (hw cfg)]
    simp [MapRow.admits, Format.unusedAreZero, Bool.and_assoc]

theorem followsRow_asAI (k : Operand α) {mk : α → Word16 → Instr} (ho : f.opc = opc)
    (he : ∀ t v, encode (mk t v) = wordAI opc (k.put t) v := by intros; rfl)
    (hw : ∀ cfg t v, (mk t v).wellFormed cfg = k.legal cfg t := by intros; rfl) :
    FollowsRow ⟨opc, .ai, [k.kind]⟩ f (asAI f k.read mk) where
  opc_eq := ho.symm
  encode_eq h := by
    obtain ⟨t, ht, rfl, hf⟩ := asAI_ok h
    rw [he, hf, ho, k.put_read ht]
  accepted_eq cfg := by
    rw [asAI, accepted_unusedZero, accepted_operand1 k fun t => hw cfg t f.imm16]
    simp [MapRow.admits, Format.unusedAreZero]

theorem followsRow_asI {mk : Word16 → Instr} (ho : f.opc = opc)
    (he : ∀ v, encode (mk v) = wordI opc v := by intros; rfl)
    (hw : ∀ cfg v, (mk v).wellFormed cfg = true := by intros; rfl) : FollowsRow ⟨opc, .i, []⟩ f (asI f mk) where
  opc_eq := ho.symm
  encode_eq h := by
    obtain ⟨rfl, hf⟩ := asI_ok h
    rw [he, hf, ho]
  accepted_eq cfg := by
    rw [asI, accepted_unusedZero, accepted, hw]
    rfl

theorem followsRow_asAD (k : Operand α) {mk : α → Word32 → Instr} (ho : f.opc = opc)
    (he : ∀ t dw, encode (mk t dw) = wordAD opc (k.put t) dw := by intros; rfl)
    (hw : ∀ cfg t dw, (mk t dw).wellFormed cfg = k.legal cfg t := by intros; rfl) :
    FollowsRow ⟨opc, .ad, [k.kind]⟩ f (asAD f k.read mk) where
  opc_eq := ho.symm
  encode_eq h := by
    obtain ⟨t, ht, rfl, hf⟩ := asAD_ok h
    rw [he, hf, ho, k.put_read ht]
  accepted_eq cfg := by
    rw [asAD, accepted_unusedZero, accepted_operand1 k fun t => hw cfg t f.dw]
    simp [MapRow.admits, Format.unusedAreZero]

theorem followsRow_asAID (k : Operand α) {mk : α → Word16 → Word32 → Instr} (ho : f.opc = opc)
    (he : ∀ t v dw, encode (mk t v dw) = wordAID opc (k.put t) v dw := by intros; rfl)
    (hw : ∀ cfg t v dw, (mk t v dw).wellFormed cfg = k.legal cfg t := by intros; rfl) :
    FollowsRow ⟨opc, .aid, [k.kind]⟩ f (asAID f k.read mk) where
  opc_eq := ho.symm
  encode_eq h := by
    obtain ⟨t, ht, rfl, hf⟩ := asAID_ok h
    rw [he, hf, ho, k.put_read ht]
  accepted_eq cfg := by
    rw [asAID, accepted_operand1 k fun t => hw cfg t f.imm16 f.dw]
    simp [MapRow.admits, Format.unusedAreZero]

end Rows

/-! ### The decoder by the rows of the map -/

/-- The answer `d` to the fields `f`: a rejection where no row has the opcode, and else what the opcode's row
says. -/
def DecodesByMap (f : Fields) (d : Except Reject Instr) : Prop :=
  (d = .error .unknownOpcode ∧ ∀ r ∈ opcodeMap, r.opc ≠ f.opc) ∨ ∃ r ∈ opcodeMap, FollowsRow r f d

theorem of_followsRow {r : MapRow} {f : Fields} {d : Except Reject Instr} (h : FollowsRow r f d)
    (hr : r ∈ opcodeMap := by decide) : DecodesByMap f d := .inr ⟨r, hr, h⟩

/-- R54: the decoder follows the map, row by row in the order of the opcodes; below its rows, no row has the opcode. -/
theorem decodesByMap_decodeFields (f : Fields) : DecodesByMap f (decodeFields f) := by
  unfold decodeFields
  split
  -- 0x00, 0x01: system
  · exact of_followsRow (followsRow_asZ ‹_›)
  · exact of_followsRow (followsRow_asA1 .csr ‹_›)
  -- 0x10 to 0x16: 16-bit network integers
  · exact of_followsRow (followsRow_asAI .halfReg ‹_›)
  · exact of_followsRow (followsRow_asA1 .halfReg ‹_›)
  · exact of_followsRow (followsRow_asA2 .halfReg .cur ‹_›)
  · exact of_followsRow (followsRow_asA2 .halfReg .halfReg ‹_›)
  · exact of_followsRow (followsRow_asA2 .halfReg .halfReg ‹_›)
  · exact of_followsRow (followsRow_asAI .halfReg ‹_›)
  · exact of_followsRow (followsRow_asAI .halfReg ‹_›)
  -- 0x20 to 0x29: 32-bit network integers
  · exact of_followsRow (followsRow_asAD .reg ‹_›)
  · exact of_followsRow (followsRow_asA1 .reg ‹_›)
  · exact of_followsRow (followsRow_asA2 .reg .cur ‹_›)
  · exact of_followsRow (followsRow_asA2 .reg .reg ‹_›)
  · exact of_followsRow (followsRow_asA2 .reg .reg ‹_›)
  · exact of_followsRow (followsRow_asAD .reg ‹_›)
  · exact of_followsRow (followsRow_asAD .reg ‹_›)
  · exact of_followsRow (followsRow_asA1 .reg ‹_›)
  · exact of_followsRow (followsRow_asA2 .reg .reg ‹_›)
  · exact of_followsRow (followsRow_asA2 .reg .reg ‹_›)
  -- 0x30 to 0x34: cursors
  · exact of_followsRow (followsRow_asA2 .cur .buf ‹_›)
  · exact of_followsRow (followsRow_asA1 .cur ‹_›)
  · exact of_followsRow (followsRow_asA1 .cur ‹_›)
  · exact of_followsRow (followsRow_asA1 .cur ‹_›)
  · exact of_followsRow (followsRow_asAI .cur ‹_›)
  -- 0x40 to 0x43: buffers
  · exact of_followsRow (followsRow_asAID .buf ‹_›)
  · exact of_followsRow (followsRow_asA1 .buf ‹_›)
  · exact of_followsRow (followsRow_asA1 .buf ‹_›)
  · exact of_followsRow (followsRow_asAI .buf ‹_›)
  -- 0x50 to 0x55: checksum accumulator
  · exact of_followsRow (followsRow_asZ ‹_›)
  · exact of_followsRow (followsRow_asA1 .halfReg ‹_›)
  · exact of_followsRow (followsRow_asI ‹_›)
  · exact of_followsRow (followsRow_asZ ‹_›)
  · exact of_followsRow (followsRow_asAID .buf ‹_›)
  · exact of_followsRow (followsRow_asAID .cur ‹_›)
  -- 0x60 to 0x68: chains
  · exact of_followsRow (followsRow_asA2 .chain .node ‹_›)
  · exact of_followsRow (followsRow_asA2 .chain .node ‹_›)
  · exact of_followsRow (followsRow_asA3 .chain .node .flag ‹_› (hw := fun _ _ _ _ => (Bool.and_true _).symm))
  · exact of_followsRow (followsRow_asA2 .chain .flag ‹_› (hw := fun _ _ _ => (Bool.and_true _).symm))
  · exact of_followsRow (followsRow_asA1 .chain ‹_›)
  · exact of_followsRow (followsRow_asA2 .chain .node ‹_›)
  · exact of_followsRow (followsRow_asA2 .chain .node ‹_›)
  · exact of_followsRow (followsRow_asA1 .node ‹_›)
  · exact of_followsRow (followsRow_asA1 .chain ‹_›)
  · refine .inl ⟨rfl, ?_⟩
    simp only [opcodeMap, List.cons_append, List.nil_append, List.forall_mem_cons, List.not_mem_nil,
      false_implies, implies_true, and_true, ne_eq, eq_comm (b := f.opc)]
    and_intros <;> assumption

/-- Settles O3: the word is its fields joined, and the row of its opcode has the command written back as them. -/
theorem decodedWordIsItsEncoding : Obligations.DecodedWordIsItsEncoding := by
  intro w i h
  rcases decodesByMap_decodeFields (fieldsOf w) with ⟨he, -⟩ | ⟨r, -, hr⟩
  · exact nomatch h.symm.trans he
  · exact (hr.encode_eq h).trans (wordOf_fieldsOf w)

theorem legal_eq_legalByMap (cfg : Config) (w : Command) : legal cfg w = legalByMap cfg (fieldsOf w) := by
  rw [legal_eq_accepted, decode]
  rcases decodesByMap_decodeFields (fieldsOf w) with ⟨he, hno⟩ | ⟨r, hmem, hr⟩
  · rw [he, legalByMap_of_no_row hno, accepted]
  · rw [hr.accepted_eq, legalByMap_of_row hmem hr.opc_eq]

/-- R172: outside the fault state an illegal word answers `ILLEGAL` and changes nothing else. -/
theorem runWord_of_not_legal {s : Machine.State} {w : Command} (hf : s.fault = 0) (h : legal s.cfg w = false) :
    Machine.runWord w s = .next (s.respond .illegal 0) := by
  rw [legal_eq_accepted] at h
  rcases hd : decode w with e | i
  · rw [Machine.runWord_error hd, Machine.State.refuseWord, if_neg (not_not.mpr hf)]
  · rw [hd] at h
    rw [Machine.runWord_ok hd, Machine.exec_illegal hf h]

/-- Settles O4: the decoder follows the rows of the map (`decodesByMap_decodeFields`), and what they do not admit is
answered `ILLEGAL`. -/
theorem illegalWordsAreThoseOffTheMap : Obligations.IllegalWordsAreThoseOffTheMap :=
  ⟨legal_eq_legalByMap, fun _ _ hf h => runWord_of_not_legal hf h⟩

/-- Settles O1: each word is decoded by computation. -/
theorem workedCommandWordsDecode : Obligations.WorkedCommandWordsDecode :=
  ⟨rfl, rfl, rfl, rfl, rfl, rfl, rfl, rfl, rfl, rfl, rfl, rfl⟩

end Sys2Proof
end

section
/-! PROOFS of the statements of 40_netint.md: the 16-bit and 32-bit network-integer commands and the laws of conversion
(R71 to R88). -/

namespace Sys2Proof.Machine

/-! ### Encodings (R52) -/

theorem putHalfReg_eq_halfField (r : HalfReg) : putHalfReg r = halfField r := by
  obtain ⟨i, h⟩ := r
  cases h with
  | hi => rfl
  | lo => exact congrArg (BitVec.ofNat 8) (Nat.add_comm 8 i.val)

section Encodings

variable (opc b : Byte) (r q : HalfReg)

theorem wordA1_halfField : wordA1 opc (putHalfReg r) = opc ++ halfField r ++ 0#48 := by
  rw [wordA1_eq, putHalfReg_eq_halfField]

theorem wordA2_halfField : wordA2 opc (putHalfReg r) b = opc ++ halfField r ++ b ++ 0#40 := by
  rw [wordA2_eq, putHalfReg_eq_halfField]

theorem wordA2_halfField_halfField :
    wordA2 opc (putHalfReg r) (putHalfReg q) = opc ++ halfField r ++ halfField q ++ 0#40 := by
  rw [wordA2_halfField, putHalfReg_eq_halfField]

theorem wordAI_halfField (v : Word16) : wordAI opc (putHalfReg r) v = opc ++ halfField r ++ v ++ 0#32 := by
  rw [wordAI_eq, putHalfReg_eq_halfField]

end Encodings

/-! ### The ways a network-integer command ends: a response, a register written, a fault -/

/-- A command whose rule only responds `OK` changes the response port alone. -/
theorem exec_report {i : Instr} {s : State} {res res' : Word32} (hf : s.fault = 0) (hw : i.wellFormed s.cfg = true)
    (hrule : ownRule i s = s.respond .ok res) (hres : res = res') :
    exec i s = .next { s with resp := some ⟨0x00, res'⟩ } := by
  rw [exec_run hf hw, hrule, hres]
  rfl

/-- A command whose rule writes one NI register changes the response port and that register alone. -/
theorem exec_write {i : Instr} {s : State} {r : Reg} {n : NetInt} (hf : s.fault = 0) (hw : i.wellFormed s.cfg = true)
    (hrule : ownRule i s = (s.setReg r n).respond .ok 0) :
    exec i s = .next { s with regs := s.regs.set r.val n r.isLt, resp := some ⟨0x00, 0⟩ } := by
  rw [exec_run hf hw, hrule]
  rfl

/-- A command whose rule raises a fault changes the response port and `FAULT` alone (R163). -/
theorem exec_raise {i : Instr} {s : State} {e : Cause} (hf : s.fault = 0) (hw : i.wellFormed s.cfg = true)
    (hrule : ownRule i s = s.raise e) :
    exec i s = .next { s with fault := e.code, resp := some ⟨0xF0, e.code.setWidth 32⟩ } := by
  rw [exec_run hf hw, hrule]
  rfl

/-! ### Sequences of commands -/

theorem commands_cons_run {i : Instr} {s : State} (rest : List Instr) (hf : s.fault = 0)
    (hw : i.wellFormed s.cfg = true) : commands (i :: rest) s = commands rest (ownRule i s) := by
  rw [commands, exec_run hf hw]

/-- A sequence that comes to a last command whose rule only responds `OK` ends with that response. -/
theorem commands_report {i : Instr} {s : State} {res res' : Word32} (hf : s.fault = 0)
    (hw : i.wellFormed s.cfg = true) (hrule : ownRule i s = s.respond .ok res) (hres : res = res') :
    ∃ t, commands [i] s = some t ∧ t.resp = some ⟨0x00, res'⟩ := by
  refine ⟨s.respond .ok res', ?_, rfl⟩
  rw [commands_cons_run [] hf hw, hrule, hres, commands]

/-! ### Comparisons (R57): the truth of a decidable statement and of its negation -/

theorem truth_eq_ite {t : Bool} {p : Prop} [Decidable p] (h : t = decide p) : truth t = if p then 1 else 0 := by
  subst h
  by_cases hp : p <;> simp [truth, hp]

theorem truth_not_eq_ite {t : Bool} {p : Prop} [Decidable p] (h : t = decide p) :
    truth (!t) = if p then 0 else 1 := by
  subst h
  by_cases hp : p <;> simp [truth, hp]

/-- Settles O26: `NI16.EQ` and `NI16.NE` respond with the truth of `halvesEqual_eq` and of its negation. -/
theorem ni16EqAndNeCompareBytes : Obligations.Ni16EqAndNeCompareBytes := by
  refine ⟨fun r q => ⟨wordA2_halfField_halfField _ r q, wordA2_halfField_halfField _ r q⟩, fun i s => ⟨rfl, rfl⟩,
    fun r q s hf => ⟨?_, ?_⟩⟩
  · exact exec_report hf rfl rfl (truth_eq_ite (s.halvesEqual_eq r q))
  · exact exec_report hf rfl rfl (truth_not_eq_ite (s.halvesEqual_eq r q))

/-- Settles O27: the truth of `halfEquals_eq`, packing the immediate keeping its number, and of its negation. -/
theorem ni16EqiAndNeiCompareWithANumber : Obligations.Ni16EqiAndNeiCompareWithANumber := by
  refine ⟨fun r v => ⟨wordAI_halfField _ r v, wordAI_halfField _ r v⟩, fun r v s hf => ⟨?_, ?_⟩⟩
  · exact exec_report hf rfl rfl (truth_eq_ite (s.halfEquals_eq r v))
  · exact exec_report hf rfl rfl (truth_not_eq_ite (s.halfEquals_eq r v))

/-- Settles O31: the truth of `NetInt.equals_eq` and of its negation. -/
theorem ni32EqAndNeCompareBytes : Obligations.Ni32EqAndNeCompareBytes := by
  refine ⟨fun r q => ⟨wordA2_eq _ _ _, wordA2_eq _ _ _⟩, fun r q s hf => ⟨?_, ?_⟩⟩
  · exact exec_report hf rfl rfl (truth_eq_ite (NetInt.equals_eq (s.reg r) (s.reg q)))
  · exact exec_report hf rfl rfl (truth_not_eq_ite (NetInt.equals_eq (s.reg r) (s.reg q)))

/-- Settles O32: the truth of `NetInt.equals_pack32`, packing the immediate keeping its number, and of its
negation. -/
theorem ni32EqiAndNeiCompareWithANumber : Obligations.Ni32EqiAndNeiCompareWithANumber := by
  refine ⟨fun r v => ⟨wordAD_eq _ _ v, wordAD_eq _ _ v⟩, fun r v s hf => ⟨?_, ?_⟩⟩
  · exact exec_report hf rfl rfl (truth_eq_ite (NetInt.equals_pack32 (s.reg r) v))
  · exact exec_report hf rfl rfl (truth_not_eq_ite (NetInt.equals_pack32 (s.reg r) v))

/-- Settles O35: the truth of `NetInt.lessThan_eq`, the first differing byte from the top deciding the order of the
numbers. -/
theorem ni32LtIsTheUnsignedOrder : Obligations.Ni32LtIsTheUnsignedOrder := by
  refine ⟨fun r q => wordA2_eq _ _ _, fun r q s hf => ?_⟩
  exact exec_report hf rfl rfl (truth_eq_ite (NetInt.lessThan_eq (s.reg r) (s.reg q)))

/-! ### Arithmetic (R85, R86) -/

theorem NetInt.zero_value : (⟨0, 0, 0, 0⟩ : NetInt).value = 0 := rfl

/-- Settles O33: the byte loop started with carry 1 over zero bytes adds 1 (`NetInt.addCarry_value`). -/
theorem ni32IncAddsOneModuloTheWord : Obligations.Ni32IncAddsOneModuloTheWord := by
  refine ⟨fun r => wordA1_eq _ _, fun r s hf => ⟨_, exec_write hf rfl rfl, ?_⟩⟩
  rw [NetInt.addCarry_value, NetInt.zero_value, Nat.add_zero]

/-- Settles O34: the byte loop started with carry 0 adds the values before the command (`NetInt.addCarry_value`). -/
theorem ni32AddAddsModuloTheWord : Obligations.Ni32AddAddsModuloTheWord := by
  refine ⟨fun r q => wordA2_eq _ _ _, fun r q s hf => ⟨_, exec_write hf rfl rfl, ?_⟩⟩
  rw [NetInt.addCarry_value, Nat.add_zero]

/-! ### Conversion (R71, R72, R78, R79, R88) -/

theorem unpack16_setWidth (x : Byte × Byte) : (unpack16 x).setWidth 32 = BitVec.ofNat 32 (pairValue x) := by
  rw [← unpack16_toNat, BitVec.ofNat_toNat]

theorem unpack32_eq_ofNat_value (n : NetInt) : unpack32 n = BitVec.ofNat 32 n.value := by
  rw [← unpack32_toNat, BitVec.ofNat_toNat, BitVec.setWidth_eq]

theorem NetInt.half_withHalf (n : NetInt) (x : Byte × Byte) (h : Half) : (n.withHalf x h).half h = x := by
  cases h <;> rfl

theorem State.half_setHalf (s : State) (r : HalfReg) (x : Byte × Byte) : (s.setHalf r x).half r = x := by
  rw [State.half, State.setHalf, State.reg_setReg, if_pos rfl, NetInt.half_withHalf]

/-- A register is its halves, the upper half first. -/
theorem NetInt.value_eq_halves (n : NetInt) : n.value = pairValue (n.half .hi) * 65536 + pairValue (n.half .lo) := by
  simp only [NetInt.value, pairValue, NetInt.half]
  omega

/-- R88: the upper half of a packed number is its upper 16 bits. -/
theorem unpack16_pack32_hi (v : Word32) : unpack16 ((pack32 v).half .hi) = v.extractLsb' 16 16 := by
  have hv : (pack32 v).value = v.toNat := pack32_value v
  have hlo := pairValue_lt ((pack32 v).half .lo)
  have hhi := pairValue_lt ((pack32 v).half .hi)
  rw [NetInt.value_eq_halves] at hv
  apply BitVec.eq_of_toNat_eq
  rw [unpack16_toNat, BitVec.extractLsb'_toNat, Nat.shiftRight_eq_div_pow]
  omega

/-- R88: the lower half of a packed number is its lower 16 bits. -/
theorem unpack16_pack32_lo (v : Word32) : unpack16 ((pack32 v).half .lo) = v.extractLsb' 0 16 := by
  have hv : (pack32 v).value = v.toNat := pack32_value v
  have hlo := pairValue_lt ((pack32 v).half .lo)
  rw [NetInt.value_eq_halves] at hv
  apply BitVec.eq_of_toNat_eq
  rw [unpack16_toNat, BitVec.extractLsb'_toNat, Nat.shiftRight_eq_div_pow]
  omega

/-- R88: a register whose two halves were set to numbers holds the two numbers joined. -/
theorem unpack32_withHalf_withHalf (n : NetInt) (a b : Word16) :
    unpack32 ((n.withHalf (pack16 a) .hi).withHalf (pack16 b) .lo)
      = BitVec.ofNat 32 (a.toNat * 65536 + b.toNat) := by
  rw [unpack32_eq_ofNat_value, NetInt.value_eq_halves, NetInt.half_withHalf, pack16_value]
  exact congrArg (fun x => BitVec.ofNat 32 (x * 65536 + b.toNat)) (pack16_value a)

section RoundTrips

variable {s : State} (hf : s.fault = 0)

include hf

/-- R72: `NI16.GET` after `NI16.SET` of the half. -/
theorem ni16Set_ni16Get (r : HalfReg) (v : Word16) :
    ∃ t, commands [.ni16Set r v, .ni16Get r] s = some t ∧ t.resp = some ⟨0x00, v.setWidth 32⟩ := by
  have hread : unpack16 ((s.setHalf r (pack16 v)).half r) = v := by rw [State.half_setHalf, unpack16_pack16]
  rw [commands_cons_run _ hf rfl]
  exact commands_report hf rfl rfl (congrArg (BitVec.setWidth 32) hread)

/-- R79: `NI32.GET` after `NI32.SET` of the register. -/
theorem ni32Set_ni32Get (r : Reg) (v : Word32) :
    ∃ t, commands [.ni32Set r v, .ni32Get r] s = some t ∧ t.resp = some ⟨0x00, v⟩ := by
  have hread : unpack32 ((s.setReg r (pack32 v)).reg r) = v := by
    rw [State.reg_setReg, if_pos rfl, unpack32_pack32]
  rw [commands_cons_run _ hf rfl]
  exact commands_report hf rfl rfl hread

/-- R88: `NI16.GET` of either half after `NI32.SET` of the register. -/
theorem ni32Set_ni16Get (r : Reg) (v : Word32) (h : Half) :
    ∃ t, commands [.ni32Set r v, .ni16Get ⟨r, h⟩] s = some t
      ∧ t.resp = some ⟨0x00, (unpack16 ((pack32 v).half h)).setWidth 32⟩ := by
  have hread : (s.setReg r (pack32 v)).half ⟨r, h⟩ = (pack32 v).half h := by
    rw [State.half, State.reg_setReg, if_pos rfl]
  rw [commands_cons_run _ hf rfl]
  exact commands_report hf rfl rfl (congrArg (fun x => (unpack16 x).setWidth 32) hread)

/-- R88: `NI32.GET` after `NI16.SET` of both halves. -/
theorem ni16Set_ni16Set_ni32Get (r : Reg) (a b : Word16) :
    ∃ t, commands [.ni16Set ⟨r, .hi⟩ a, .ni16Set ⟨r, .lo⟩ b, .ni32Get r] s = some t
      ∧ t.resp = some ⟨0x00, BitVec.ofNat 32 (a.toNat * 65536 + b.toNat)⟩ := by
  have hread : ((s.setHalf ⟨r, .hi⟩ (pack16 a)).setHalf ⟨r, .lo⟩ (pack16 b)).reg r
      = ((s.reg r).withHalf (pack16 a) .hi).withHalf (pack16 b) .lo := by
    simp only [State.setHalf, State.reg_setReg, if_true]
  have hf' : (ownRule (.ni16Set ⟨r, .hi⟩ a) s).fault = 0 := hf
  rw [commands_cons_run _ hf rfl, commands_cons_run _ hf' rfl]
  exact commands_report hf rfl rfl
    ((congrArg unpack32 hread).trans (unpack32_withHalf_withHalf (s.reg r) a b))

end RoundTrips

/-- Settles O36: one lemma per law, the halves of a packed number being its upper and lower 16 bits. -/
theorem conversionRoundTrips : Obligations.ConversionRoundTrips := by
  intro s hf
  refine ⟨ni16Set_ni16Get hf, ni32Set_ni32Get hf, fun r v => ?_, fun r v => ?_, ni16Set_ni16Set_ni32Get hf⟩
  · rw [← unpack16_pack32_hi]
    exact ni32Set_ni16Get hf r v .hi
  · rw [← unpack16_pack32_lo]
    exact ni32Set_ni16Get hf r v .lo

/-- Settles O23: the rule writes the register with one half replaced. -/
theorem ni16SetPacksIntoOneHalf : Obligations.Ni16SetPacksIntoOneHalf :=
  ⟨fun r v => wordAI_halfField _ r v, fun _ _ _ hf => ⟨exec_write hf rfl rfl, exec_write hf rfl rfl⟩⟩

/-- Settles O24: the half as a number (`unpack16_setWidth`), and the round trip of R72. -/
theorem ni16GetReadsOneHalf : Obligations.Ni16GetReadsOneHalf := by
  refine ⟨fun r => wordA1_halfField _ r, fun i s hf => ⟨?_, ?_, fun h v => ni16Set_ni16Get hf ⟨i, h⟩ v⟩⟩
  · exact exec_report hf rfl rfl (unpack16_setWidth (s.half ⟨i, .hi⟩))
  · exact exec_report hf rfl rfl (unpack16_setWidth (s.half ⟨i, .lo⟩))

/-- Settles O28: the rule writes the packed immediate. -/
theorem ni32SetPacksFourBytes : Obligations.Ni32SetPacksFourBytes :=
  ⟨fun _ v => wordAD_eq _ _ v, fun _ _ _ hf => exec_write hf rfl rfl⟩

/-- Settles O29: the register as a number (`unpack32_eq_ofNat_value`), and the round trip of R79. -/
theorem ni32GetReadsTheValue : Obligations.Ni32GetReadsTheValue := by
  refine ⟨fun r => wordA1_eq _ _, fun r s hf => ⟨?_, ni32Set_ni32Get hf r⟩⟩
  exact exec_report hf rfl rfl (unpack32_eq_ofNat_value (s.reg r))

/-! ### Loads through a cursor (R73, R80) -/

/-- A byte of the valid prefix. -/
theorem State.data_getElem?_of_lt {s : State} {b i : Nat} (h : i < s.len b) :
    (s.buffer b).data[i]? = some ((s.buffer b).data.getD i 0) := by
  rw [List.getElem?_eq_getElem h, List.getD_eq_getElem _ _ h]

/-- Settles O25: the hypotheses of each clause select one of the three answers of `loadHalf_cases`. -/
theorem ni16LdCopiesTwoBytes : Obligations.Ni16LdCopiesTwoBytes := by
  refine ⟨fun r _ => wordA2_halfField _ _ r,
    fun i c s hf => ⟨fun hover h => ?_, fun hin hstale h => ?_, fun hin hvalid => ?_⟩⟩
  · obtain ⟨-, hrule⟩ := (loadHalf_cases ⟨i, h⟩ c s).resolve_right (by omega)
    exact exec_raise (e := .curShortRead) hf rfl hrule
  · obtain ⟨-, -, hrule⟩ := ((loadHalf_cases ⟨i, h⟩ c s).resolve_left (by omega)).resolve_right (by omega)
    exact exec_raise (e := .curStale) hf rfl hrule
  · have hrule (h : Half) := ((loadHalf_cases ⟨i, h⟩ c s).resolve_left (by omega)).resolve_left (by omega)
    obtain ⟨-, -, hhi⟩ := hrule .hi
    obtain ⟨-, -, hlo⟩ := hrule .lo
    exact ⟨_, _, State.data_getElem?_of_lt (by omega), State.data_getElem?_of_lt (by omega),
      exec_write hf rfl hhi, exec_write hf rfl hlo⟩

/-- Settles O30: the hypotheses of each clause select one of the three answers of `loadReg_cases`. -/
theorem ni32LdCopiesFourBytes : Obligations.Ni32LdCopiesFourBytes := by
  refine ⟨fun r c => wordA2_eq _ _ _, fun r c s hf => ⟨fun hover => ?_, fun hin hstale => ?_, fun hin hvalid => ?_⟩⟩
  · obtain ⟨-, hrule⟩ := (loadReg_cases r c s).resolve_right (by omega)
    exact exec_raise (e := .curShortRead) hf rfl hrule
  · obtain ⟨-, -, hrule⟩ := ((loadReg_cases r c s).resolve_left (by omega)).resolve_right (by omega)
    exact exec_raise (e := .curStale) hf rfl hrule
  · obtain ⟨-, -, hrule⟩ := ((loadReg_cases r c s).resolve_left (by omega)).resolve_left (by omega)
    exact ⟨_, _, _, _, State.data_getElem?_of_lt (by omega), State.data_getElem?_of_lt (by omega),
      State.data_getElem?_of_lt (by omega), State.data_getElem?_of_lt (by omega), exec_write hf rfl hrule⟩

end Sys2Proof.Machine
end

section
/-! PROOFS of the statements of 41_cursor.md: opening a cursor, what remains of it, the byte at it, and its move forward
(R97 to R101). -/

namespace Sys2Proof.Machine

/-- A command whose rule writes one cursor changes the response port and that cursor alone. -/
theorem exec_writeCur {i : Instr} {s : State} {c : Cur} {v : Cursor} (hf : s.fault = 0)
    (hw : i.wellFormed s.cfg = true) (hrule : ownRule i s = (s.setCur c v).respond .ok 0) :
    exec i s = .next { s with curs := s.curs.set c.val v c.isLt, resp := some ⟨0x00, 0⟩ } := by
  rw [exec_run hf hw, hrule]
  rfl

/-- Settles O37: the rule of `CUR.OPEN` writes the cursor, the rule of `CUR.REM` only responds. -/
theorem curOpenSpansTheBufferAndCurRemCounts : Obligations.CurOpenSpansTheBufferAndCurRemCounts :=
  ⟨fun _ _ => wordA2_eq _ _ _, fun _ => wordA1_eq _ _,
    fun _ _ _ hf hb => exec_writeCur hf (decide_eq_true hb) rfl, fun _ _ hf => exec_report hf rfl rfl rfl⟩

/-- Settles O38: the hypotheses of each clause select one of the three answers of `peek_cases`. -/
theorem curPeekReturnsTheByteOrFaults : Obligations.CurPeekReturnsTheByteOrFaults := by
  refine ⟨fun c => wordA1_eq _ _, fun c s hf => ⟨fun hempty => ?_, fun hin hstale => ?_, fun hin hvalid => ?_⟩⟩
  · obtain ⟨-, hrule⟩ := (peek_cases c s).resolve_right (by omega)
    exact exec_raise (e := .curEmptyDeref) hf rfl hrule
  · obtain ⟨-, -, hrule⟩ := ((peek_cases c s).resolve_left (by omega)).resolve_right (by omega)
    exact exec_raise (e := .curStale) hf rfl hrule
  · obtain ⟨-, -, hrule⟩ := ((peek_cases c s).resolve_left (by omega)).resolve_left (by omega)
    exact ⟨_, State.data_getElem?_of_lt hvalid, exec_report hf rfl hrule rfl⟩

/-! ### Moving forward (R100, R101) -/

section Advance

variable {i : Instr} {c : Cur} {n : Nat} {s : State} (hf : s.fault = 0) (hw : i.wellFormed s.cfg = true)
  (hrule : ownRule i = advance c n)

include hf hw hrule

/-- A move beyond the end faults and moves nothing. -/
theorem exec_advance_overrun (hover : (s.cur c).pos + n > (s.cur c).stop) :
    exec i s = .next { s with fault := 0x01, resp := some ⟨0xF0, 0x01⟩ } := by
  obtain ⟨-, hraise⟩ := (advance_cases c n s).resolve_right (by omega)
  exact exec_raise (e := .curOverrun) hf hw ((congrFun hrule s).trans hraise)

/-- A move up to the end adds `n` to `pos` and leaves the other fields of the cursor. -/
theorem exec_advance_move (hin : (s.cur c).pos + n ≤ (s.cur c).stop) :
    exec i s = .next { s with
      curs := s.curs.set c.val { s.cur c with pos := (s.cur c).pos + n } c.isLt, resp := some ⟨0x00, 0⟩ } := by
  obtain ⟨-, hmove⟩ := (advance_cases c n s).resolve_left (by omega)
  exact exec_writeCur hf hw ((congrFun hrule s).trans hmove)

end Advance

/-- `CUR.INC` is `CUR.ADV` by 1, in the fault state too. -/
theorem exec_curInc_eq_exec_curAdv_one (c : Cur) (s : State) : exec (.curInc c) s = exec (.curAdv c 1) s := rfl

/-- Settles O39: both commands run `advance`, by 1 and by the immediate. -/
theorem curIncAndAdvMoveForward : Obligations.CurIncAndAdvMoveForward :=
  ⟨fun _ => wordA1_eq _ _, fun _ n => wordAI_eq _ _ n, exec_curInc_eq_exec_curAdv_one,
    fun _ _ hf => ⟨exec_advance_overrun hf rfl rfl, exec_advance_move hf rfl rfl⟩,
    fun _ _ _ hf => ⟨exec_advance_overrun hf rfl rfl, exec_advance_move hf rfl rfl⟩⟩

end Sys2Proof.Machine
end

section
/-! PROOFS of the statements of 42_buffer.md: appending to a buffer, emptying it, its length and its bytes (R105 to
R109). -/

namespace Sys2Proof.Machine

/-! ### The ways a buffer command ends: a response, the bytes of one buffer written -/

/-- A command whose rule only responds, with any status, changes the response port alone. -/
theorem exec_respond {i : Instr} {s : State} {st : Status} {res : Word32} (hf : s.fault = 0)
    (hw : i.wellFormed s.cfg = true) (hrule : ownRule i s = s.respond st res) :
    exec i s = .next { s with resp := some ⟨st.code, res⟩ } := by
  rw [exec_run hf hw, hrule]
  rfl

/-- A command whose rule writes the bytes of one buffer changes the response port and that object alone, and of the
object not its link. -/
theorem exec_writeData {i : Instr} {s : State} {b : Nat} {B : Buffer} {d : List Byte} (hf : s.fault = 0)
    (hw : i.wellFormed s.cfg = true) (hB : s.bufs[b]? = some B) (hrule : ownRule i s = (s.setData b d).respond .ok 0) :
    exec i s = .next { s with bufs := s.bufs.set b { B with data := d }, resp := some ⟨0x00, 0⟩ } := by
  rw [exec_run hf hw, hrule, ← s.buffer_of_getElem? hB]
  rfl

theorem State.len_of_getElem? {s : State} {b : Nat} {B : Buffer} (h : s.bufs[b]? = some B) :
    s.len b = B.data.length := by
  rw [State.len, s.buffer_of_getElem? h]

/-! ### The commands of the family -/

/-- Settles O40: the hypotheses of each clause select one of the four answers of `appendBytes_cases`; in the last the
bytes are the old ones followed by those of `readSrc`. -/
theorem bufAppendCopiesOrChangesNothing : Obligations.BufAppendCopiesOrChangesNothing := by
  refine ⟨fun b n a => wordAID_eq _ _ n a, fun b n a s B hf hb hB => ?_⟩
  have hw : (Instr.bufAppend b n a).wellFormed s.cfg = true := decide_eq_true hb
  have hcases := appendBytes_cases b n a s
  rw [State.len_of_getElem? hB, s.buffer_of_getElem? hB, Config.capacity] at hcases
  refine ⟨fun ha => ?_, fun ha hn => ?_, fun ha hn hover => ?_, fun ha hn hfit => ?_⟩
  · obtain ⟨-, hrule⟩ := hcases.resolve_right (by tauto)
    exact exec_respond (st := .noopNull) hf hw hrule
  · obtain ⟨-, -, hrule⟩ := (hcases.resolve_left fun h => ha h.1).resolve_right (by tauto)
    exact exec_respond (st := .noopZero) hf hw hrule
  · have hlast := (hcases.resolve_left fun h => ha h.1).resolve_left fun h => hn h.2.1
    obtain ⟨-, -, -, hrule⟩ := hlast.resolve_right (by omega)
    exact exec_respond (st := .noopOverflow) hf hw hrule
  · have hlast := (hcases.resolve_left fun h => ha h.1).resolve_left fun h => hn h.2.1
    obtain ⟨-, -, -, hrule⟩ := hlast.resolve_left (by omega)
    refine ⟨_, exec_writeData hf hw hB hrule, ?_, fun i hi => ?_, fun i hi => ?_⟩
    · rw [List.length_append, readSrc_length]
    · exact List.getElem?_append_left hi
    · rw [List.getElem?_append_right (Nat.le_add_right _ i), Nat.add_sub_cancel_left, readSrc_getElem? _ _ _ _ hi]

/-- Settles O41: the rule of `BUF.CLEAR` writes the empty prefix, the rule of `BUF.LEN` only responds. -/
theorem bufClearEmptiesAndBufLenCounts : Obligations.BufClearEmptiesAndBufLenCounts := by
  refine ⟨fun b => ⟨wordA1_eq _ _, wordA1_eq _ _⟩, fun b s B hf hb hB => ⟨?_, ?_⟩⟩
  · exact exec_writeData hf (decide_eq_true hb) hB rfl
  · exact exec_report hf (decide_eq_true hb) rfl (congrArg (BitVec.ofNat 32) (State.len_of_getElem? hB))

/-- Settles O42: the hypothesis of each clause selects one of the two answers of `readByteAt_cases`. -/
theorem bufRdbReadsTheValidPrefix : Obligations.BufRdbReadsTheValidPrefix := by
  refine ⟨fun b idx => wordAI_eq _ _ idx, fun b idx s B hf hb hB => ?_⟩
  have hw : (Instr.bufRdb b idx).wellFormed s.cfg = true := decide_eq_true hb
  rw [← s.buffer_of_getElem? hB]
  refine ⟨fun hout => ?_, fun hin => ?_⟩
  · obtain ⟨-, hrule⟩ := (readByteAt_cases b idx s).resolve_right fun ⟨hlt, _⟩ => Nat.not_lt.mpr hout hlt
    exact exec_respond (st := .noopRange) hf hw hrule
  · obtain ⟨-, hrule⟩ := (readByteAt_cases b idx s).resolve_left fun ⟨hle, _⟩ => Nat.not_le.mpr hin hle
    exact ⟨_, State.data_getElem?_of_lt hin, exec_report hf hw hrule rfl⟩

/-! ### Only these commands change the valid prefix (R109) -/

/-- A command that changes the bytes of a buffer is one that writes them, and leaves there the bytes that it writes. -/
theorem writesData_of_data_ne {i : Instr} {s t : State} {b : Nat} (h : exec i s = .next t)
    (hne : (t.buffer b).data ≠ (s.buffer b).data) : WritesData s b (t.buffer b).data i := by
  rcases exec_observed (fun s => (s.buffer b).data) (fun _ _ _ => rfl) (fun _ _ => rfl) h with e | ⟨u, hu, e⟩
  · exact absurd e hne
  · rw [show (t.buffer b).data = (u.buffer b).data from e] at hne ⊢
    cases hu with
    | data b' d w =>
      rw [State.setData_data] at hne ⊢
      split at hne
      · next hb => rw [if_pos hb, hb.1]; exact w
      · exact absurd rfl hne
    | links w r => exact absurd (r.data b) hne
    | nothing | reg | cur | sum => exact absurd rfl hne

/-- A `BUF.APPEND` that changes the bytes of some buffer was accepted. -/
theorem bufAppend_resp_of_data_ne {b m : Nat} {n : Word16} {a : Word32} {s t : State}
    (h : exec (.bufAppend b n a) s = .next t) (hne : (t.buffer m).data ≠ (s.buffer m).data) :
    t.resp = some ⟨0x00, 0⟩ := by
  have hresponds {st : Status} {res : Word32} (e : t = s.respond st res) : t.resp = some ⟨0x00, 0⟩ :=
    absurd (by rw [e]; rfl) hne
  rcases exec_next h with ⟨-, -, e⟩ | ⟨-, -, e⟩ | ⟨-, -, e⟩
  · exact hresponds e
  · exact hresponds e
  · rcases appendBytes_cases b n a s with ⟨-, e'⟩ | ⟨-, -, e'⟩ | ⟨-, -, -, e'⟩ | ⟨-, -, -, e'⟩
    · exact hresponds (e.trans e')
    · exact hresponds (e.trans e')
    · exact hresponds (e.trans e')
    · rw [e.trans e']
      rfl

/-- Settles O22: of the pieces an effect can write one is the bytes of a buffer (`writesData_of_data_ne`), and an append
writes the old bytes first. -/
theorem onlyAppendAndClearChangeBufferContents : Obligations.OnlyAppendAndClearChangeBufferContents := by
  intro i s t b h hne
  obtain ⟨n, a, rfl, hd⟩ | ⟨rfl, hd⟩ := writesData_of_data_ne h hne
  · refine .inl ⟨n, a, rfl, bufAppend_resp_of_data_ne h hne, ?_, fun x hx => ?_⟩
    · rw [State.len, hd, List.length_append, readSrc_length, State.len]
    · rw [hd, List.getElem?_append_left hx]
  · exact .inr ⟨rfl, congrArg List.length hd⟩

end Sys2Proof.Machine
end

section
/-! PROOFS of the statements of 43_checksum.md: the accumulator, its fold and the checksum, the sums over ranges, and
the properties of the checksum (R115 to R122). -/

namespace Sys2Proof.Machine

/-- A command whose rule writes `SUM` changes the response port and `SUM` alone. -/
theorem exec_writeSum {i : Instr} {s : State} {v v' res res' : Word32} (hf : s.fault = 0)
    (hw : i.wellFormed s.cfg = true) (hrule : ownRule i s = (s.setSum v).respond .ok res) (hv : v = v')
    (hres : res = res') : exec i s = .next { s with sum := v', resp := some ⟨0x00, res'⟩ } := by
  rw [exec_run hf hw, hrule, hv, hres]
  rfl

/-- A sequence goes on from the state after its first command. -/
theorem commands_cons {i : Instr} {s t : State} (rest : List Instr) (h : exec i s = .next t) :
    commands (i :: rest) s = commands rest t := by
  rw [commands, h]

/-! ### Accumulation (R115 to R117) -/

/-- Settles O43: accumulation is addition of the numbers modulo `2^32` (`accumulate_eq`). -/
theorem accumulatorClearsAndAccumulates : Obligations.AccumulatorClearsAndAccumulates := by
  refine ⟨⟨wordZ_eq _, fun r => wordA1_halfField _ r, fun w => wordI_eq _ w⟩,
    fun s hf => ⟨exec_writeSum hf rfl rfl rfl rfl, fun w => ?_, fun r => ?_⟩⟩
  · exact exec_writeSum hf rfl rfl (accumulate_eq s.sum w) rfl
  · have hsum := accumulate_eq s.sum (unpack16 (s.half r))
    rw [unpack16_toNat] at hsum
    exact exec_writeSum hf rfl rfl hsum rfl

theorem ofNat_toNat_ofNat_add (m n : Nat) :
    BitVec.ofNat 32 ((BitVec.ofNat 32 m).toNat + n) = BitVec.ofNat 32 (m + n) := by
  rw [BitVec.ofNat_add, BitVec.ofNat_toNat, BitVec.setWidth_eq, BitVec.ofNat_add]

/-- R116: a list of `CS.ACCI` adds the sum of its words before the rest of the sequence runs. -/
theorem commands_csAcci (ws : List Word16) (rest : List Instr) {s : State} (hf : s.fault = 0) :
    commands (ws.map .csAcci ++ rest) s = commands rest { s with
      sum := BitVec.ofNat 32 (s.sum.toNat + (ws.map BitVec.toNat).sum)
      resp := if ws = [] then s.resp else some ⟨0x00, 0⟩ } := by
  induction ws generalizing s with
  | nil => simp
  | cons w ws ih =>
    have hstep : ownRule (.csAcci w) s = { s with
        sum := BitVec.ofNat 32 (s.sum.toNat + w.toNat), resp := some ⟨0x00, 0⟩ } := by
      rw [← accumulate_eq]
      rfl
    rw [List.map_cons, List.cons_append, commands_cons_run _ hf rfl, hstep, ih]
    · simp only [ofNat_toNat_ofNat_add, List.map_cons, List.sum_cons, Nat.add_assoc, ite_self, reduceCtorEq, if_false]
    · exact hf

/-! ### The fold (R118) -/

theorem foldPass_of_lt {s : Word32} (h : s.toNat < 65536) : foldPass s = s := by
  apply BitVec.eq_of_toNat_eq
  rw [foldPass_toNat]
  omega

/-- A pass over a number of 16 bits changes nothing, so the loop may as well make every pass. -/
theorem foldLoop_succ (k : Nat) (s : Word32) : foldLoop (k + 1) s = foldLoop k (foldPass s) := by
  rw [foldLoop]
  split
  · next h =>
    have hlt : s.toNat < 65536 := (upperHalf_zero s).mp h
    rw [foldPass_of_lt hlt]
    cases k with
    | zero => rfl
    | succ k => rw [foldLoop, if_pos h]
  · rfl

/-- The fold as a number: two passes. -/
theorem fold_toNat (s : Word32) :
    (fold s).toNat = (s.toNat % 65536 + s.toNat / 65536) % 65536 + (s.toNat % 65536 + s.toNat / 65536) / 65536 := by
  rw [fold, foldLoop_succ, foldLoop_succ, foldLoop, foldPass_toNat, foldPass_toNat]

theorem fold_le (s : Word32) : (fold s).toNat ≤ 0xFFFF := by
  have := s.isLt
  rw [fold_toNat]
  omega

theorem fold_mod (s : Word32) : (fold s).toNat % 65535 = s.toNat % 65535 := by
  rw [fold_toNat]
  omega

theorem fold_toNat_eq_zero_iff (s : Word32) : (fold s).toNat = 0 ↔ s.toNat = 0 := by
  rw [fold_toNat]
  omega

/-- The residue modulo 65535 and the zero case determine the fold. -/
theorem fold_eq_fold {s t : Word32} (hmod : s.toNat % 65535 = t.toNat % 65535) (hzero : s.toNat = 0 ↔ t.toNat = 0) :
    fold s = fold t := by
  have hs := fold_mod s; have ht := fold_mod t
  have hs0 := fold_toNat_eq_zero_iff s; have ht0 := fold_toNat_eq_zero_iff t
  have hsle := fold_le s; have htle := fold_le t
  apply BitVec.eq_of_toNat_eq
  omega

theorem fold_fold (s : Word32) : fold (fold s) = fold s := fold_eq_fold (fold_mod s) (fold_toNat_eq_zero_iff s)

theorem fold_of_le {s : Word32} (h : s.toNat ≤ 0xFFFF) : fold s = s := by
  apply BitVec.eq_of_toNat_eq
  rw [fold_toNat]
  omega

/-- Settles O44: the fold is two passes (`fold_toNat`), and a pass keeps the residue and the zero case. -/
theorem foldIsTheResidueModulo65535 : Obligations.FoldIsTheResidueModulo65535 := by
  intro s
  have hlt := s.isLt
  refine ⟨fold_of_le, fun _ => ?_, fun p hp => ⟨by omega, hp ▸ fold_toNat s⟩, fold_le s, fold_mod s, ?_, fold_fold s⟩
  · rw [← foldPass_toNat, BitVec.ofNat_toNat, BitVec.setWidth_eq]
    apply fold_eq_fold <;> rw [foldPass_toNat] <;> omega
  · rw [← BitVec.toNat_inj, ← BitVec.toNat_inj]
    exact fold_toNat_eq_zero_iff s

/-! ### The checksum (R119) -/

/-- The 16-bit complement of a fold is its distance from `0xFFFF`. -/
theorem complement_fold (s : Word32) :
    (~~~((fold s).extractLsb' 0 16)).setWidth 32 = BitVec.ofNat 32 (0xFFFF - (fold s).toNat) := by
  have hle := fold_le s
  apply BitVec.eq_of_toNat_eq
  rw [BitVec.toNat_setWidth, BitVec.toNat_not, BitVec.extractLsb'_toNat, BitVec.toNat_ofNat, Nat.shiftRight_zero,
    Nat.mod_eq_of_lt (a := (fold s).toNat) (by omega)]

/-- The effect of `CS.SUM`, before the rest of the sequence runs. -/
theorem commands_csSum (rest : List Instr) {s : State} (hf : s.fault = 0) :
    commands (.csSum :: rest) s = commands rest { s with
      sum := fold s.sum, resp := some ⟨0x00, BitVec.ofNat 32 (0xFFFF - (fold s.sum).toNat)⟩ } :=
  commands_cons rest (exec_writeSum hf rfl rfl rfl (complement_fold s.sum))

/-- R119: words accumulated onto the fold give the same fold as onto the sum itself, if the sum does not wrap. -/
theorem fold_fold_add {s : Word32} {n : Nat} (h : s.toNat + n < 2 ^ 32) :
    fold (BitVec.ofNat 32 ((fold s).toNat + n)) = fold (BitVec.ofNat 32 (s.toNat + n)) := by
  have hmod := fold_mod s
  have hzero := fold_toNat_eq_zero_iff s
  have hle : (fold s).toNat ≤ s.toNat := by rw [fold_toNat]; omega
  have hfolded : (BitVec.ofNat 32 ((fold s).toNat + n)).toNat = (fold s).toNat + n := Nat.mod_eq_of_lt (by omega)
  have hsum : (BitVec.ofNat 32 (s.toNat + n)).toNat = s.toNat + n := Nat.mod_eq_of_lt h
  apply fold_eq_fold <;> rw [hfolded, hsum] <;> omega

/-- Settles O45: the complement is `complement_fold`; folding again changes nothing (`fold_fold`, `fold_fold_add`). -/
theorem csSumFoldsAndComplements : Obligations.CsSumFoldsAndComplements := by
  refine ⟨wordZ_eq _, fun s hf => ⟨exec_writeSum hf rfl rfl rfl (complement_fold s.sum), ?_, fun ws hnowrap => ?_⟩⟩
  · simp only [commands_csSum, hf, fold_fold]
  · simp only [commands_csSum, commands_csAcci, hf]
    refine ⟨_, _, rfl, rfl, ?_⟩
    rw [fold_fold_add hnowrap]

/-! ### Order (R122 (a), (c)) -/

/-- Settles O48: a list of words is accumulated as its sum (`commands_csAcci`), which a permutation keeps. -/
theorem accumulationIsOrderIndependent : Obligations.AccumulationIsOrderIndependent := by
  refine ⟨fun s hf => ?_, fun ws s hf hne => ?_⟩
  · have hf' : (ownRule .csClear s).fault = 0 := hf
    have hfold : fold (ownRule .csClear s).sum = 0 := fold_of_le (s := 0) (by decide)
    rw [commands_cons_run _ hf rfl, commands_csSum _ hf', hfold]
    exact ⟨_, rfl, rfl⟩
  · have hall (vs : List Word16) (hvs : vs ≠ []) : commands (vs.map .csAcci) s = some { s with
        sum := BitVec.ofNat 32 (s.sum.toNat + (vs.map BitVec.toNat).sum), resp := some ⟨0x00, 0⟩ } := by
      rw [← List.append_nil (vs.map Instr.csAcci), commands_csAcci vs [] hf, if_neg hvs, commands]
    refine ⟨hall ws hne, fun vs hperm => ?_⟩
    rw [hall ws hne, hall vs fun h => hne (h ▸ hperm).eq_nil, (hperm.map BitVec.toNat).sum_nat]

/-! ### Ranges (R120, R121) -/

theorem rangeStop_toNat (L off : Nat) (n : Word32) : rangeStop L off n.toNat = if n = 0 then L else off + n.toNat :=
  if_congr (BitVec.toNat_inj (y := 0)) rfl rfl

/-- R120: the loop over a range inside the valid prefix, or over an empty one, adds the words of the range. -/
theorem sumBytes_readBuf (s : State) (sum : Word32) {b lo stop : Nat} (h : stop ≤ lo ∨ stop ≤ s.len b) :
    sumBytes sum (s.readBuf b lo (stop - lo))
      = BitVec.ofNat 32 (sum.toNat + rangeWords (s.buffer b).data lo stop) := by
  rw [sumBytes_eq, State.readBuf]
  rcases h with hempty | hvalid
  · rw [rangeWords, Nat.sub_eq_zero_of_le hempty]
    rfl
  · rw [wordsValue_part _ _ _ hvalid]

/-- R120: what an accepted `CS.RANGE` does. -/
theorem exec_csRange {b : Nat} {off : Word16} {n : Word32} {s : State} {B : Buffer} (hf : s.fault = 0)
    (hb : b < s.cfg.nbuf) (hB : s.bufs[b]? = some B) (hin : off.toNat + n.toNat ≤ B.data.length)
    (hoff : off.toNat % 2 = 0) (hn : n.toNat % 2 = 0) :
    exec (.csRange b off n) s = .next { s with
      sum := BitVec.ofNat 32 (s.sum.toNat + rangeWords B.data off.toNat
        (if n = 0 then B.data.length else off.toNat + n.toNat))
      resp := some ⟨0x00, 0⟩ } := by
  rw [← State.len_of_getElem? hB] at hin ⊢
  obtain ⟨-, -, -, hrule⟩ := ((sumRange_cases b off.toNat n.toNat s).resolve_left (by omega)).resolve_left (by omega)
  rw [rangeStop_toNat] at hrule
  refine exec_writeSum hf (decide_eq_true hb) hrule ?_ rfl
  rw [sumBytes_readBuf s s.sum (by split <;> omega), s.buffer_of_getElem? hB]

/-- Settles O46: the hypotheses of each clause select one of the three answers of `sumRange_cases`. -/
theorem csRangeSumsTheWordsOfARange : Obligations.CsRangeSumsTheWordsOfARange := by
  refine ⟨fun b off n => wordAID_eq _ _ off n, fun b off n s B hf hb hB =>
    ⟨fun hover => ?_, fun hin hodd => ?_, exec_csRange hf hb hB⟩⟩
  · rw [← State.len_of_getElem? hB] at hover
    obtain ⟨-, hrule⟩ := (sumRange_cases b off.toNat n.toNat s).resolve_right (by omega)
    exact exec_respond (st := .noopRange) hf (decide_eq_true hb) hrule
  · rw [← State.len_of_getElem? hB] at hin
    obtain ⟨-, -, hrule⟩ :=
      ((sumRange_cases b off.toNat n.toNat s).resolve_left (by omega)).resolve_right (by omega)
    exact exec_respond (st := .noopOdd) hf (decide_eq_true hb) hrule

/-- R121: over a fresh cursor the two range rules are the same, the stale test included, since a range that passes the
tests of R120 ends inside the buffer. -/
theorem sumCursorRange_fresh {c : Cur} {b : Nat} {s : State} (hcur : s.cur c = ⟨b, 0, 0, s.len b⟩) (off n : Nat) :
    sumCursorRange c off n s = sumRange b off n s := by
  have hstop : off + n ≤ s.len b → rangeStop (s.len b) off n ≤ s.len b := fun h => by
    unfold rangeStop
    split <;> omega
  have hrange := sumRange_cases b off n s
  have hcursor := sumCursorRange_cases c off n s
  simp only [State.remaining, hcur, Nat.sub_zero, Nat.zero_add] at hcursor
  rcases hcursor with ⟨hover, e⟩ | ⟨hin, hodd, e⟩ | ⟨hin, -, -, -, hstale, -⟩ | ⟨hin, hoff, hn, -, e⟩
  · obtain ⟨-, e'⟩ := hrange.resolve_right (by omega)
    rw [e, e']
  · obtain ⟨-, -, e'⟩ := (hrange.resolve_left (by omega)).resolve_right (by omega)
    rw [e, e']
  · exact absurd hstale (Nat.not_lt.mpr (hstop hin))
  · obtain ⟨-, -, -, e'⟩ := (hrange.resolve_left (by omega)).resolve_left (by omega)
    rw [e, e']

/-- Settles O47: the hypotheses of each clause select one of the four answers of `sumCursorRange_cases`. -/
theorem csRangecSumsFromTheCursor : Obligations.CsRangecSumsFromTheCursor := by
  refine ⟨fun c off n => wordAID_eq _ _ off n, fun c off n s hf L stop base hL hbase hstop => ?_,
    fun c b off n s hf hb hcur => ?_⟩
  · have hcases := sumCursorRange_cases c off.toNat n.toNat s
    rw [State.remaining, ← hL, rangeStop_toNat, ← hstop, ← hbase] at hcases
    refine ⟨fun hover => ?_, fun hin hodd => ?_, fun hin hoff hn hne hstale => ?_, fun hin hoff hn hvalid => ?_⟩
    · obtain ⟨-, hrule⟩ := hcases.resolve_right (by omega)
      exact exec_respond (st := .noopRange) hf rfl hrule
    · obtain ⟨-, -, hrule⟩ := (hcases.resolve_left (by omega)).resolve_right (by omega)
      exact exec_respond (st := .noopOdd) hf rfl hrule
    · obtain ⟨-, -, -, -, -, hrule⟩ :=
        ((hcases.resolve_left (by omega)).resolve_left (by omega)).resolve_right (by omega)
      exact exec_raise (e := .curStale) hf rfl hrule
    · obtain ⟨-, -, -, -, hrule⟩ :=
        ((hcases.resolve_left (by omega)).resolve_left (by omega)).resolve_left (by omega)
      rw [← Nat.add_sub_add_left base stop off.toNat] at hrule
      exact exec_writeSum hf rfl hrule (sumBytes_readBuf s s.sum (by omega)) rfl
  · rw [exec_run hf rfl, exec_run (i := .csRange b off n) hf (decide_eq_true hb)]
    exact congrArg Host.Outcome.next (sumCursorRange_fresh hcur off.toNat n.toNat)

/-! ### A range with its own checksum in it (R122 (b)) -/

/-- A bound on the words of a range. -/
theorem rangeWords_le (d : List Byte) (lo : Nat) {stop : Nat} (h : stop ≤ d.length) :
    rangeWords d lo stop ≤ 65535 * ((d.length + 1) / 2) := by
  have hle := wordsValue_le ((d.drop lo).take (stop - lo))
  rw [wordsValue_part d lo stop h, List.length_take, List.length_drop] at hle
  omega

/-- A word written over a zero word of a range, at an even distance from its start, adds its number to the words of the
range. -/
theorem rangeWords_patch {d : List Byte} {lo stop k : Nat} (a b : Byte) (hk : k % 2 = 0) (hin : lo + k + 2 ≤ stop)
    (hstop : stop ≤ d.length) (h0 : d[lo + k]? = some 0) (h1 : d[lo + k + 1]? = some 0) :
    rangeWords ((d.set (lo + k) a).set (lo + k + 1) b) lo stop = rangeWords d lo stop + (a.toNat * 256 + b.toNat) := by
  have hget (i : Nat) (hi : i < stop - lo) : ((d.drop lo).take (stop - lo))[i]? = d[lo + i]? := by simp [hi]
  obtain ⟨j, rfl⟩ : ∃ j, k = 2 * j := ⟨k / 2, by omega⟩
  rw [← wordsValue_part _ lo stop (by simpa using hstop), ← wordsValue_part d lo stop hstop, Nat.add_assoc lo,
    ← List.set_drop, ← List.set_drop, List.take_set, List.take_set]
  apply wordsValue_patch
  · rw [hget _ (by omega), h0]
  · rw [hget _ (by omega), ← Nat.add_assoc, h1]

/-- What `CS.CLEAR`, `CS.RANGE` and `CS.SUM` answer on an accepted range. -/
theorem commands_checksum {b : Nat} {off : Word16} {n : Word32} {s : State} {B : Buffer} (hf : s.fault = 0)
    (hb : b < s.cfg.nbuf) (hB : s.bufs[b]? = some B) (hin : off.toNat + n.toNat ≤ B.data.length)
    (hoff : off.toNat % 2 = 0) (hn : n.toNat % 2 = 0) :
    ∃ t, commands [.csClear, .csRange b off n, .csSum] s = some t ∧
      t.resp = some ⟨0x00, BitVec.ofNat 32 (0xFFFF - (fold (BitVec.ofNat 32 (rangeWords B.data off.toNat
        (if n = 0 then B.data.length else off.toNat + n.toNat)))).toNat)⟩ := by
  have hf' : (ownRule .csClear s).fault = 0 := hf
  have hrange := exec_csRange (s := ownRule .csClear s) hf' hb hB hin hoff hn
  rw [show (ownRule .csClear s).sum.toNat = 0 from rfl, Nat.zero_add] at hrange
  rw [commands_cons_run _ hf rfl, commands_cons _ hrange]
  simp only [commands_csSum, hf']
  exact ⟨_, rfl, rfl⟩

/-- A positive multiple of 65535 folds to `0xFFFF`. -/
theorem fold_of_mod_eq_zero {s : Word32} (hmod : s.toNat % 65535 = 0) (hpos : 0 < s.toNat) :
    (fold s).toNat = 0xFFFF := by
  have hfold := fold_mod s
  have hzero := fold_toNat_eq_zero_iff s
  have hle := fold_le s
  omega

/-- R122 (b): a sum and its own checksum add up to a positive multiple of 65535, which folds to `0xFFFF`. -/
theorem fold_add_checksum {S : Nat} (h : S + 0xFFFF < 2 ^ 32) :
    (fold (BitVec.ofNat 32 (S + (0xFFFF - (fold (BitVec.ofNat 32 S)).toNat)))).toNat = 0xFFFF := by
  have hS : (BitVec.ofNat 32 S).toNat = S := Nat.mod_eq_of_lt (by omega)
  have hmod := fold_mod (BitVec.ofNat 32 S)
  have hzero := fold_toNat_eq_zero_iff (BitVec.ofNat 32 S)
  have hle := fold_le (BitVec.ofNat 32 S)
  rw [hS] at hmod hzero
  generalize (fold (BitVec.ofNat 32 S)).toNat = f at *
  have hsum : (BitVec.ofNat 32 (S + (0xFFFF - f))).toNat = S + (0xFFFF - f) := Nat.mod_eq_of_lt (by omega)
  apply fold_of_mod_eq_zero <;> rw [hsum] <;> omega

/-- Settles O49: the checksum in the field adds its number to the words of the range (`rangeWords_patch`), and the sum
folds to `0xFFFF` (`fold_add_checksum`); no range of a buffer is long enough to wrap (`rangeWords_le`). -/
theorem checksumVerifiesItself : Obligations.ChecksumVerifiesItself := by
  intro s s2 t b d off n B B2 c hf hf2 hb hb2 hcfg hB hB2 hcap hin hoff hn hd hfield h0 h1 hrun hresp hB2data
  obtain ⟨-, hwords, -⟩ := hcfg
  rw [Config.capacity] at hcap
  have hlen : B2.data.length = B.data.length := by rw [hB2data, List.length_set, List.length_set]
  obtain ⟨t', hrun', hresp'⟩ := commands_checksum hf hb hB hin hoff hn
  obtain ⟨u, hu, huresp⟩ := commands_checksum hf2 hb2 hB2 (hlen ▸ hin) hoff hn
  refine ⟨u, hu, huresp.trans ?_⟩
  obtain rfl : t' = t := Option.some.inj (hrun'.symm.trans hrun)
  have hc := hresp'.symm.trans hresp
  rw [Option.some.injEq, Response.mk.injEq] at hc
  obtain ⟨-, hc⟩ := hc
  rw [hlen]
  have hstop : (if n = 0 then B.data.length else off.toNat + n.toNat) ≤ B.data.length := by split <;> omega
  generalize (if n = 0 then B.data.length else off.toNat + n.toNat) = stop at *
  have hle := rangeWords_le B.data off.toNat hstop
  have hpatch := rangeWords_patch (c.extractLsb' 8 8) (c.extractLsb' 0 8) hd hfield hstop h0 h1
  have hpair : (c.extractLsb' 8 8).toNat * 256 + (c.extractLsb' 0 8).toNat
      = 0xFFFF - (fold (BitVec.ofNat 32 (rangeWords B.data off.toNat stop))).toNat := by
    rw [BitVec.extractLsb'_toNat, BitVec.extractLsb'_toNat, ← hc, BitVec.toNat_ofNat, Nat.shiftRight_eq_div_pow]
    omega
  rw [hB2data, hpatch, hpair, fold_add_checksum (by omega)]
  rfl

end Sys2Proof.Machine
end

section
/-! PROOFS of the statements of 44_chain.md: the walk, the insertions, the removals, what the reporting commands answer,
and the order in which nodes leave a chain (R130 to R142). -/

namespace Sys2Proof.Machine

/-! ### Encodings and results that name a node (R52, R57) -/

theorem putNode_eq (k : NodeRef) : putNode k = BitVec.ofNat 8 (k.getD 255) := by cases k <;> rfl

theorem wordA2_putNode (opc a : Byte) (k : NodeRef) :
    wordA2 opc a (putNode k) = opc ++ a ++ BitVec.ofNat 8 (k.getD 255) ++ 0#40 := by
  rw [wordA2_eq, putNode_eq]

theorem nodeResult_eq (r : NodeRef) : nodeResult r = BitVec.ofNat 32 (r.getD 255) := by cases r <;> rfl

theorem putFlag_eq (f : Bool) : putFlag f = if f then 1#8 else 0#8 := by cases f <;> rfl

/-- A command on a chain of the block and a legal node operand is well-formed. -/
theorem chainNode_wellFormed {cfg : Config} {q : Nat} {k : NodeRef} (hq : q < cfg.nchain)
    (hk : NodeRef.legal cfg k = true) : (decide (q < cfg.nchain) && NodeRef.legal cfg k) = true :=
  Bool.and_eq_true_iff.mpr ⟨decide_eq_true hq, hk⟩

/-! ### The descriptor and the walk of a chain that is a sequence (R16, R130) -/

section Sequence

variable {s : State} {L : List (List Nat)} {q k : Nat} (h : Represents s L)
include h

theorem Represents.nodup (q : Nat) : (L.getD q []).Nodup := by
  obtain ⟨-, -, hflat, -⟩ := h
  obtain ⟨hnodup, -⟩ := nodup_flatten_iff.mp hflat
  exact hnodup q

theorem Represents.not_mem_of_mem {p : Nat} (hp : p ≠ q) (hk : k ∈ L.getD p []) : k ∉ L.getD q [] := by
  obtain ⟨-, -, hflat, -⟩ := h
  obtain ⟨-, hdisjoint⟩ := nodup_flatten_iff.mp hflat
  exact hdisjoint p q k hp hk

variable (hq : q < s.cfg.nchain)
include hq

theorem Represents.linked_first : linked s (s.chain q).first (L.getD q []) = true := by
  obtain ⟨-, hchain, -⟩ := h
  exact (hchain q hq).1

theorem Represents.first_eq : (s.chain q).first = (L.getD q []).head? := linked_head (h.linked_first hq)

theorem Represents.last_eq : (s.chain q).last = (L.getD q []).getLast? := by
  obtain ⟨-, hchain, -⟩ := h
  exact (hchain q hq).2

theorem Represents.walk_absent (hk : k ∉ L.getD q []) : s.walk q k = (false, none) :=
  walkFrom_absent (h.linked_first hq) hk

theorem Represents.reach_eq_decide (k : Nat) : s.reach q k = decide (k ∈ L.getD q []) := by
  rw [Bool.eq_iff_iff, h.reach_iff hq, decide_eq_true_iff]

theorem Represents.reach_absent (hk : k ∉ L.getD q []) : s.reach q k = false := by
  rw [h.reach_eq_decide hq, decide_eq_false hk]

end Sequence

/-- Settles O50: `Represents.walk_absent` and `Represents.walk_eq`. -/
theorem walkDecidesMembership : Obligations.WalkDecidesMembership := fun _ _ _ _ h hq =>
  ⟨h.walk_absent hq, fun _ _ e => h.walk_eq hq e⟩

/-! ### The rules by case (R131, R136, R138, R141) -/

section Rules

variable {s : State} {q k : Nat}

theorem insertNode_present {update : Nat → Nat → State → State} (hr : s.reach q k = true) :
    insertNode update q (some k) s = s.respond .noopPresent 0 := by
  simp [insertNode, hr]

theorem insertNode_elsewhere {update : Nat → Nat → State → State} (hr : s.reach q k = false)
    (ho : s.inOtherChain q k = true) : insertNode update q (some k) s = s.raise .chainConvention := by
  simp [insertNode, hr, ho]

theorem insertNode_free {update : Nat → Nat → State → State} (hr : s.reach q k = false)
    (ho : s.inOtherChain q k = false) : insertNode update q (some k) s = (update q k s).respond .ok 0 := by
  simp [insertNode, hr, ho]

theorem takeFirst_of_empty (remove : Bool) (hfirst : (s.chain q).first = none) :
    takeFirst q remove s = s.respond .empty 0xFF := by
  simp [takeFirst, hfirst]

theorem takeFirst_of_head (remove : Bool) (hfirst : (s.chain q).first = some k) :
    takeFirst q remove s = (if remove then detach q none k s else s).respond .ok (BitVec.ofNat 32 k) := by
  simp [takeFirst, hfirst, nodeResult]

theorem removeNode_absent (hwalk : s.walk q k = (false, none)) :
    removeNode q (some k) s = s.respond .noopAbsent 0 := by
  simp [removeNode, hwalk]

theorem removeNode_found {prev : NodeRef} (hwalk : s.walk q k = (true, prev)) :
    removeNode q (some k) s = (detach q prev k s).respond .ok 0 := by
  simp [removeNode, hwalk]

theorem lastNode_of_empty (hlast : (s.chain q).last = none) : lastNode q s = s.respond .empty 0xFF := by
  simp [lastNode, hlast]

theorem lastNode_of_tail (hlast : (s.chain q).last = some k) :
    lastNode q s = s.respond .ok (BitVec.ofNat 32 k) := by
  simp [lastNode, hlast, nodeResult]

end Rules

/-! ### The commands that write links and descriptors -/

/-- Chain `q` of a block outside the fault state whose chains are the sequences `L`. -/
structure Chained (s : State) (L : List (List Nat)) (q : Nat) : Prop where
  fault : s.fault = 0
  sized : s.Sized
  rep : Represents s L
  lt : q < s.cfg.nchain

/-- The command answers `OK` with the result and makes the sequences `L`, writing links, descriptors and the response
alone and no byte of a buffer. -/
def Relinks (i : Instr) (s : State) (res : Word32) (L : List (List Nat)) : Prop :=
  ∃ t, exec i s = .next t ∧ t = { s with bufs := t.bufs, chains := t.chains, resp := some ⟨0x00, res⟩ }
    ∧ t.Sized ∧ (∀ b, (t.buffer b).data = (s.buffer b).data) ∧ Represents t L

section Chained

variable {s : State} {L : List (List Nat)} {q : Nat} (h : Chained s L q)
include h

/-- A command whose rule ends with an update of the links does to the sequences what the update does. -/
theorem Chained.relinks {i : Instr} {u : State} {res : Word32} {M : List (List Nat)}
    (hw : i.wellFormed s.cfg = true) (hrule : ownRule i s = u.respond .ok res) (hu : Relinked s u)
    (hM : Represents u M) : Relinks i s res M :=
  ⟨u.respond .ok res, (exec_run h.fault hw).trans (congrArg Host.Outcome.next hrule),
    congrArg (State.respond · .ok res) hu.frame, hu.sized h.sized, hu.data, hM.congr rfl (fun _ => rfl) fun _ => rfl⟩

/-- The state after such a command is one for the next command. -/
theorem Chained.after {i : Instr} {res : Word32} {M : List (List Nat)} (hi : Relinks i s res M) :
    ∃ t, exec i s = .next t ∧ t.resp = some ⟨0x00, res⟩ ∧ t.cfg = s.cfg ∧ Chained t M q := by
  obtain ⟨t, hexec, hframe, hsized, -, hM⟩ := hi
  have hcfg : t.cfg = s.cfg := by rw [hframe]
  have hfault : t.fault = s.fault := by rw [hframe]
  exact ⟨t, hexec, by rw [hframe], hcfg, hfault.trans h.fault, hsized, hM, hcfg ▸ h.lt⟩

theorem Chained.getD_set (X : List Nat) : (L.set q X).getD q [] = X := by
  rw [Machine.getD_set (h.rep.1 ▸ h.lt), if_pos rfl]

/-! #### Insertion (R131 to R134) -/

theorem Chained.push_null (f : Bool) : exec (.chPush q none f) s = .next { s with resp := some ⟨0x01, 0⟩ } :=
  exec_respond (st := .noopNull) h.fault (chainNode_wellFormed h.lt rfl) rfl

theorem Chained.push_present {k : Nat} (f : Bool) (hk : k ∈ L.getD q []) :
    exec (.chPush q (some k) f) s = .next { s with resp := some ⟨0x06, 0⟩ } :=
  exec_respond (st := .noopPresent) h.fault (chainNode_wellFormed h.lt (decide_eq_true (h.rep.lt hk)))
    (insertNode_present ((h.rep.reach_iff h.lt k).mpr hk))

theorem Chained.push_elsewhere {k p : Nat} (f : Bool) (hp : p ≠ q) (hk : k ∈ L.getD p []) :
    exec (.chPush q (some k) f) s = .next { s with fault := 0x05, resp := some ⟨0xF0, 0x05⟩ } :=
  exec_raise (e := .chainConvention) h.fault (chainNode_wellFormed h.lt (decide_eq_true (h.rep.lt hk)))
    (insertNode_elsewhere (h.rep.reach_absent h.lt (h.rep.not_mem_of_mem hp hk))
      ((h.rep.inOtherChain_iff q k).mpr ⟨p, hp, hk⟩))

/-- R132 to R134: a free node enters the sequence at its tail or at its head. -/
theorem Chained.push_free {k : Nat} (f : Bool) (hk : k < s.cfg.nbuf) (hfree : k ∉ L.flatten) :
    Relinks (.chPush q (some k) f) s 0 (L.set q (if f then L.getD q [] ++ [k] else k :: L.getD q [])) := by
  have hw : (Instr.chPush q (some k) f).wellFormed s.cfg = true := chainNode_wellFormed h.lt (decide_eq_true hk)
  have hr : s.reach q k = false := h.rep.reach_absent h.lt fun hm => hfree (mem_flatten_iff.mpr ⟨q, hm⟩)
  have ho : s.inOtherChain q k = false := by
    rw [← Bool.not_eq_true, h.rep.inOtherChain_iff]
    exact fun ⟨p, _, hm⟩ => hfree (mem_flatten_iff.mpr ⟨p, hm⟩)
  cases f
  · exact h.relinks hw (insertNode_free hr ho) (relinked_linkHead q k s) (h.rep.linkHead h.sized h.lt hk hfree)
  · exact h.relinks hw (insertNode_free hr ho) (relinked_linkTail q k s) (h.rep.linkTail h.sized h.lt hk hfree)

/-! #### Removal (R136 to R138) -/

theorem Chained.first_empty (f : Bool) (e : L.getD q [] = []) :
    exec (.chFirst q f) s = .next { s with resp := some ⟨0x08, 0xFF⟩ } :=
  exec_respond (st := .empty) h.fault (decide_eq_true h.lt)
    (takeFirst_of_empty f ((h.rep.first_eq h.lt).trans (congrArg List.head? e)))

theorem Chained.first_keep {k : Nat} {l : List Nat} (e : L.getD q [] = k :: l) :
    exec (.chFirst q false) s = .next { s with resp := some ⟨0x00, BitVec.ofNat 32 k⟩ } :=
  exec_respond (st := .ok) h.fault (decide_eq_true h.lt)
    (takeFirst_of_head false ((h.rep.first_eq h.lt).trans (congrArg List.head? e)))

/-- R136, R137: the head is returned and leaves the sequence. -/
theorem Chained.pop {k : Nat} {l : List Nat} (e : L.getD q [] = k :: l) :
    Relinks (.chPop q) s (BitVec.ofNat 32 k) (L.set q l) :=
  h.relinks (decide_eq_true h.lt) (takeFirst_of_head true ((h.rep.first_eq h.lt).trans (congrArg List.head? e)))
    (relinked_detach q none k s) (h.rep.detach (pre := []) h.sized h.lt e)

theorem Chained.remove_null : exec (.chRemove q none) s = .next { s with resp := some ⟨0x01, 0⟩ } :=
  exec_respond (st := .noopNull) h.fault (chainNode_wellFormed h.lt rfl) rfl

theorem Chained.remove_absent {k : Nat} (hk : k < s.cfg.nbuf) (hkq : k ∉ L.getD q []) :
    exec (.chRemove q (some k)) s = .next { s with resp := some ⟨0x07, 0⟩ } :=
  exec_respond (st := .noopAbsent) h.fault (chainNode_wellFormed h.lt (decide_eq_true hk))
    (removeNode_absent (h.rep.walk_absent h.lt hkq))

/-- R138: a member leaves the sequence, its one occurrence being the one that the walk finds. -/
theorem Chained.remove {k : Nat} (hk : k ∈ L.getD q []) :
    Relinks (.chRemove q (some k)) s 0 (L.set q ((L.getD q []).erase k)) := by
  obtain ⟨pre, post, e⟩ := List.append_of_mem hk
  have hnodup := h.rep.nodup q
  rw [e] at hnodup
  have hpre : k ∉ pre := fun hp => List.disjoint_of_nodup_append hnodup hp List.mem_cons_self
  have herase : (L.getD q []).erase k = pre ++ post := by
    rw [e, List.erase_append_right _ hpre, List.erase_cons_head]
  rw [herase]
  exact h.relinks (chainNode_wellFormed h.lt (decide_eq_true (h.rep.lt hk)))
    (removeNode_found (h.rep.walk_eq h.lt e)) (relinked_detach q pre.getLast? k s) (h.rep.detach h.sized h.lt e)

end Chained

/-! ### Insertion -/

/-- R134: the three inserting commands are `CH.PUSH` with one or the other flag, in the fault state too. -/
theorem exec_eq_exec_chPush {q : Nat} {i : NodeRef → Instr}
    (hi : i = .chPrepend q ∨ i = .chAppend q ∨ ∃ f, i = fun k => .chPush q k f) :
    ∃ f, ∀ k s, exec (i k) s = exec (.chPush q k f) s := by
  obtain rfl | rfl | ⟨f, rfl⟩ := hi
  · exact ⟨false, fun _ _ => rfl⟩
  · exact ⟨true, fun _ _ => rfl⟩
  · exact ⟨f, fun _ _ => rfl⟩

/-- Settles O51: every inserting command is `CH.PUSH` (`exec_eq_exec_chPush`), of which there is one lemma per test; a
node inserted is in the new sequence. -/
theorem insertionIsAdmittedInOrder : Obligations.InsertionIsAdmittedInOrder := by
  intro s L q i hf hs hL hq hi
  have h : Chained s L q := ⟨hf, hs, hL, hq⟩
  obtain ⟨f, hpush⟩ := exec_eq_exec_chPush hi
  simp only [hpush]
  refine ⟨h.push_null f, fun k => h.push_present f, fun k p => h.push_elsewhere f, fun k hk hfree => ?_⟩
  obtain ⟨t, hexec, hresp, -, ht⟩ := h.after (h.push_free f hk hfree)
  refine ⟨t, hexec, hresp, (ht.rep.reach_iff ht.lt k).mpr ?_⟩
  rw [h.getD_set]
  cases f <;> simp

/-- Settles O52: `CH.PREPEND` and `CH.APPEND` are `CH.PUSH` by definition; one lemma about `Chained` for each test, the
insertion and the two removals. -/
theorem insertionExtendsTheSequence : Obligations.InsertionExtendsTheSequence := by
  refine ⟨fun q k => ⟨wordA2_putNode _ _ k, wordA2_putNode _ _ k, fun f => ?_⟩, fun _ _ _ => ⟨rfl, rfl⟩,
    fun s L q k hf hs hL hq => ?_⟩
  · rw [← putNode_eq, ← putFlag_eq]
    exact wordA3_eq _ _ _ _
  have h : Chained s L q := ⟨hf, hs, hL, hq⟩
  refine ⟨fun m i hi => ?_, fun l e => ?_, fun hk => ?_, fun hk hfree => ⟨fun i hi => ?_, fun i hi => ?_⟩⟩
  · obtain ⟨f, hpush⟩ : ∃ f, exec i s = exec (.chPush q m f) s :=
      hi.elim (fun e => ⟨false, e ▸ rfl⟩) fun e => ⟨true, e ▸ rfl⟩
    rw [hpush]
    exact ⟨fun e => e ▸ h.push_null f, fun j e => e ▸ h.push_present f, fun j p e => e ▸ h.push_elsewhere f⟩
  · obtain ⟨t, hexec, hresp, -, ht⟩ := h.after (h.pop e)
    exact ⟨t, hexec, hresp, ht.rep⟩
  · obtain ⟨t, hexec, hresp, -, ht⟩ := h.after (h.remove hk)
    exact ⟨t, hexec, hresp, ht.rep⟩
  · obtain rfl | rfl := hi <;> exact h.push_free false hk hfree
  · obtain rfl | rfl := hi <;> exact h.push_free true hk hfree

/-! ### Removal -/

/-- R137: `CH.POP` is `CH.FIRST` with removal, in the fault state too. -/
theorem exec_chPop_eq_exec_chFirst (q : Nat) (s : State) : exec (.chPop q) s = exec (.chFirst q true) s := rfl

/-- Settles O53: `Chained.first_empty`, `Chained.first_keep` and `Chained.pop`. -/
theorem firstAndPopTakeTheHead : Obligations.FirstAndPopTakeTheHead := by
  refine ⟨fun q => ⟨wordA1_eq _ _, wordA2_eq _ _ _, wordA1_eq _ _⟩, fun s q => exec_chPop_eq_exec_chFirst q s,
    fun s L q hf hs hL hq => ?_⟩
  have h : Chained s L q := ⟨hf, hs, hL, hq⟩
  refine ⟨fun e i hi => ?_, fun k l e => ⟨h.first_keep e, fun i hi => ?_⟩⟩
  · obtain rfl | ⟨f, rfl⟩ := hi
    · exact h.first_empty true e
    · exact h.first_empty f e
  · obtain rfl | rfl := hi <;> exact h.pop e

/-- Settles O54: `Chained.remove_null`, `Chained.remove_absent` and `Chained.remove`. -/
theorem removeDeletesTheOneOccurrence : Obligations.RemoveDeletesTheOneOccurrence := by
  refine ⟨fun q k => wordA2_putNode _ _ k, fun s L q hf hs hL hq => ?_⟩
  have h : Chained s L q := ⟨hf, hs, hL, hq⟩
  exact ⟨h.remove_null, fun k => h.remove_absent, fun k => h.remove⟩

/-! ### Reports (R139 to R141) -/

/-- Settles O55: the rules respond with membership (`Represents.reach_eq_decide`), with the link, and with the last of
the sequence (`Represents.last_eq`). -/
theorem hasNextAndLastReportTheLinks : Obligations.HasNextAndLastReportTheLinks := by
  refine ⟨fun q k => ⟨wordA2_putNode _ _ k, ?_, wordA1_eq _ _⟩, fun s k hf hk => ⟨?_, ?_⟩,
    fun s L q hf hL hq => ⟨?_, fun k hk => ?_, fun e => ?_, fun l k e => ?_⟩⟩
  · rw [← putNode_eq]
    exact wordA1_eq _ _
  · exact exec_respond (st := .noopNull) hf rfl rfl
  · exact exec_report hf (decide_eq_true hk) rfl (nodeResult_eq (s.next k))
  · exact exec_respond (st := .noopNull) hf (chainNode_wellFormed hq rfl) rfl
  · exact exec_report hf (chainNode_wellFormed hq (decide_eq_true hk)) rfl (truth_eq_ite (hL.reach_eq_decide hq k))
  · exact exec_respond (st := .empty) hf (decide_eq_true hq)
      (lastNode_of_empty ((hL.last_eq hq).trans (congrArg List.getLast? e)))
  · exact exec_respond (st := .ok) hf (decide_eq_true hq)
      (lastNode_of_tail ((hL.last_eq hq).trans (by rw [e, List.getLast?_concat])))

/-! ### A chain as a stack or a queue (R142) -/

/-- A node that is neither in the sequences nor in the one put for another is in none of the new ones. -/
theorem not_mem_flatten_set {L : List (List Nat)} {q k : Nat} {X : List Nat} (hL : k ∉ L.flatten) (hX : k ∉ X) :
    k ∉ (L.set q X).flatten := by
  intro hk
  obtain ⟨l, hl, hkl⟩ := List.mem_flatten.mp hk
  obtain hl | rfl := List.mem_or_eq_of_mem_set hl
  · exact hL (List.mem_flatten.mpr ⟨l, hl, hkl⟩)
  · exact hX hkl

/-- Free nodes pushed one after the other stand behind the sequence in their order, or before it in the other order. -/
theorem Chained.commands_push {s : State} {L : List (List Nat)} {q : Nat} (h : Chained s L q) (f : Bool)
    (rest : List Instr) {ks : List Nat} (hnodup : ks.Nodup) (hfree : ∀ k ∈ ks, k < s.cfg.nbuf ∧ k ∉ L.flatten) :
    ∃ t M, commands (ks.map (fun k => .chPush q (some k) f) ++ rest) s = commands rest t ∧ Chained t M q
      ∧ M.getD q [] = if f then L.getD q [] ++ ks else ks.reverse ++ L.getD q [] := by
  induction ks generalizing s L with
  | nil => exact ⟨s, L, rfl, h, by cases f <;> simp⟩
  | cons k ks ih =>
    obtain ⟨hkks, hnodup⟩ := List.nodup_cons.mp hnodup
    obtain ⟨hk, hkfree⟩ := hfree k List.mem_cons_self
    obtain ⟨u, hexec, -, hcfg, hu⟩ := h.after (h.push_free f hk hkfree)
    obtain ⟨t, M, hrun, ht, hM⟩ := ih hu hnodup fun j hj => by
      obtain ⟨hjlt, hjfree⟩ := hfree j (List.mem_cons_of_mem k hj)
      have hjk : j ≠ k := fun e => hkks (e ▸ hj)
      have hjq : j ∉ L.getD q [] := fun hm => hjfree (mem_flatten_iff.mpr ⟨q, hm⟩)
      have hjpushed : j ∉ if f then L.getD q [] ++ [k] else k :: L.getD q [] := by
        cases f <;> simp [-List.getD_eq_getElem?_getD, hjk, hjq]
      exact ⟨hcfg ▸ hjlt, not_mem_flatten_set hjfree hjpushed⟩
    refine ⟨t, M, (commands_cons _ hexec).trans hrun, ht, hM.trans ?_⟩
    rw [h.getD_set]
    cases f <;> simp

/-- One `CH.POP` takes the head and leaves the rest. -/
theorem Chained.commands_pop {s : State} {L : List (List Nat)} {q k : Nat} {l : List Nat} (h : Chained s L q)
    (e : L.getD q [] = k :: l) :
    ∃ t M, commands [.chPop q] s = some t ∧ t.resp = some ⟨0x00, BitVec.ofNat 32 k⟩ ∧ Chained t M q
      ∧ M.getD q [] = l := by
  obtain ⟨t, hexec, hresp, -, ht⟩ := h.after (h.pop e)
  exact ⟨t, _, commands_cons [] hexec, hresp, ht, h.getD_set l⟩

/-- Settles O56: the pushes make the sequence `[a, b, c]` or `[c, b, a]` (`Chained.commands_push`), and every
`CH.POP` takes its head. -/
theorem pushThenPopIsLifoOrFifo : Obligations.PushThenPopIsLifoOrFifo := by
  intro s L q a b c hf hs hL hq hempty hnodup hfree f
  have h : Chained s L q := ⟨hf, hs, hL, hq⟩
  obtain ⟨t, M, hpush, ht, hM⟩ := h.commands_push f [.chPop q] hnodup hfree
  have hseq : M.getD q [] = [if f then a else c, b, if f then c else a] := by
    rw [hM, hempty]
    cases f <;> rfl
  obtain ⟨t1, M1, hrun1, hresp1, ht1, hM1⟩ := ht.commands_pop hseq
  obtain ⟨t2, M2, hrun2, hresp2, ht2, hM2⟩ := ht1.commands_pop hM1
  obtain ⟨t3, -, hrun3, hresp3, -⟩ := ht2.commands_pop hM2
  exact ⟨t1, t2, t3, hpush.trans hrun1, hrun2, hrun3, hresp1, hresp2, hresp3⟩

end Sys2Proof.Machine
end

section
/-! PROOFS of the statements of 45_system.md: the command without effect and the reading of the four CSRs (R150,
R151). -/

namespace Sys2Proof.Machine

/-! ### CSR numbers above 3 (R55) -/

theorem toNat_putCsr_le (c : Csr) : (putCsr c).toNat ≤ 3 := by
  cases c <;> decide

/-- Every byte that is read as a CSR is its number (`readCsr_some`), and the numbers end at 3. -/
theorem readCsr_eq_none {x : Byte} (h : 3 < x.toNat) : readCsr x = none := by
  refine Option.eq_none_iff_forall_ne_some.mpr fun c hc => ?_
  have hx : x = putCsr c := readCsr_some.mp hc
  have hle := toNat_putCsr_le c
  rw [← hx] at hle
  omega

theorem decode_rdcsr_badOperand {x : Byte} (h : 3 < x.toNat) : decode (0x01#8 ++ x ++ 0#48) = .error .badOperand :=
  calc decode (0x01#8 ++ x ++ 0#48) = decode (wordA1 0x01 x) := congrArg decode (wordA1_eq 0x01 x).symm
    _ = decodeFields ⟨0x01, x, 0, 0, 0⟩ := decode_wordOf _
    _ = operand1 (readCsr x) .rdcsr := rfl
    _ = .error .badOperand := by rw [readCsr_eq_none h, operand1]

/-! ### What the two commands do -/

/-- R161: `RDCSR` does not go through the test of the fault state. -/
theorem exec_rdcsr (csr : Csr) (s : State) :
    exec (.rdcsr csr) s = .next { s with resp := some ⟨0x00, s.csr csr⟩ } := rfl

/-- R18: `FAULT` is read with its number. -/
theorem csr_fault (s : State) : s.csr .fault = BitVec.ofNat 32 s.fault.toNat :=
  (BitVec.ofNat_toNat 32 s.fault).symm

/-- Settles O10: outside the fault state `NOP` only responds, in it R161 refuses it (`exec_faulted`); `RDCSR` responds
in every state (`exec_rdcsr`). -/
theorem nopAndCsrReads : Obligations.NopAndCsrReads := by
  refine ⟨rfl, rfl, fun s hf => exec_report hf rfl rfl rfl, fun s hf => exec_faulted hf (by simp),
    ⟨rfl, rfl, rfl, rfl⟩, fun x => decode_rdcsr_badOperand, fun s => ⟨exec_rdcsr .capw s, exec_rdcsr .config s, ?_,
    exec_rdcsr .sum s⟩⟩
  rw [← csr_fault]
  exact exec_rdcsr .fault s

end Sys2Proof.Machine
end

section
/-! PROOFS of the statements of 60_exceptions.md: the order in which a command is processed (R161), the no-op statuses
(R162), the fault mechanism and its causes (R163, R164), and the table of statuses (R160). -/

namespace Sys2Proof.Machine

/-! ### The order of processing (R161) -/

theorem State.refuseWord_of_fault {s : State} (hf : s.fault ≠ 0) : s.refuseWord = s.respond .faulted 0 := if_pos hf

/-- R161 step 1: in the fault state every word but a legal `RDCSR` is refused. -/
theorem runWord_faulted {w : Command} {s : State} (hf : s.fault ≠ 0) (h : ∀ csr, decode w ≠ .ok (.rdcsr csr)) :
    runWord w s = .next (s.respond .faulted 0) := by
  rcases hd : decode w with e | i
  · rw [runWord_error hd, State.refuseWord_of_fault hf]
  · rw [runWord_ok hd]
    exact exec_faulted hf fun csr e => h csr (e ▸ hd)

/-- Settles O6: one lemma for each of the three steps of R161. -/
theorem commandsAreProcessedInOrder : Obligations.CommandsAreProcessedInOrder := fun s _ =>
  ⟨runWord_faulted, runWord_of_not_legal, fun _ hd _ _ => runWord_ok hd s⟩

/-- A command that R161 does not let run only responds. -/
theorem exec_of_not_run {i : Instr} {s t : State} (h : exec i s = .next t)
    (hn : s.fault ≠ 0 ∨ i.wellFormed s.cfg = false) : ∃ st res, t = s.respond st res := by
  rcases exec_next h with ⟨-, -, e⟩ | ⟨-, -, e⟩ | ⟨hw, hf | ⟨csr, rfl⟩, e⟩
  · exact ⟨_, _, e⟩
  · exact ⟨_, _, e⟩
  · exact absurd hn (by simp [hf, hw])
  · exact ⟨_, _, e⟩

/-! ### Answers that change nothing, and the fault answer (R162, R163) -/

theorem Status.code_eq_fault_iff (st : Status) : st.code = 0xF0 ↔ st = .fault := by
  cases st <;> decide

theorem Cause.code_ne_zero (c : Cause) : c.code ≠ 0 := by
  cases c <;> decide

/-- Settles O11: of the ways a command ends (`exec_ends`) a fault answers 0xF0 and an effect 0x00; a response leaves the
state as it was. -/
theorem noOpAnswersChangeNothing : Obligations.NoOpAnswersChangeNothing := by
  intro i s t r h hr hlo hhi
  rcases exec_ends h with ⟨st, res, -, rfl⟩ | ⟨-, c, rfl⟩ | ⟨res, -, -, rfl⟩
  · obtain rfl := Option.some.inj hr
    rfl
  · obtain rfl := Option.some.inj hr
    exact absurd hhi (by decide : ¬ (0xF0 : Byte).toNat ≤ 8)
  · obtain rfl := Option.some.inj hr
    exact absurd hlo (by decide : ¬ 1 ≤ (0x00 : Byte).toNat)

/-- R163: a command that answers `FAULT` took a fault, out of the fault-free state. -/
theorem exec_raises_of_fault_answer {i : Instr} {s t : State} {r : Response} (h : exec i s = .next t)
    (hr : t.resp = some r) (hst : r.st = 0xF0) : s.fault = 0 ∧ ∃ c, t = s.raise c := by
  rcases exec_ends h with ⟨st, res, hne, rfl⟩ | hraise | ⟨res, -, -, rfl⟩
  · obtain rfl := Option.some.inj hr
    exact absurd ((Status.code_eq_fault_iff st).mp hst) hne
  · exact hraise
  · obtain rfl := Option.some.inj hr
    exact absurd hst (by decide : (0x00 : Byte) ≠ 0xF0)

/-- R163: a command leaves `FAULT` as it was or takes a fault. -/
theorem exec_fault {i : Instr} {s t : State} (h : exec i s = .next t) : t.fault = s.fault ∨ ∃ c, t = s.raise c := by
  rcases exec_ends h with ⟨st, res, -, rfl⟩ | ⟨-, hraise⟩ | ⟨res, -, -, rfl⟩
  · exact .inl rfl
  · exact .inr hraise
  · obtain ⟨-, -, -, -, hfault⟩ := effect_frame i s
    exact .inl hfault

/-- Settles O12: a `FAULT` answer and a change of `FAULT` both come from taking a fault (`State.raise`); in the fault
state R161 refuses the command. -/
theorem aFaultWritesOnlyTheFaultRegister : Obligations.AFaultWritesOnlyTheFaultRegister := by
  refine ⟨fun i s t r h hr hst => ?_, fun i s t h hne => ?_, fun i s hf hi => exec_faulted hf hi⟩
  · obtain ⟨hf, c, rfl⟩ := exec_raises_of_fault_answer h hr hst
    exact ⟨hf, c.code_ne_zero, rfl⟩
  · obtain ⟨c, rfl⟩ := (exec_fault h).resolve_left hne
    exact ⟨_, rfl⟩

/-! ### The status table (R160) -/

/-- The state holds an answer, with one of these status codes. -/
def AnswersIn (l : List Byte) (t : State) : Prop := ∃ r, t.resp = some r ∧ r.st ∈ l

theorem answersIn_of_respond {l : List Byte} {s t : State} {st : Status} {res : Word32} (e : t = s.respond st res)
    (h : st.code ∈ l) : AnswersIn l t :=
  ⟨_, congrArg State.resp e, h⟩

theorem answersIn_of_raise {l : List Byte} {s t : State} {c : Cause} (e : t = s.raise c) (h : 0xF0 ∈ l) :
    AnswersIn l t :=
  ⟨_, congrArg State.resp e, h⟩

section Rules

variable (s : State)

theorem loadHalf_answers (r : HalfReg) (c : Cur) : AnswersIn [0x00, 0xF0] (loadHalf r c s) := by
  rcases loadHalf_cases r c s with ⟨-, e⟩ | ⟨-, -, e⟩ | ⟨-, -, e⟩
  · exact answersIn_of_raise e (by decide)
  · exact answersIn_of_raise e (by decide)
  · exact answersIn_of_respond e (by decide)

theorem loadReg_answers (r : Reg) (c : Cur) : AnswersIn [0x00, 0xF0] (loadReg r c s) := by
  rcases loadReg_cases r c s with ⟨-, e⟩ | ⟨-, -, e⟩ | ⟨-, -, e⟩
  · exact answersIn_of_raise e (by decide)
  · exact answersIn_of_raise e (by decide)
  · exact answersIn_of_respond e (by decide)

theorem peek_answers (c : Cur) : AnswersIn [0x00, 0xF0] (peek c s) := by
  rcases peek_cases c s with ⟨-, e⟩ | ⟨-, -, e⟩ | ⟨-, -, e⟩
  · exact answersIn_of_raise e (by decide)
  · exact answersIn_of_raise e (by decide)
  · exact answersIn_of_respond e (by decide)

theorem advance_answers (c : Cur) (n : Nat) : AnswersIn [0x00, 0xF0] (advance c n s) := by
  rcases advance_cases c n s with ⟨-, e⟩ | ⟨-, e⟩
  · exact answersIn_of_raise e (by decide)
  · exact answersIn_of_respond e (by decide)

theorem appendBytes_answers (b : Nat) (n : Word16) (a : Word32) :
    AnswersIn [0x00, 0x01, 0x02, 0x03] (appendBytes b n a s) := by
  rcases appendBytes_cases b n a s with ⟨-, e⟩ | ⟨-, -, e⟩ | ⟨-, -, -, e⟩ | ⟨-, -, -, e⟩ <;>
    exact answersIn_of_respond e (by decide)

theorem readByteAt_answers (b : Nat) (idx : Word16) : AnswersIn [0x00, 0x04] (readByteAt b idx s) := by
  rcases readByteAt_cases b idx s with ⟨-, e⟩ | ⟨-, e⟩ <;> exact answersIn_of_respond e (by decide)

theorem sumRange_answers (b off n : Nat) : AnswersIn [0x00, 0x04, 0x05] (sumRange b off n s) := by
  rcases sumRange_cases b off n s with ⟨-, e⟩ | ⟨-, -, e⟩ | ⟨-, -, -, e⟩ <;>
    exact answersIn_of_respond e (by decide)

theorem sumCursorRange_answers (c : Cur) (off n : Nat) :
    AnswersIn [0x00, 0x04, 0x05, 0xF0] (sumCursorRange c off n s) := by
  rcases sumCursorRange_cases c off n s with ⟨-, e⟩ | ⟨-, -, e⟩ | ⟨-, -, -, -, -, e⟩ | ⟨-, -, -, -, e⟩
  · exact answersIn_of_respond e (by decide)
  · exact answersIn_of_respond e (by decide)
  · exact answersIn_of_raise e (by decide)
  · exact answersIn_of_respond e (by decide)

theorem insertNode_answers (update : Nat → Nat → State → State) (q : Nat) (node : NodeRef) :
    AnswersIn [0x00, 0x01, 0x06, 0xF0] (insertNode update q node s) := by
  rcases insertNode_cases update q node s with ⟨-, e⟩ | ⟨_, -, -, e⟩ | ⟨_, -, -, -, e⟩ | ⟨_, -, -, -, e⟩
  · exact answersIn_of_respond e (by decide)
  · exact answersIn_of_respond e (by decide)
  · exact answersIn_of_raise e (by decide)
  · exact answersIn_of_respond e (by decide)

theorem takeFirst_answers (q : Nat) (remove : Bool) : AnswersIn [0x00, 0x08] (takeFirst q remove s) := by
  rcases takeFirst_cases q remove s with ⟨-, e⟩ | ⟨_, -, -, e⟩ | ⟨_, -, -, e⟩ <;>
    exact answersIn_of_respond e (by decide)

theorem removeNode_answers (q : Nat) (node : NodeRef) : AnswersIn [0x00, 0x01, 0x07] (removeNode q node s) := by
  rcases removeNode_cases q node s with ⟨-, e⟩ | ⟨_, -, -, e⟩ | ⟨_, -, -, e⟩ <;>
    exact answersIn_of_respond e (by decide)

theorem hasNode_answers (q : Nat) (node : NodeRef) : AnswersIn [0x00, 0x01] (hasNode q node s) := by
  rcases hasNode_responds q node s with ⟨-, e⟩ | ⟨_, -, e⟩ <;> exact answersIn_of_respond e (by decide)

theorem nextNode_answers (node : NodeRef) : AnswersIn [0x00, 0x01] (nextNode node s) := by
  rcases nextNode_responds node s with ⟨-, e⟩ | ⟨_, -, e⟩ <;> exact answersIn_of_respond e (by decide)

theorem lastNode_answers (q : Nat) : AnswersIn [0x00, 0x08] (lastNode q s) := by
  rcases lastNode_responds q s with ⟨-, e⟩ | ⟨_, -, e⟩ <;> exact answersIn_of_respond e (by decide)

/-- The rule of every command answers `OK` or one of the command's own statuses: the commands that test by the lemma of
their rule, the others with `OK` alone. -/
theorem ownRule_answers (i : Instr) : AnswersIn (0x00 :: ownStatuses i) (ownRule i s) := by
  cases i
  case ni16Ld r c => exact loadHalf_answers s r c
  case ni32Ld r c => exact loadReg_answers s r c
  case curPeek c => exact peek_answers s c
  case curInc c => exact advance_answers s c 1
  case curAdv c n => exact advance_answers s c n.toNat
  case bufAppend b n a => exact appendBytes_answers s b n a
  case bufRdb b idx => exact readByteAt_answers s b idx
  case csRange b off n => exact sumRange_answers s b off.toNat n.toNat
  case csRangec c off n => exact sumCursorRange_answers s c off.toNat n.toNat
  case chPrepend q k => exact insertNode_answers s linkHead q k
  case chAppend q k => exact insertNode_answers s linkTail q k
  case chPush q k f => exact insertNode_answers s (if f then linkTail else linkHead) q k
  case chFirst q f => exact takeFirst_answers s q f
  case chPop q => exact takeFirst_answers s q true
  case chRemove q k => exact removeNode_answers s q k
  case chHas q k => exact hasNode_answers s q k
  case chNext k => exact nextNode_answers s k
  case chLast q => exact lastNode_answers s q
  all_goals exact answersIn_of_respond (st := .ok) rfl List.mem_cons_self

end Rules

theorem answers_of_ne_rdcsr {i : Instr} (h : ∀ csr, i ≠ .rdcsr csr) :
    answers i = [0x00, 0x80, 0xF1] ++ ownStatuses i := by
  unfold answers
  split
  · exact absurd rfl (h _)
  · rfl

theorem mem_answers_of_own {i : Instr} {x : Byte} (h : x ∈ 0x00 :: ownStatuses i) : x ∈ answers i := by
  by_cases hr : ∃ csr, i = .rdcsr csr
  · obtain ⟨csr, rfl⟩ := hr
    exact h
  · rw [answers_of_ne_rdcsr fun csr e => hr ⟨csr, e⟩]
    exact List.cons_subset_cons _ (List.subset_append_right [0x80, 0xF1] _) h

/-- Settles O14: a command is refused, illegal or runs its rule (`exec_next`), whose statuses are in `ownRule_answers`. -/
theorem everyAnswerIsInTheStatusTable : Obligations.EveryAnswerIsInTheStatusTable := by
  intro i s t h
  rcases exec_next h with ⟨-, hi, e⟩ | ⟨-, hw, e⟩ | ⟨-, -, rfl⟩
  · refine answersIn_of_respond e ?_
    rw [answers_of_ne_rdcsr hi]
    exact List.mem_append_left _ (by decide)
  · have hi : ∀ csr, i ≠ .rdcsr csr := fun csr e => nomatch (e ▸ hw : (Instr.rdcsr csr).wellFormed s.cfg = false)
    refine answersIn_of_respond e ?_
    rw [answers_of_ne_rdcsr hi]
    exact List.mem_append_left _ (by decide)
  · obtain ⟨r, hr, hst⟩ := ownRule_answers s i
    exact ⟨r, hr, mem_answers_of_own hst⟩

/-! ### The causes of a fault (R164) -/

/-- R164: command `i` executed in `s` raises the cause, no test that comes before the raise in its rule (R96, R121,
R131) having answered it. -/
inductive Raises (s : State) : Instr → Cause → Prop where
  | inc {c} (hover : (s.cur c).pos + 1 > (s.cur c).stop) : Raises s (.curInc c) .curOverrun
  | adv {c n} (hover : (s.cur c).pos + n.toNat > (s.cur c).stop) : Raises s (.curAdv c n) .curOverrun
  | emptyPeek {c} (hover : (s.cur c).pos + 1 > (s.cur c).stop) : Raises s (.curPeek c) .curEmptyDeref
  | shortHalf {r c} (hover : (s.cur c).pos + 2 > (s.cur c).stop) : Raises s (.ni16Ld r c) .curShortRead
  | shortReg {r c} (hover : (s.cur c).pos + 4 > (s.cur c).stop) : Raises s (.ni32Ld r c) .curShortRead
  | stalePeek {c} (hin : (s.cur c).pos + 1 ≤ (s.cur c).stop) (hstale : (s.cur c).pos + 1 > s.len (s.cur c).buf) :
    Raises s (.curPeek c) .curStale
  | staleHalf {r c} (hin : (s.cur c).pos + 2 ≤ (s.cur c).stop) (hstale : (s.cur c).pos + 2 > s.len (s.cur c).buf) :
    Raises s (.ni16Ld r c) .curStale
  | staleReg {r c} (hin : (s.cur c).pos + 4 ≤ (s.cur c).stop) (hstale : (s.cur c).pos + 4 > s.len (s.cur c).buf) :
    Raises s (.ni32Ld r c) .curStale
  | staleRange {c off n} (hin : off.toNat + n.toNat ≤ s.remaining c) (hoff : off.toNat % 2 = 0)
    (hn : n.toNat % 2 = 0) (hne : off.toNat < rangeStop (s.remaining c) off.toNat n.toNat)
    (hstale : (s.cur c).pos + rangeStop (s.remaining c) off.toNat n.toNat > s.len (s.cur c).buf) :
    Raises s (.csRangec c off n) .curStale
  | convention {i q k} (hi : i = .chPrepend q (some k) ∨ i = .chAppend q (some k) ∨ ∃ f, i = .chPush q (some k) f)
    (habsent : s.reach q k = false) (hother : s.inOtherChain q k = true) : Raises s i .chainConvention

/-- The rule of a command raises every cause whose condition holds. -/
theorem Raises.ownRule_eq {i : Instr} {s : State} {e : Cause} (h : Raises s i e) : ownRule i s = s.raise e := by
  cases h with
  | @inc c hover => exact ((advance_cases c 1 s).resolve_right (by omega)).2
  | @adv c n hover => exact ((advance_cases c n.toNat s).resolve_right (by omega)).2
  | @emptyPeek c hover => exact ((peek_cases c s).resolve_right (by omega)).2
  | @shortHalf r c hover => exact ((loadHalf_cases r c s).resolve_right (by omega)).2
  | @shortReg r c hover => exact ((loadReg_cases r c s).resolve_right (by omega)).2
  | @stalePeek c hin hstale =>
    obtain ⟨-, -, e⟩ := ((peek_cases c s).resolve_left (by omega)).resolve_right (by omega)
    exact e
  | @staleHalf r c hin hstale =>
    obtain ⟨-, -, e⟩ := ((loadHalf_cases r c s).resolve_left (by omega)).resolve_right (by omega)
    exact e
  | @staleReg r c hin hstale =>
    obtain ⟨-, -, e⟩ := ((loadReg_cases r c s).resolve_left (by omega)).resolve_right (by omega)
    exact e
  | @staleRange c off n hin hoff hn hne hstale =>
    obtain ⟨-, -, -, -, -, e⟩ := (((sumCursorRange_cases c off.toNat n.toNat s).resolve_left
      (by omega)).resolve_left (by omega)).resolve_right (by omega)
    exact e
  | convention hi habsent hother =>
    obtain rfl | rfl | ⟨f, rfl⟩ := hi <;> exact insertNode_elsewhere habsent hother

/-- A command to which the status table gives no `FAULT` answer leaves `FAULT` as it was. -/
theorem ownRule_fault_of_no_status {i : Instr} {s : State} (h : 0xF0 ∉ ownStatuses i) :
    (ownRule i s).fault = s.fault := by
  rcases ownRule_ends i s with ⟨st, res, -, e⟩ | ⟨c, e⟩ | ⟨res, e⟩
  · rw [e, State.respond_fault]
  · obtain ⟨r, hr, hst⟩ := ownRule_answers s i
    rw [e, State.raise_resp] at hr
    obtain rfl := Option.some.inj hr
    exact absurd ((List.mem_cons.mp hst).resolve_left (by simp)) h
  · obtain ⟨-, -, -, -, hfault⟩ := effect_frame i s
    rw [e, State.respond_fault, hfault]

theorem fault_of_respond {s t u : State} {st : Status} {res : Word32} (e : t = u.respond st res)
    (hu : u.fault = s.fault) : t.fault = s.fault :=
  (congrArg State.fault e).trans hu

theorem Relinked.fault {s t : State} (h : Relinked s t) : t.fault = s.fault := by rw [h.frame]

/-- An insertion leaves `FAULT` as it was, unless the node is a member of another chain and not of this one. -/
theorem insertNode_fault_or_raises {i : Instr} {update : Nat → Nat → State → State} {q : Nat} {node : NodeRef}
    {s : State} (hu : ∀ k, Relinked s (update q k s))
    (hi : ∀ k, node = some k → i = .chPrepend q (some k) ∨ i = .chAppend q (some k) ∨ ∃ f, i = .chPush q (some k) f) :
    (insertNode update q node s).fault = s.fault ∨ ∃ e, Raises s i e := by
  rcases insertNode_cases update q node s with ⟨-, e⟩ | ⟨k, -, -, e⟩ | ⟨k, hk, habsent, hother, -⟩ | ⟨k, -, -, -, e⟩
  · exact .inl (fault_of_respond e rfl)
  · exact .inl (fault_of_respond e rfl)
  · exact .inr ⟨_, .convention (hi k hk) habsent hother⟩
  · exact .inl (fault_of_respond e (hu k).fault)

/-- The rule of a command leaves `FAULT` as it was where no cause's condition holds: the commands that can fault by the
tests of their rule, the others by the status table. -/
theorem ownRule_fault_or_raises (i : Instr) (s : State) : (ownRule i s).fault = s.fault ∨ ∃ e, Raises s i e := by
  cases i
  case ni16Ld r c =>
    rcases loadHalf_cases r c s with ⟨hover, -⟩ | ⟨hin, hstale, -⟩ | ⟨-, -, e⟩
    · exact .inr ⟨_, .shortHalf hover⟩
    · exact .inr ⟨_, .staleHalf hin hstale⟩
    · exact .inl (fault_of_respond e rfl)
  case ni32Ld r c =>
    rcases loadReg_cases r c s with ⟨hover, -⟩ | ⟨hin, hstale, -⟩ | ⟨-, -, e⟩
    · exact .inr ⟨_, .shortReg hover⟩
    · exact .inr ⟨_, .staleReg hin hstale⟩
    · exact .inl (fault_of_respond e rfl)
  case curPeek c =>
    rcases peek_cases c s with ⟨hover, -⟩ | ⟨hin, hstale, -⟩ | ⟨-, -, e⟩
    · exact .inr ⟨_, .emptyPeek hover⟩
    · exact .inr ⟨_, .stalePeek hin hstale⟩
    · exact .inl (fault_of_respond e rfl)
  case curInc c =>
    rcases advance_cases c 1 s with ⟨hover, -⟩ | ⟨-, e⟩
    · exact .inr ⟨_, .inc hover⟩
    · exact .inl (fault_of_respond e rfl)
  case curAdv c n =>
    rcases advance_cases c n.toNat s with ⟨hover, -⟩ | ⟨-, e⟩
    · exact .inr ⟨_, .adv hover⟩
    · exact .inl (fault_of_respond e rfl)
  case csRangec c off n =>
    rcases sumCursorRange_cases c off.toNat n.toNat s with
      ⟨-, e⟩ | ⟨-, -, e⟩ | ⟨hin, hoff, hn, hne, hstale, -⟩ | ⟨-, -, -, -, e⟩
    · exact .inl (fault_of_respond e rfl)
    · exact .inl (fault_of_respond e rfl)
    · exact .inr ⟨_, .staleRange hin hoff hn hne hstale⟩
    · exact .inl (fault_of_respond e rfl)
  case chPrepend q k =>
    exact insertNode_fault_or_raises (fun k => relinked_linkHead q k s) fun k hk => .inl (hk ▸ rfl)
  case chAppend q k =>
    exact insertNode_fault_or_raises (fun k => relinked_linkTail q k s) fun k hk => .inr (.inl (hk ▸ rfl))
  case chPush q k f =>
    refine insertNode_fault_or_raises (fun k => ?_) fun k hk => .inr (.inr ⟨f, hk ▸ rfl⟩)
    cases f
    · exact relinked_linkHead q k s
    · exact relinked_linkTail q k s
  all_goals exact .inl (ownRule_fault_of_no_status (by simp [ownStatuses]))

theorem Cause.code_injective : Function.Injective Cause.code := by
  intro c e
  cases c <;> cases e <;> decide

/-- R164: a rule that starts with `FAULT` at 0 ends with it at a cause exactly when that cause's condition holds. -/
theorem ownRule_fault_eq_code_iff {i : Instr} {s : State} {e : Cause} (hf : s.fault = 0) :
    (ownRule i s).fault = e.code ↔ Raises s i e := by
  refine ⟨fun he => ?_, fun h => congrArg State.fault h.ownRule_eq⟩
  rcases ownRule_fault_or_raises i s with hkeep | ⟨c, hc⟩
  · exact absurd (he.symm.trans (hkeep.trans hf)) e.code_ne_zero
  · have hcode : c.code = e.code := (congrArg State.fault hc.ownRule_eq).symm.trans he
    exact Cause.code_injective hcode ▸ hc

/-- R164: no other value than 0 and the five causes is ever written. -/
theorem ownRule_fault_le {i : Instr} {s : State} (hf : s.fault = 0) : (ownRule i s).fault.toNat ≤ 5 := by
  rcases ownRule_fault_or_raises i s with hkeep | ⟨c, hc⟩
  · rw [hkeep, hf]
    decide
  · rw [hc.ownRule_eq]
    exact c.code_le

/-! #### The commands and the condition of each cause -/

section Causes

variable {s : State} {i : Instr}

theorem raises_curOverrun_iff : Raises s i .curOverrun ↔
    (∃ c, i = .curInc c ∧ (s.cur c).pos + 1 > (s.cur c).stop)
      ∨ ∃ c n, i = .curAdv c n ∧ (s.cur c).pos + n.toNat > (s.cur c).stop := by
  constructor
  · intro h
    cases h with
    | inc hover => exact .inl ⟨_, rfl, hover⟩
    | adv hover => exact .inr ⟨_, _, rfl, hover⟩
  · rintro (⟨c, rfl, hover⟩ | ⟨c, n, rfl, hover⟩)
    · exact .inc hover
    · exact .adv hover

theorem raises_curEmptyDeref_iff :
    Raises s i .curEmptyDeref ↔ ∃ c, i = .curPeek c ∧ (s.cur c).pos + 1 > (s.cur c).stop := by
  constructor
  · intro h
    cases h with
    | emptyPeek hover => exact ⟨_, rfl, hover⟩
  · rintro ⟨c, rfl, hover⟩
    exact .emptyPeek hover

theorem raises_curShortRead_iff : Raises s i .curShortRead ↔
    (∃ r c, i = .ni16Ld r c ∧ (s.cur c).pos + 2 > (s.cur c).stop)
      ∨ ∃ r c, i = .ni32Ld r c ∧ (s.cur c).pos + 4 > (s.cur c).stop := by
  constructor
  · intro h
    cases h with
    | shortHalf hover => exact .inl ⟨_, _, rfl, hover⟩
    | shortReg hover => exact .inr ⟨_, _, rfl, hover⟩
  · rintro (⟨r, c, rfl, hover⟩ | ⟨r, c, rfl, hover⟩)
    · exact .shortHalf hover
    · exact .shortReg hover

theorem raises_curStale_iff : Raises s i .curStale ↔
    (∃ c, i = .curPeek c ∧ (s.cur c).pos + 1 ≤ (s.cur c).stop ∧ (s.cur c).pos + 1 > s.len (s.cur c).buf)
      ∨ (∃ r c, i = .ni16Ld r c ∧ (s.cur c).pos + 2 ≤ (s.cur c).stop ∧ (s.cur c).pos + 2 > s.len (s.cur c).buf)
      ∨ (∃ r c, i = .ni32Ld r c ∧ (s.cur c).pos + 4 ≤ (s.cur c).stop ∧ (s.cur c).pos + 4 > s.len (s.cur c).buf)
      ∨ ∃ c off n, i = .csRangec c off n ∧ ∃ L stop : Nat, L = (s.cur c).stop - (s.cur c).pos
        ∧ stop = (if n = 0 then L else off.toNat + n.toNat)
        ∧ off.toNat + n.toNat ≤ L ∧ off.toNat % 2 = 0 ∧ n.toNat % 2 = 0
        ∧ off.toNat < stop ∧ (s.cur c).pos + stop > s.len (s.cur c).buf := by
  constructor
  · intro h
    cases h with
    | stalePeek hin hstale => exact .inl ⟨_, rfl, hin, hstale⟩
    | staleHalf hin hstale => exact .inr (.inl ⟨_, _, rfl, hin, hstale⟩)
    | staleReg hin hstale => exact .inr (.inr (.inl ⟨_, _, rfl, hin, hstale⟩))
    | staleRange hin hoff hn hne hstale =>
      exact .inr (.inr (.inr ⟨_, _, _, rfl, _, _, rfl, rangeStop_toNat _ _ _, hin, hoff, hn, hne, hstale⟩))
  · rintro (⟨c, rfl, hin, hstale⟩ | ⟨r, c, rfl, hin, hstale⟩ | ⟨r, c, rfl, hin, hstale⟩ |
      ⟨c, off, n, rfl, L, stop, rfl, hstop, hin, hoff, hn, hne, hstale⟩)
    · exact .stalePeek hin hstale
    · exact .staleHalf hin hstale
    · exact .staleReg hin hstale
    · rw [← rangeStop_toNat] at hstop
      subst hstop
      exact .staleRange hin hoff hn hne hstale

theorem raises_chainConvention_iff : Raises s i .chainConvention ↔
    ∃ q k, (i = .chPrepend q (some k) ∨ i = .chAppend q (some k) ∨ ∃ f, i = .chPush q (some k) f)
      ∧ s.reach q k = false ∧ ∃ q2, q2 ≠ q ∧ q2 < s.cfg.nchain ∧ s.reach q2 k = true := by
  simp only [← inOtherChain_iff]
  constructor
  · intro h
    cases h with
    | convention hi habsent hother => exact ⟨_, _, hi, habsent, hother⟩
  · rintro ⟨q, k, hi, habsent, hother⟩
    exact .convention hi habsent hother

end Causes

/-- Settles O13: a command that does not run only responds; the rule of one that runs sets a cause exactly when
`Raises` holds (`ownRule_fault_eq_code_iff`), which is the condition written out for each cause. -/
theorem faultCausesAndTheirCommands : Obligations.FaultCausesAndTheirCommands := by
  intro i s t h
  refine ⟨fun hn => ?_, fun hf hw => ?_⟩
  · obtain ⟨st, res, rfl⟩ := exec_of_not_run h hn
    rfl
  · obtain rfl := Host.Outcome.next.inj ((exec_run hf hw).symm.trans h)
    have hcause (e : Cause) : (ownRule i s).fault = e.code ↔ Raises s i e := ownRule_fault_eq_code_iff hf
    exact ⟨ownRule_fault_le hf, (hcause .curOverrun).trans raises_curOverrun_iff,
      (hcause .curEmptyDeref).trans raises_curEmptyDeref_iff, (hcause .curShortRead).trans raises_curShortRead_iff,
      (hcause .curStale).trans raises_curStale_iff, (hcause .chainConvention).trans raises_chainConvention_iff⟩

end Sys2Proof.Machine
end

section
/-! PROOFS of the statement of 70_reset_and_hazards.md: the values of reset, and that a set `FAULT` is left by reset
alone (R180). -/

namespace Sys2Proof.Machine

/-- R161: in the fault state a word, whether it decodes or not, is answered and writes no state of the block. -/
theorem runWord_responds_of_fault {w : Command} {s t : State} (h : runWord w s = .next t) (hf : s.fault ≠ 0) :
    ∃ st res, t = s.respond st res := by
  rcases hd : decode w with e | i
  · rw [runWord_error hd, State.refuseWord_of_fault hf] at h
    exact ⟨.faulted, 0, (Host.Outcome.next.inj h).symm⟩
  · rw [runWord_ok hd] at h
    exact exec_of_not_run h (.inl hf)

theorem runWord_keeps_fault {w : Command} {s t : State} (h : runWord w s = .next t) (hf : s.fault ≠ 0) :
    t.fault = s.fault := by
  obtain ⟨st, res, rfl⟩ := runWord_responds_of_fault h hf
  exact s.respond_fault st res

/-- R180: of the host's next actions only the reset is a way out of the fault state. -/
theorem step_keeps_fault_or_resets {s t : State} (h : step s = .next t) (hf : s.fault ≠ 0) :
    t.fault = s.fault ∨ ∃ rest, s.actions = .reset :: rest := by
  rcases ha : s.actions with _ | ⟨w | ⟨a, v⟩ | _, rest⟩
  · obtain rfl := Host.Outcome.next.inj ((step_idle ha).symm.trans h)
    exact .inl rfl
  · rw [step_command ha] at h
    exact .inl (runWord_keeps_fault (s := s.setActions rest) h hf)
  · obtain rfl := Host.Outcome.next.inj ((step_setSrc ha).symm.trans h)
    exact .inl rfl
  · exact .inr ⟨rest, rfl⟩

/-- Settles O8: reset is `State.resetOf` with the configuration, SRC and the actions kept; a word in the fault state only
responds (`runWord_responds_of_fault`), and the other actions but the reset do not write `FAULT`. -/
theorem resetIsTheOnlyExitFromAFault : Obligations.ResetIsTheOnlyExitFromAFault :=
  ⟨fun _ => ⟨_, _, _, rfl⟩, fun _ _ _ => runWord_keeps_fault, fun _ _ => step_keeps_fault_or_resets⟩

end Sys2Proof.Machine
end
